-- ==== Sys2Proof/Word.lean ====
section
/-! DEFINITION. Word.lean: the word types. Bytes of the serial stream (R63), the 64-bit times of `now()` (R8),
binary64 values as their 64-bit patterns (R36, R183), and the pair of letters that is a command code (R63). -/

namespace Sys2Proof

/-- One byte of the serial stream (R60, R63). -/
abbrev Byte := BitVec 8

/-- A 64-bit register: a time in microseconds, or a response of the host port (R8, R86). -/
abbrev Word := BitVec 64

/-- An IEEE-754 binary64 value, held as its 64-bit pattern: the deduplicator compares values bit for bit (R36). -/
abbrev F64 := BitVec 64

/-- The two letters of a command code, in the order sent: `tp` and `pt` differ (R63). -/
structure Code where
  l1 : Byte
  l2 : Byte
  deriving DecidableEq, Repr

end Sys2Proof
end

