-- ==== Sys2Proof/Config.lean ====
section
/-! DEFINITION. Config.lean: what an implementation fixes (R8, R40). The OPEN parameters are one record of plain
data, `Config`; State carries one such record, which no step changes, so every statement holds for every choice
of the parameters (DESIGN CHOICE, log 1, safe). The planner's arithmetic is a record of functions, `Arith` (R183, D24). -/

namespace Sys2Proof

/-- Counting direction of the sub-counter (R8, D3). -/
inductive SubDir where
  | up
  | down
  deriving DecidableEq, Repr

/-- `mode` of MotionState (R37). -/
inductive Mode where
  | position
  | velocity
  deriving DecidableEq, Repr

/-- The parameters of R8 that the spec leaves OPEN. -/
structure Config where
  /-- `TICK_W`, width of the tick count (D2). -/
  tickW : Nat
  /-- `SUB_MOD`, counts of the sub-counter in one tick (D3). -/
  subMod : Nat
  /-- `SUB_DIR` (D3). -/
  subDir : SubDir
  /-- `STEP_W`, width of ACTUAL_STEPS and TARGET (D16). -/
  stepW : Nat
  /-- `SPR_W`, width of `steps_per_revolution` (D32). -/
  sprW : Nat
  /-- `DEF_MAX_VELOCITY`, degrees per second (D18). -/
  defMaxVelocity : F64
  /-- `DEF_MAX_ACCELERATION`, degrees per second squared (D18). -/
  defMaxAcceleration : F64
  /-- `DEF_STEPS_PER_REV` (D18). -/
  defStepsPerRev : Int
  /-- `DEF_ENABLED` (D18). -/
  defEnabled : Bool
  /-- `DEF_MODE` (D18). -/
  defMode : Mode
  /-- `DEF_TARGET`, the target of the default mode (D18). -/
  defTarget : F64
  deriving DecidableEq, Repr

/-- The defaults of R8 for `TICK_W`, `SUB_MOD`, `SUB_DIR`, `STEP_W`, `SPR_W`. The `DEF_*` have no default in the
spec: the values are those of the spec's own example S1 (max velocity 90, max acceleration 10, 200 steps per
revolution), disabled, Position mode, target 0.0 (DESIGN CHOICE, log 2, unsafe). -/
def Config.default : Config where
  tickW := 64
  subMod := 1000
  subDir := .up
  stepW := 32
  sprW := 32
  defMaxVelocity := 0x4056800000000000#64
  defMaxAcceleration := 0x4024000000000000#64
  defStepsPerRev := 200
  defEnabled := false
  defMode := .position
  defTarget := 0#64

/-- What R8 asks of the parameters: at least one count per tick and a step counter of at least 2 bits. -/
abbrev Config.wf (c : Config) : Prop := 1 ≤ c.subMod ∧ 2 ≤ c.stepW

/-- `US_PER_TICK` (R8). -/
def Config.usPerTick : Nat := 1000

/-- `LOOP_PERIOD_US`, the value of register LOOP_PERIOD (R27). -/
def Config.loopPeriod : Word := 100#64

/-- `NUMBUF_CAP` (R8, R34). -/
def Config.numbufCap : Nat := 31

/-- The planner's arithmetic (R183, D24): "a model should carry the planner's arithmetic as a configuration function
of which it assumes only that results depend on operands alone". The machine runs the planner on `binary64`
(Machine/Binary64.lean), the arithmetic D24 decides on. -/
structure Arith where
  add : F64 → F64 → F64
  sub : F64 → F64 → F64
  mul : F64 → F64 → F64
  div : F64 → F64 → F64
  sqrt : F64 → F64
  /-- `x < y`, false when either is NaN. -/
  lt : F64 → F64 → Bool
  /-- The value nearest to an integer. -/
  ofInt : Int → F64
  /-- Truncation toward zero (R9); `none` for NaN and the infinities. -/
  trunc : F64 → Option Int

/-- The operations that can give a NaN. -/
inductive NanOp where
  | add
  | mul
  | div
  | sqrt
  deriving DecidableEq, Repr

/-- A free value of the model: sign and payload of a NaN result. The spec names no pattern and no admitted run produces a
NaN (R183), so they are any function of the operation and its operands (DESIGN CHOICE, log 13, safe). -/
opaque Config.nanBits : NanOp → F64 → F64 → BitVec 52

/-- The other free value: the sign of a NaN, which R9 and D31 do not state (DESIGN CHOICE, log 13, safe). -/
opaque Config.signOfNaN : F64 → F64

end Sys2Proof
end

