-- ==== Sys2Proof/Machine/Binary64.lean ====
section
/-! DEFINITION. Binary64.lean: IEEE-754 binary64 arithmetic on bit patterns, each operation rounded once to nearest,
ties to even, `sqrt` correctly rounded, no fused operation (R183, D24, G2, G3). Every operation is exact rational
arithmetic followed by the one rounding function `roundQ`. The sign and payload of a NaN result are free (log 13: the spec
names no pattern and no admitted run produces a NaN, R183). -/

namespace Sys2Proof.Machine

/-- `+0.0`. -/
def F64.zero : F64 := 0#64
/-- `-0.0` (G2). -/
def F64.negZero : F64 := 0x8000000000000000#64
/-- `1.0`. -/
def F64.one : F64 := 0x3FF0000000000000#64
/-- `-1.0`. -/
def F64.negOne : F64 := 0xBFF0000000000000#64
/-- `0.5`. -/
def F64.half : F64 := 0x3FE0000000000000#64
/-- `2.0`. -/
def F64.two : F64 := 0x4000000000000000#64
/-- `360.0`. -/
def F64.c360 : F64 := 0x4076800000000000#64
/-- `1000000.0`. -/
def F64.million : F64 := 0x412E848000000000#64
/-- A NaN result of an operation on two operands: exponent all ones, quiet, sign and payload free (log 13). -/
def F64.nanOf (op : NanOp) (x y : F64) : F64 :=
  let b := Config.nanBits op x y
  (b.extractLsb' 51 1 ++ 0x7FF#11) ++ (1#1 ++ b.extractLsb' 0 51)

/-- The pattern of an infinity. -/
def F64.infinity (neg : Bool) : F64 := if neg then 0xFFF0000000000000#64 else 0x7FF0000000000000#64

/-- The pattern of a zero. -/
def F64.signedZero (neg : Bool) : F64 := if neg then F64.negZero else F64.zero

/-- `|x|`: the sign bit cleared. -/
def F64.abs (x : F64) : F64 := x &&& 0x7FFFFFFFFFFFFFFF#64

/-- `x = 0`: true of `+0.0` and `-0.0` and of nothing else (R85). -/
def F64.isZero (x : F64) : Bool := F64.abs x == 0#64

/-- A binary64 pattern read out: a finite value is `± m / 2^1074`. -/
inductive Value64 where
  | nan
  | inf (neg : Bool)
  | fin (neg : Bool) (m : Nat)
  deriving DecidableEq, Repr

/-- Reads a pattern: sign bit 63, exponent bits 62 to 52, fraction bits 51 to 0 (G2). -/
def F64.value (x : F64) : Value64 :=
  let e := (x.extractLsb' 52 11).toNat
  let f := (x.extractLsb' 0 52).toNat
  if e = 2047 then
    if f = 0 then .inf x.msb else .nan
  else if e = 0 then .fin x.msb f
  else .fin x.msb ((2 ^ 52 + f) <<< (e - 1))

/-- The pattern is a NaN. -/
def F64.isNaN (x : F64) : Bool := decide (F64.value x = .nan)

/-- Sets the sign of a pattern whose sign bit is clear. -/
def F64.withSign (neg : Bool) (b : Nat) : F64 :=
  if neg then BitVec.ofNat 64 (b + 2 ^ 63) else BitVec.ofNat 64 b

/-- `2^e ≤ n / d`. -/
def F64.pow2Le (e : Int) (n d : Nat) : Bool :=
  if 0 ≤ e then decide (d <<< e.toNat ≤ n) else decide (d ≤ n <<< (-e).toNat)

/-- The exponent of the unit in the last place of the binary64 value nearest to `n / d`: `floor(log2 (n / d)) - 52`, and
never below -1074 (the subnormals). -/
def F64.ulpExp (n d : Nat) : Int :=
  let e0 : Int := (n.log2 : Int) - (d.log2 : Int)
  let e1 : Int := if F64.pow2Le e0 n d then e0 else e0 - 1
  max (e1 - 52) (-1074)

/-- `num / den` rounded to the nearest integer, ties to even. -/
def F64.roundDiv (num den : Nat) : Nat :=
  let q := num / den
  let r := num % den
  if 2 * r > den ∨ (2 * r = den ∧ q % 2 = 1) then q + 1 else q

/-- The binary64 pattern nearest to `± n / d`, ties to even; an infinity beyond the largest finite value (D24). -/
def F64.roundQ (neg : Bool) (n d : Nat) : F64 :=
  if n = 0 then F64.signedZero neg
  else
    let e := F64.ulpExp n d
    let q := F64.roundDiv (if 0 ≤ e then n else n <<< (-e).toNat) (if 0 ≤ e then d <<< e.toNat else d)
    let b := ((e + 1074).toNat <<< 52) + q
    if 0x7FF0000000000000 ≤ b then F64.infinity neg else F64.withSign neg b

/-- The scale of `Value64.fin`: `2^1074`. -/
def F64.unit : Nat := 1 <<< 1074

/-- `x + y`. An exact zero sum is `+0.0` unless both operands are negative. -/
def F64.add (x y : F64) : F64 :=
  match F64.value x, F64.value y with
  | .nan, _ => F64.nanOf .add x y
  | _, .nan => F64.nanOf .add x y
  | .inf a, .inf b => if a = b then F64.infinity a else F64.nanOf .add x y
  | .inf a, .fin _ _ => F64.infinity a
  | .fin _ _, .inf b => F64.infinity b
  | .fin a m, .fin b n =>
    let t : Int := (if a then -(m : Int) else m) + (if b then -(n : Int) else n)
    if t = 0 then F64.signedZero (a && b) else F64.roundQ (decide (t < 0)) t.natAbs F64.unit

/-- `-x`: the sign bit inverted. -/
def F64.neg (x : F64) : F64 := x ^^^ 0x8000000000000000#64

/-- `x - y`, that is `x + (-y)`. -/
def F64.sub (x y : F64) : F64 := F64.add x (F64.neg y)

/-- `x * y`. -/
def F64.mul (x y : F64) : F64 :=
  match F64.value x, F64.value y with
  | .nan, _ => F64.nanOf .mul x y
  | _, .nan => F64.nanOf .mul x y
  | .inf a, .inf b => F64.infinity (a ^^ b)
  | .inf a, .fin b n => if n = 0 then F64.nanOf .mul x y else F64.infinity (a ^^ b)
  | .fin a m, .inf b => if m = 0 then F64.nanOf .mul x y else F64.infinity (a ^^ b)
  | .fin a m, .fin b n => F64.roundQ (a ^^ b) (m * n) (1 <<< 2148)

/-- `x / y`. -/
def F64.div (x y : F64) : F64 :=
  match F64.value x, F64.value y with
  | .nan, _ => F64.nanOf .div x y
  | _, .nan => F64.nanOf .div x y
  | .inf _, .inf _ => F64.nanOf .div x y
  | .inf a, .fin b _ => F64.infinity (a ^^ b)
  | .fin a _, .inf b => F64.signedZero (a ^^ b)
  | .fin a m, .fin b n =>
    if n = 0 then (if m = 0 then F64.nanOf .div x y else F64.infinity (a ^^ b)) else F64.roundQ (a ^^ b) m n

/-- One bit a turn, from bit `k - 1` down: the greatest root reached from `r`. -/
def F64.isqrtGo (n : Nat) : Nat → Nat → Nat
  | 0, r => r
  | k + 1, r => if (r + 2 ^ k) * (r + 2 ^ k) ≤ n then F64.isqrtGo n k (r + 2 ^ k) else F64.isqrtGo n k r

/-- `floor(sqrt n)` for `n < 2^112`. -/
def F64.isqrt (n : Nat) : Nat := F64.isqrtGo n 56 0

/-- `sqrt(m / 2^1074)`, correctly rounded. The radicand is shifted by an even count to between `2^108` and `2^110`, exactly,
since `m` has at most 53 significant bits; the root then has at least 55 bits, and an inexact root is rounded as
"root and a half", which lies on the same side of every rounding boundary. -/
def F64.sqrtPos (m : Nat) : F64 :=
  let l := m.log2
  let up := (109 - l) / 2
  let down := (l - 108) / 2
  let r := if l < 108 then m <<< (2 * up) else m >>> (2 * down)
  let q := F64.isqrt r
  let h := if q * q = r then 2 * q else 2 * q + 1
  if l < 108 then F64.roundQ false h (1 <<< (538 + up)) else F64.roundQ false (h <<< down) (1 <<< 538)

/-- `sqrt x`; NaN below zero, and `sqrt(-0.0) = -0.0`. -/
def F64.sqrt (x : F64) : F64 :=
  match F64.value x with
  | .nan => F64.nanOf .sqrt x x
  | .inf a => if a then F64.nanOf .sqrt x x else F64.infinity false
  | .fin a m => if m = 0 then F64.signedZero a else if a then F64.nanOf .sqrt x x else F64.sqrtPos m

/-- `x < y`, false when either is NaN. -/
def F64.lt (x y : F64) : Bool :=
  match F64.value x, F64.value y with
  | .nan, _ => false
  | _, .nan => false
  | .inf a, .inf b => a && !b
  | .inf a, .fin _ _ => a
  | .fin _ _, .inf b => !b
  | .fin a m, .fin b n => decide ((if a then -(m : Int) else m) < (if b then -(n : Int) else n))

/-- The binary64 value nearest to an integer. -/
def F64.ofInt (i : Int) : F64 := F64.roundQ (decide (i < 0)) i.natAbs 1

/-- `trunc(x)` (R9): toward zero; `none` for NaN and the infinities. -/
def F64.trunc (x : F64) : Option Int :=
  match F64.value x with
  | .nan => none
  | .inf _ => none
  | .fin a m => some (if a then -((m >>> 1074 : Nat) : Int) else ((m >>> 1074 : Nat) : Int))

/-- The arithmetic of D24, on which the machine runs the planner. -/
def binary64 : Arith where
  add := F64.add
  sub := F64.sub
  mul := F64.mul
  div := F64.div
  sqrt := F64.sqrt
  lt := F64.lt
  ofInt := F64.ofInt
  trunc := F64.trunc

end Sys2Proof.Machine
end

