-- ==== Sys2Proof/Syntax.lean ====
section
/-! DEFINITION. Syntax.lean: the 22 operations of the block (R80), one constructor per row of
`spec/opcode_table.json`, with the drive commands of R88 and the commands of R35 as data. -/

namespace Sys2Proof

/-- A drive command, an element of the drive stream (R65, R88). -/
inductive Drive where
  | enable
  | disable
  | stepFwd
  | stepRev
  deriving DecidableEq, Repr

/-- A parsed command: the code and the binary64 value (R35, R36). -/
structure Command where
  code : Code
  value : F64
  deriving DecidableEq, Repr

/-- The operations of R80. A WIRE command's operand is the value `V` of R84, since only the value survives the parser. -/
inductive Instr where
  /-- WIRE `en=V` (R170). -/
  | en (v : F64)
  /-- WIRE `mv=V` (R171). -/
  | mv (v : F64)
  /-- WIRE `ma=V` (R172). -/
  | ma (v : F64)
  /-- WIRE `sr=V` (R173). -/
  | sr (v : F64)
  /-- WIRE `tp=V` (R174). -/
  | tp (v : F64)
  /-- WIRE `tv=V` (R175). -/
  | tv (v : F64)
  /-- HOSTOP `NOW` (R105). -/
  | now
  /-- HOSTOP `BLOCK_UNTIL deadline` (R106). -/
  | blockUntil (deadline : Word)
  /-- HOSTOP `RDT` (R102). -/
  | rdt
  /-- HOSTOP `RDS` (R103). -/
  | rds
  /-- DRIVE `ENABLE` (R135). -/
  | enable
  /-- DRIVE `DISABLE` (R136). -/
  | disable
  /-- DRIVE `STEP_FWD` (R137). -/
  | stepFwd
  /-- DRIVE `STEP_REV` (R138). -/
  | stepRev
  /-- EVENT `CNT` (R100). -/
  | cnt
  /-- EVENT `TICK` (R101). -/
  | tick
  /-- EVENT `BYTE` with its byte (R160). -/
  | byte (c : Byte)
  /-- EVENT `SCHED` (R130). -/
  | sched
  /-- EVENT `POLL` (R131). -/
  | poll
  /-- EVENT `EDGE` (R132). -/
  | edge
  /-- EVENT `EVAL` (R133). -/
  | eval
  /-- EVENT `STEP` (R134). -/
  | step
  deriving DecidableEq, Repr

end Sys2Proof
end

