-- ==== Sys2Proof/Machine/Literal.lean ====
section
/-! DEFINITION. Literal.lean: the character classes of the wire (R82, values G1) and the numeric literal in both
directions: `literal`, the value of the kept characters (R84, D25), and `literalFor`, a text that denotes a value. -/

namespace Sys2Proof.Machine

/-- `a` to `z` (R82). -/
def isLetter (c : Byte) : Bool := decide (0x61 ≤ c.toNat ∧ c.toNat ≤ 0x7A)
/-- `0` to `9` (R82). -/
def isDigit (c : Byte) : Bool := decide (0x30 ≤ c.toNat ∧ c.toNat ≤ 0x39)
/-- `=` (R82). -/
def chEq : Byte := 0x3D#8
/-- `-` (R82). -/
def chMinus : Byte := 0x2D#8
/-- `.` (R82). -/
def chPoint : Byte := 0x2E#8
/-- carriage return (R82). -/
def chCR : Byte := 0x0D#8
/-- line feed (R82). -/
def chLF : Byte := 0x0A#8
/-- The characters of the number field: `-`, `.`, `0` to `9` (R81). -/
def isNumChar (c : Byte) : Bool := c == chMinus || c == chPoint || isDigit c
/-- The terminators: carriage return or line feed (R81). -/
def isTerm (c : Byte) : Bool := c == chCR || c == chLF

/-- The number a run of digits denotes, most significant first (R64). -/
def digitsValue (ds : List Byte) : Nat := ds.foldl (fun a c => 10 * a + (c.toNat - 0x30)) 0

/-- The value of a prefix `ip . fp` of R84's grammar (the point is absent when `fp` is empty); no digit at all is no
prefix, and gives `+0.0` whatever the sign. -/
def decimalValue (neg : Bool) (ip fp : List Byte) : F64 :=
  if ip.isEmpty && fp.isEmpty then F64.zero
  else F64.roundQ neg (digitsValue (ip ++ fp)) (10 ^ fp.length)

/-- The unsigned part of the longest prefix matching `D+ ( . D* )? | . D+` (R84). -/
def unsignedLiteral (neg : Bool) (b : List Byte) : F64 :=
  let ip := b.takeWhile isDigit
  match b.dropWhile isDigit with
  | [] => decimalValue neg ip []
  | c :: rest => decimalValue neg ip (if c == chPoint then rest.takeWhile isDigit else [])

/-- `literal` of R160: the kept characters to binary64 by the longest prefix matching
`-? ( D+ ( . D* )? | . D+ )`, correctly rounded, with the sign of the prefix; no prefix gives `+0.0` (R84, D25). -/
def literal (b : List Byte) : F64 :=
  match b with
  | [] => F64.zero
  | c :: rest => if c == chMinus then unsignedLiteral true rest else unsignedLiteral false (c :: rest)

/-- The digits of `n`, most significant first, put before `acc`; at most `fuel` of them. -/
def digitsGo : Nat → Nat → List Byte → List Byte
  | 0, _, acc => acc
  | fuel + 1, n, acc =>
    if n = 0 then acc else digitsGo fuel (n / 10) (BitVec.ofNat 8 (0x30 + n % 10) :: acc)

/-- Exactly `k` digits of `n`, the low ones, most significant first. -/
def fracDigits : Nat → Nat → List Byte → List Byte
  | 0, _, acc => acc
  | k + 1, n, acc => fracDigits k (n / 10) (BitVec.ofNat 8 (0x30 + n % 10) :: acc)

/-- The text of `± n / 10^k`, without a needless leading zero. -/
def literalText (neg : Bool) (n k : Nat) : List Byte :=
  (if neg then [chMinus] else []) ++
    (if k = 0 then (if n = 0 then [0x30#8] else digitsGo 40 n [])
     else digitsGo 40 (n / 10 ^ k) [] ++ chPoint :: fracDigits k n [])

/-- The largest `n` whose text `± n / 10^k` has at most 31 characters: the sign and the point take one each. -/
def literalMax (neg : Bool) (k : Nat) : Nat :=
  10 ^ (Config.numbufCap - (if neg then 1 else 0) - (if k = 0 then 0 else 1)) - 1

/-- The two neighbours of a finite value with `k` decimals, as texts, the lower one no longer than 31 characters allow: if
any literal of that length with `k` decimals denotes the value, one of these does, since rounding keeps the order. Both
neighbours of `-10^30` have 32 characters, for one, and `-` with thirty nines denotes it (R84). -/
def literalCandidates (v : F64) (k : Nat) : List (List Byte) :=
  match F64.value v with
  | .fin neg m =>
    let n := (m * 10 ^ k) >>> 1074
    [literalText neg (min n (literalMax neg k)) k, literalText neg (n + 1) k]
  | _ => []

/-- A text of at most 31 number characters that denotes `v`, if there is one: the candidate with the fewest decimals
(the spec fixes what a text means, R84, and not which text a sender writes; DESIGN CHOICE, log 16). -/
def literalFor (v : F64) : Option (List Byte) :=
  ((List.range 31).flatMap (literalCandidates v)).find? fun t =>
    decide (t.length ≤ Config.numbufCap) && t.all isNumChar && literal t == v

end Sys2Proof.Machine
end

