-- ==== Sys2Proof/WellFormed.lean ====
section
/-! DEFINITION. WellFormed.lean: which instructions have an encoding. The only check is on a WIRE operand: the value
must be one that a literal of at most 31 kept characters denotes (R84). Every operand of the other formats fits its
field by its type. -/

namespace Sys2Proof

open Machine

/-- A value some wire literal denotes (R84): NaN, the infinities and values beyond 31 characters have none. -/
def wireValue (v : F64) : Bool := (literalFor v).isSome

/-- The instruction has an encoding (R81, R86, R88, R89). -/
def Instr.wellFormed : Instr → Bool
  | .en v => wireValue v
  | .mv v => wireValue v
  | .ma v => wireValue v
  | .sr v => wireValue v
  | .tp v => wireValue v
  | .tv v => wireValue v
  | .now => true
  | .blockUntil _ => true
  | .rdt => true
  | .rds => true
  | .enable => true
  | .disable => true
  | .stepFwd => true
  | .stepRev => true
  | .cnt => true
  | .tick => true
  | .byte _ => true
  | .sched => true
  | .poll => true
  | .edge => true
  | .eval => true
  | .step => true

end Sys2Proof
end

