-- ==== Sys2Proof/Decode.lean ====
section
/-! DEFINITION. Decode.lean: the four encodings (R80): WIRE lines (R81 to R83), HOSTOP request words (R86), DRIVE codes
(R88), EVENT codes (R89), decoded and encoded. The decoder is total and rejects by name; a reserved code is never an
operation (R90). -/

namespace Sys2Proof

open Machine

/-- An encoded operation with the format it stands in: the four code spaces are separate and overlap as bare
numbers (R86, R88, R89). -/
inductive Encoded where
  /-- A line of the byte stream (R81). -/
  | wire (line : List Byte)
  /-- A request word, `arg` in bits 67 to 4, `op` in bits 3 to 0 (R86). -/
  | host (w : BitVec 68)
  /-- A drive code (R88). -/
  | drive (drv : BitVec 3)
  /-- An event code with the byte that BYTE carries beside it (R89). -/
  | event (ev : BitVec 4) (c : Byte)
  deriving DecidableEq, Repr

/-- Why the decoder gives no instruction. -/
inductive Reject where
  /-- A reserved HOSTOP, DRIVE or EVENT code (R90). -/
  | reservedCode
  /-- A well-formed line whose code is none of the six (R90 b, R176). -/
  | unknownCode
  /-- The first or second byte of a line is no lowercase letter (R90 a). -/
  | notALetter
  /-- The third byte of a line is not `=` (R90 a). -/
  | missingEquals
  /-- A byte after `=` that is neither a number character nor a terminator (R90 a). -/
  | unexpectedByte
  /-- The bytes end before a terminator (R91). -/
  | noTerminator
  deriving DecidableEq, Repr

/-! ## The command codes -/

/-- The two letters of a command code. -/
def code (a b : Nat) : Code := ⟨BitVec.ofNat 8 a, BitVec.ofNat 8 b⟩

/-- `en` -/
def codeEn : Code := code 0x65 0x6E
/-- `mv` -/
def codeMv : Code := code 0x6D 0x76
/-- `ma` -/
def codeMa : Code := code 0x6D 0x61
/-- `sr` -/
def codeSr : Code := code 0x73 0x72
/-- `tp` -/
def codeTp : Code := code 0x74 0x70
/-- `tv` -/
def codeTv : Code := code 0x74 0x76

/-- The first three bytes of a line as a 24-bit number, byte 0 in bits 23 to 16 (R83). -/
def wirePrefix (l1 l2 eq : Byte) : BitVec 24 := l1 ++ l2 ++ eq

/-- The instruction of a 24-bit prefix and a value (R83); `none` for the 670 unknown codes (R90 b). -/
def instrOfPrefix (p : BitVec 24) (v : F64) : Option Instr :=
  if p = 0x656E3D#24 then some (.en v)
  else if p = 0x6D763D#24 then some (.mv v)
  else if p = 0x6D613D#24 then some (.ma v)
  else if p = 0x73723D#24 then some (.sr v)
  else if p = 0x74703D#24 then some (.tp v)
  else if p = 0x74763D#24 then some (.tv v)
  else none

/-- The instruction a parsed command stands for (R169): its code compared with the six of R83. -/
def instrOfCommand (c : Command) : Option Instr := instrOfPrefix (wirePrefix c.code.l1 c.code.l2 chEq) c.value

/-- The command a WIRE instruction stands for. -/
def commandOf : Instr → Option Command
  | .en v => some ⟨codeEn, v⟩
  | .mv v => some ⟨codeMv, v⟩
  | .ma v => some ⟨codeMa, v⟩
  | .sr v => some ⟨codeSr, v⟩
  | .tp v => some ⟨codeTp, v⟩
  | .tv v => some ⟨codeTv, v⟩
  | _ => none

/-! ## The decoders -/

/-- The number field and the terminator: the value of the kept characters and the bytes after the line (R81, R84, R91). -/
def decodeNumber (b : List Byte) : Except Reject (F64 × List Byte) :=
  match b.dropWhile isNumChar with
  | [] => .error .noTerminator
  | t :: rest =>
    if isTerm t then .ok (literal ((b.takeWhile isNumChar).take Config.numbufCap), rest)
    else .error .unexpectedByte

/-- A whole WIRE line at the front of the bytes: the command and the bytes after its terminator (R81, R91). -/
def decodeLine (b : List Byte) : Except Reject (Command × List Byte) :=
  match b with
  | l1 :: l2 :: eq :: rest =>
    if isLetter l1 && isLetter l2 then
      if eq == chEq then
        match decodeNumber rest with
        | .ok (v, rest') => .ok (⟨⟨l1, l2⟩, v⟩, rest')
        | .error e => .error e
      else .error .missingEquals
    else .error .notALetter
  | _ => .error .noTerminator

/-- Format WIRE: a line whose code is one of the six (R83). -/
def decodeWire (b : List Byte) : Except Reject (Instr × List Byte) :=
  match decodeLine b with
  | .error e => .error e
  | .ok (c, rest) =>
    match instrOfCommand c with
    | some i => .ok (i, rest)
    | none => .error .unknownCode

/-- Format HOSTOP (R86): `NOW`, `RDT` and `RDS` ignore `arg`. -/
def decodeHost (w : BitVec 68) : Except Reject Instr :=
  let op := w.extractLsb' 0 4
  if op = 0x1#4 then .ok .now
  else if op = 0x2#4 then .ok (.blockUntil (w.extractLsb' 4 64))
  else if op = 0x3#4 then .ok .rdt
  else if op = 0x4#4 then .ok .rds
  else .error .reservedCode

/-- Format DRIVE (R88). -/
def decodeDrive (d : BitVec 3) : Except Reject Instr :=
  if d = 0b001#3 then .ok .enable
  else if d = 0b010#3 then .ok .disable
  else if d = 0b100#3 then .ok .stepFwd
  else if d = 0b101#3 then .ok .stepRev
  else .error .reservedCode

/-- Format EVENT (R89); only BYTE uses the operand. -/
def decodeEvent (ev : BitVec 4) (c : Byte) : Except Reject Instr :=
  if ev = 0x0#4 then .ok .cnt
  else if ev = 0x1#4 then .ok .tick
  else if ev = 0x2#4 then .ok (.byte c)
  else if ev = 0x3#4 then .ok .sched
  else if ev = 0x4#4 then .ok .poll
  else if ev = 0x5#4 then .ok .edge
  else if ev = 0x6#4 then .ok .eval
  else if ev = 0x7#4 then .ok .step
  else .error .reservedCode

/-- The decoder over all four formats: one operation, and in format WIRE nothing after its terminator. -/
def decode : Encoded → Except Reject Instr
  | .wire line =>
    match decodeWire line with
    | .error e => .error e
    | .ok (i, []) => .ok i
    | .ok (_, _ :: _) => .error .unexpectedByte
  | .host w => decodeHost w
  | .drive d => decodeDrive d
  | .event ev c => decodeEvent ev c

/-! ## The encoder -/

/-- The line of a command: its letters, `=`, a literal of its value and a line feed (R81). -/
def encodeCommand (c : Command) : List Byte :=
  c.code.l1 :: c.code.l2 :: chEq :: ((literalFor c.value).getD [] ++ [chLF])

/-- A request word `{arg, op}` (R86). -/
def hostWord (arg : Word) (op : BitVec 4) : BitVec 68 := arg ++ op

/-- The encoding of an instruction (R81, R86, R88, R89); `arg` is 0 where the operation ignores it, and so is the byte
beside an event other than BYTE. -/
def encode : Instr → Encoded
  | .en v => .wire (encodeCommand ⟨codeEn, v⟩)
  | .mv v => .wire (encodeCommand ⟨codeMv, v⟩)
  | .ma v => .wire (encodeCommand ⟨codeMa, v⟩)
  | .sr v => .wire (encodeCommand ⟨codeSr, v⟩)
  | .tp v => .wire (encodeCommand ⟨codeTp, v⟩)
  | .tv v => .wire (encodeCommand ⟨codeTv, v⟩)
  | .now => .host (hostWord 0#64 0x1#4)
  | .blockUntil d => .host (hostWord d 0x2#4)
  | .rdt => .host (hostWord 0#64 0x3#4)
  | .rds => .host (hostWord 0#64 0x4#4)
  | .enable => .drive 0b001#3
  | .disable => .drive 0b010#3
  | .stepFwd => .drive 0b100#3
  | .stepRev => .drive 0b101#3
  | .cnt => .event 0x0#4 0#8
  | .tick => .event 0x1#4 0#8
  | .byte c => .event 0x2#4 c
  | .sched => .event 0x3#4 0#8
  | .poll => .event 0x4#4 0#8
  | .edge => .event 0x5#4 0#8
  | .eval => .event 0x6#4 0#8
  | .step => .event 0x7#4 0#8

/-! ## Words as the opcode table numbers them -/

/-- A word of the opcode table with the format its length points to. The table's 24-bit rows are WIRE prefixes, byte 0 in
bits 23 to 16 (R83), completed to the shortest line, an empty number and a line feed (R91). 3 bits is DRIVE, 68 or
72 bits HOSTOP. The 4-bit codes of HOSTOP, the 3-bit codes of DRIVE and the 4-bit codes of EVENT overlap, and all three
come to one byte: a one-byte word is read as EVENT (DESIGN CHOICE, log 15). -/
def tableEncoded (nbits w : Nat) : Option Encoded :=
  if nbits = 24 then
    some (.wire [BitVec.ofNat 8 (w >>> 16), BitVec.ofNat 8 (w >>> 8), BitVec.ofNat 8 w, chLF])
  else if nbits = 3 then some (.drive (BitVec.ofNat 3 w))
  else if nbits = 4 ∨ nbits = 8 then (if w < 16 then some (.event (BitVec.ofNat 4 w) 0#8) else none)
  else if nbits = 68 ∨ nbits = 72 then some (.host (BitVec.ofNat 68 w))
  else none

/-- What the decoder reads from a word of the opcode table. -/
def decodeTableWord (nbits w : Nat) : Option Instr :=
  match tableEncoded nbits w with
  | none => none
  | some e =>
    match decode e with
    | .ok i => some i
    | .error _ => none

end Sys2Proof
end

