-- ==== Sys2Proof/Machine/State.lean ====
section
/-! DEFINITION. State.lean: the state of the block as plain data (R20 to R41, R65), the reset state (R41, R230), and
the reasons a step can stop (R202). Registers of OPEN width are `Nat` and `Int` with the width in `cfg` (DESIGN
CHOICE, log 5); registers of fixed width are bit vectors. -/

namespace Sys2Proof.Machine

/-- The fault of the model. The hardware raises none (R200). -/
inductive Fault where
  /-- Raised by a meaning, and so by `step`, where the spec does not enable the operation in the state it meets: CNT or
  TICK at the wrong phase of the sub-counter (R100, R101), a loop event at another PHASE or with the reader busy (R130
  to R134), a drive command that EDGE or STEP does not emit there (R135 to R138), a host operation the port does not
  accept (R86, D7, D37). It is no transition of the block (log 7). Safe: the model stops where the block has no such
  step. -/
  | notEnabled
  deriving DecidableEq, Repr

/-- The refusals of R202, where the spec gives the situation no meaning, and `notModelled`. -/
inductive Refusal where
  /-- No meaning yet; raised by no arm of this model. Safe. -/
  | notModelled (mnemonic : String)
  /-- TICK at `TICKS = TICKS_MAX` (R21, R101). Safe. -/
  | tickOverflow
  /-- RSTATE holds 5, 6 or 7 (R26): raised by every step of such a state. Safe. -/
  | badRstate
  /-- PHASE holds 5, 6 or 7 (R31): raised by every step of such a state. Safe. -/
  | badPhase
  /-- `memRead` of anything but a whole register at its own offset (R61). Safe. -/
  | badRegisterAccess
  /-- `memWrite` of anything (R61). Safe. -/
  | registerWrite
  /-- A reserved code in a request or a trace (R90): raised by `step` when a turn's word does not decode. Safe. -/
  | reservedCode
  /-- NOW or BLOCK_UNTIL requested from a context that holds off the tick (R113, R236): raised by `step`. Safe. -/
  | readerBlocksTick
  /-- STEP would take ACTUAL_STEPS out of its admitted range (R29, R134). Safe. -/
  | stepOverflow
  /-- `target_steps` is no number or does not fit `STEP_W` bits (R133, D20): raised by EVAL. Safe. -/
  | targetOutOfRange
  /-- A second byte producer (R164): raised by `step`. Safe. -/
  | secondProducer
  /-- Evaluation with a limit that is zero, negative or NaN (R171, R172, D28): raised by EVAL, `tp`, `tv`. Safe. -/
  | badLimit
  /-- `sr` with a truncated value outside `SPR_W` bits (R173, D32). Safe. -/
  | srOutOfRange
  deriving DecidableEq, Repr

/-- The parser's states (R34). `Reset` and `ExpectLetter1` both await the first letter (C5). -/
inductive PState where
  | reset
  | expectLetter1
  | expectLetter2
  | expectEquals
  | expectValueOrEnd
  deriving DecidableEq, Repr

/-- ParserState (R34). NUMBUF holds the kept characters and nothing more, so NUMLEN is its length (log 21). -/
structure Parser where
  pstate : PState
  l1 : Byte
  l2 : Byte
  numbuf : List Byte
  deriving DecidableEq, Repr

/-- NUMLEN (R34). -/
def Parser.numlen (p : Parser) : Nat := p.numbuf.length

/-- The ready slot (R35): READY, and RDY_CODE with RDY_VALUE. -/
structure ReadySlot where
  ready : Bool
  cmd : Command
  deriving DecidableEq, Repr

/-- MotionState (R37); `t0`, `p0`, `v0` are the segment-start time, position and velocity. -/
structure Motion where
  mode : Mode
  t0 : Word
  p0 : F64
  v0 : F64
  targetPosition : F64
  targetVelocity : F64
  maxVelocity : F64
  maxAcceleration : F64
  stepsPerRev : Int
  enabled : Bool
  stopNeeded : Bool
  deriving DecidableEq, Repr

/-- The call the loop sequencer is inside (model's own field, log 8). SCHED, EVAL, `tp` and `tv` contain a whole NOW
"issued by the loop sequencer and waited for" (R113, R130, R133, R178), and POLL handles the command that `poll()`
returned (R131). -/
inductive LoopCall where
  /-- In no call: the event of the current PHASE is next. -/
  | idle
  /-- SCHED waits for its NOW (R130). -/
  | schedNow
  /-- POLL's `poll()` returned this command; `handle` is next (R131, R169). -/
  | handle (c : Command)
  /-- `handle` of this `tp` or `tv` waits for its NOW (R178). -/
  | handleNow (c : Command)
  /-- EVAL waits for its NOW (R133). -/
  | evalNow
  deriving DecidableEq, Repr

/-- One entry of the schedule (model's own, log 6): whose step comes next, R40's "order in which events CNT, TICK, BYTE
and the steps of the reader and the loop interleave", with what the outside supplies. -/
inductive Turn where
  /-- The main context takes its next step: the reader's if an operation is in progress, else the loop's (R70). -/
  | main
  /-- The event of an EVENT trace word, with the byte that BYTE carries (R89). -/
  | event (ev : BitVec 4) (c : Byte)
  /-- A request at the host port (R86); `holdsTick` says that the caller's context holds off the tick (R113, R236). -/
  | host (holdsTick : Bool) (w : BitVec 68)
  /-- A BLOCK_UNTIL of the stepping collaborator, inside a drive call (R188; log 10). -/
  | collaborator (deadline : Word)
  /-- A DRIVE code met in a trace (R88, R90; log 11). -/
  | drive (drv : BitVec 3)
  /-- A byte from a second producer (R164). -/
  | otherProducer (c : Byte)
  deriving DecidableEq, Repr

/-- The state of the block. -/
structure State where
  /-- The parameters of R8, which no step changes (log 1). -/
  cfg : Config
  /-- TICKS (R21). -/
  ticks : Nat
  /-- SUB (R22). -/
  sub : Nat
  /-- T1 (R23). -/
  t1 : Nat
  /-- S (R23). -/
  sLatch : Nat
  /-- T2 (R23). -/
  t2 : Nat
  /-- NOWVAL (R24). -/
  nowval : Word
  /-- DEADLINE (R25). -/
  deadline : Word
  /-- RCTL: RSTATE in bits 2 to 0, RWAIT in bit 3 (R26). -/
  rctl : BitVec 4
  /-- NEXT_RUN (R28). -/
  nextRun : Word
  /-- ACTUAL_STEPS (R29). -/
  actualSteps : Int
  /-- TARGET (R30). -/
  target : Int
  /-- TSAMPLE (R30). -/
  tsample : Word
  /-- SCTL: PHASE in bits 2 to 0, EN_PREV in bit 3 (R31). -/
  sctl : BitVec 4
  /-- ParserState (R34). -/
  parser : Parser
  /-- The ready slot (R35). -/
  slot : ReadySlot
  /-- DPREV (R36). -/
  dprev : Option Command
  /-- DCUR (R36). -/
  dcur : Option Command
  /-- MotionState (R37). -/
  motion : Motion
  /-- The drive stream, oldest first (R65). -/
  drives : List Drive
  /-- The call the loop sequencer is inside (model's own, log 8). -/
  call : LoopCall
  /-- The stepping collaborator's last call may still be running (R65, R188; model's own, log 10). -/
  driveCall : Bool
  /-- The host port's completions, oldest first, with the response of those that return a value (R86; log 12). -/
  responses : List (Option Word)
  /-- The turns still to come (model's own, log 6). -/
  schedule : List Turn
  deriving DecidableEq, Repr

/-- MotionState after reset: the compiled-in defaults, a segment at time 0, position 0.0, at rest (R37, R41, D18). -/
def Motion.resetOf (c : Config) : Motion where
  mode := c.defMode
  t0 := 0#64
  p0 := 0#64
  v0 := 0#64
  targetPosition := if c.defMode = .position then c.defTarget else 0#64
  targetVelocity := if c.defMode = .velocity then c.defTarget else 0#64
  maxVelocity := c.defMaxVelocity
  maxAcceleration := c.defMaxAcceleration
  stepsPerRev := c.defStepsPerRev
  enabled := c.defEnabled
  stopNeeded := false

/-- The state after reset for any parameters (R41, R230). T1, S, T2, NOWVAL, DEADLINE, TARGET, TSAMPLE, L1, L2, RDY_CODE
and RDY_VALUE are unspecified there and are 0 here (DESIGN CHOICE, log 3, unsafe). -/
def State.resetOf (c : Config) : State where
  cfg := c
  ticks := 0
  sub := if c.subDir = .up then 0 else c.subMod - 1
  t1 := 0
  sLatch := 0
  t2 := 0
  nowval := 0#64
  deadline := 0#64
  rctl := 0#4
  nextRun := 0#64
  actualSteps := 0
  target := 0
  tsample := 0#64
  sctl := 0#4
  parser := ⟨.reset, 0#8, 0#8, []⟩
  slot := ⟨false, ⟨⟨0#8, 0#8⟩, 0#64⟩⟩
  dprev := none
  dcur := none
  motion := Motion.resetOf c
  drives := []
  call := .idle
  driveCall := false
  responses := []
  schedule := []

/-- The state after reset with the parameters of `Config.default` (R41, R230; log 2). -/
def State.reset : State := State.resetOf Config.default

end Sys2Proof.Machine
end

