-- ==== Sys2Proof/Machine/Flags.lean ====
section
/-! DEFINITION. Flags.lean: the control fields and the flags (R26, R31, R33): RSTATE and RWAIT in RCTL, PHASE and EN_PREV
in SCTL, and who sets and clears each. READY, `enabled` and `stop_needed` are fields of their records: READY is set by
`publish` and cleared by `claim`, `enabled` is written by `en`, `stop_needed` by `tp`, `tv` and the forced stop. -/

namespace Sys2Proof.Machine

/-- The reader's control states (R26). -/
inductive RState where
  | idle
  | t1
  | s
  | t2
  | cmp
  deriving DecidableEq, Repr

/-- The loop's phases (R31). -/
inductive Phase where
  | wait
  | poll
  | edge
  | eval
  | step
  deriving DecidableEq, Repr

/-- Bits 2 to 0 of a control register (R26, R31). -/
def ctlField (c : BitVec 4) : BitVec 3 := c.extractLsb' 0 3

/-- Bit 3 of a control register (R26, R31). -/
def ctlFlag (c : BitVec 4) : Bool := c.getLsbD 3

/-- A control register from its flag and its field. -/
def ctl (flag : Bool) (field : BitVec 3) : BitVec 4 := BitVec.ofBool flag ++ field

/-- The code of a reader state (R26). -/
def RState.code : RState → BitVec 3
  | .idle => 0#3
  | .t1 => 1#3
  | .s => 2#3
  | .t2 => 3#3
  | .cmp => 4#3

/-- The reader state of a code; 5 to 7 have none (R26). -/
def rstateOf (b : BitVec 3) : Option RState :=
  if b = 0#3 then some .idle
  else if b = 1#3 then some .t1
  else if b = 2#3 then some .s
  else if b = 3#3 then some .t2
  else if b = 4#3 then some .cmp
  else none

/-- The code of a phase (R31). -/
def Phase.code : Phase → BitVec 3
  | .wait => 0#3
  | .poll => 1#3
  | .edge => 2#3
  | .eval => 3#3
  | .step => 4#3

/-- The phase of a code; 5 to 7 have none (R31). -/
def phaseOf (b : BitVec 3) : Option Phase :=
  if b = 0#3 then some .wait
  else if b = 1#3 then some .poll
  else if b = 2#3 then some .edge
  else if b = 3#3 then some .eval
  else if b = 4#3 then some .step
  else none

/-- RSTATE (R26). -/
def rstate (s : State) : Option RState := rstateOf (ctlField s.rctl)

/-- RWAIT (R26, R33). -/
def rwait (s : State) : Bool := ctlFlag s.rctl

/-- PHASE (R31). -/
def phase (s : State) : Option Phase := phaseOf (ctlField s.sctl)

/-- EN_PREV (R31, R33). -/
def enPrev (s : State) : Bool := ctlFlag s.sctl

/-- `pc <- r` in unit CLK (R10): writes RSTATE and keeps RWAIT. -/
def setRState (r : RState) (s : State) : State := { s with rctl := ctl (rwait s) r.code }

/-- Writes RSTATE and RWAIT together. -/
def setRCtl (w : Bool) (r : RState) (s : State) : State := { s with rctl := ctl w r.code }

/-- `pc <- p` in unit SEQ (R10): writes PHASE and keeps EN_PREV. -/
def setPhase (p : Phase) (s : State) : State := { s with sctl := ctl (enPrev s) p.code }

/-- Writes PHASE and EN_PREV together. -/
def setSCtl (e : Bool) (p : Phase) (s : State) : State := { s with sctl := ctl e p.code }

/-- `get_enabled()`: `enabled`, unchanged (R186). -/
def getEnabled (m : Motion) : Bool := m.enabled

end Sys2Proof.Machine
end

