-- ==== Sys2Proof/Machine/Operands.lean ====
section
/-! DEFINITION. Operands.lean: how an operation uses its operand (R85): the truth value of `en`, the truncated integer of
`sr` within `SPR_W` bits (R173, D32), and the signed range tests of R29 and R133. The value of a WIRE operand comes from
`literal` (Machine/Literal.lean, R84); the operand of BLOCK_UNTIL is used as it is. -/

namespace Sys2Proof.Machine

/-- The truth value `V /= 0`: false for `+0.0` and `-0.0` only (R85, R170). -/
def truthValue (v : F64) : Bool := !F64.isZero v

/-- `n` fits `w` bits, two's complement. -/
def fitsSigned (w : Nat) (n : Int) : Bool := decide (-(2 ^ (w - 1) : Int) ≤ n ∧ n ≤ 2 ^ (w - 1) - 1)

/-- `trunc(V)` when it fits `SPR_W` bits (R85, R173). -/
def sprOperand (c : Config) (v : F64) : Except Refusal Int :=
  match F64.trunc v with
  | none => .error .srOutOfRange
  | some n => if fitsSigned c.sprW n then .ok n else .error .srOutOfRange

/-- The admitted range of ACTUAL_STEPS: `-(2^(STEP_W-1)) + 1 .. 2^(STEP_W-1) - 2` (R29). -/
def stepsAdmitted (c : Config) (n : Int) : Bool :=
  decide (-(2 ^ (c.stepW - 1) : Int) + 1 ≤ n ∧ n ≤ 2 ^ (c.stepW - 1) - 2)

end Sys2Proof.Machine
end

