-- ==== Sys2Proof/Machine/Planner.lean ====
section
/-! DEFINITION. Planner.lean: the Motion Planner's evaluation (R177, R179 to R185), over any arithmetic `A` (R183, D24).
Each formula is evaluated as the rules write it, left to right, `½·x` as `0.5 * x` and `x·t²` as `x * t * t` (R183; the
square is DEDUCED from vector S1, log 13). -/

namespace Sys2Proof.Machine

/-- `sign(r)` (R9, D31): 1.0, -1.0, and 0.0 for zero; free for a NaN (log 13). -/
def signOf (A : Arith) (r : F64) : F64 :=
  if A.lt F64.zero r then F64.one else if A.lt r F64.zero then F64.negOne
  else if F64.isNaN r then Config.signOfNaN r else F64.zero

/-- A limit that can be divided by: greater than zero, so neither NaN, nor zero, nor negative (R180, R181, D28). -/
def limitOk (A : Arith) (r : F64) : Bool := A.lt F64.zero r

/-- `½·a·t²` (R180 to R182). -/
def halfAtt (A : Arith) (a t : F64) : F64 := A.mul (A.mul (A.mul F64.half a) t) t

/-- The elapsed time in seconds: `(now - t0) / 1000000` (R179, D21), the subtraction in unsigned integers, the difference
converted to binary64 and divided (DEDUCED, log 14). -/
def elapsed (A : Arith) (t0 now : Word) : F64 := A.div (A.ofInt ((now - t0).toNat : Int)) F64.million

/-- What one branch yields: position in degrees, velocity in degrees per second (R179), and whether the velocity branch
has reached its cruise phase. -/
structure Sample where
  pos : F64
  vel : F64
  cruise : Bool
  deriving DecidableEq, Repr

/-- The velocity branch (R180) toward `vt`, `t` seconds after the segment's start. -/
def velocityBranch (A : Arith) (m : Motion) (vt t : F64) : Sample :=
  let a := A.mul m.maxAcceleration (signOf A (A.sub vt m.v0))
  let tc := A.div (F64.abs (A.sub vt m.v0)) m.maxAcceleration
  if A.lt t tc then
    { pos := A.add (A.add m.p0 (A.mul m.v0 t)) (halfAtt A a t)
      vel := A.add m.v0 (A.mul a t)
      cruise := false }
  else
    { pos := A.add (A.add (A.add m.p0 (A.mul m.v0 tc)) (halfAtt A a tc)) (A.mul vt (A.sub t tc))
      vel := vt
      cruise := true }

/-- The profile of the Position branch (R181): signed acceleration, `t01`, `p01`, `p12`, `t12`. -/
structure Profile where
  a : F64
  t01 : F64
  p01 : F64
  p12 : F64
  t12 : F64
  deriving DecidableEq, Repr

/-- The trapezoidal profile, or the triangular one when the accelerating distance is more than half the move (R181). -/
def positionProfile (A : Arith) (m : Motion) : Profile :=
  let d := A.sub m.targetPosition m.p0
  let a := A.mul (signOf A d) m.maxAcceleration
  let t01 := A.div m.maxVelocity m.maxAcceleration
  let p01 := halfAtt A a t01
  if A.lt (A.mul F64.half (F64.abs d)) (F64.abs p01) then
    let q01 := A.mul F64.half d
    { a := a
      t01 := A.sqrt (A.div (A.mul F64.two (F64.abs q01)) m.maxAcceleration)
      p01 := q01
      p12 := F64.zero
      t12 := F64.zero }
  else
    let p12 := A.sub d (A.mul F64.two p01)
    { a := a
      t01 := t01
      p01 := p01
      p12 := p12
      t12 := A.div (F64.abs p12) m.maxVelocity }

/-- The phases of the Position branch (R182), `t` seconds after the segment's start; settled is `target_position` exactly,
velocity 0. -/
def positionBranch (A : Arith) (m : Motion) (t : F64) : Sample :=
  let f := positionProfile A m
  let v1 := A.mul f.a f.t01
  if A.lt t f.t01 then
    { pos := A.add m.p0 (halfAtt A f.a t), vel := A.mul f.a t, cruise := false }
  else if A.lt t (A.add f.t01 f.t12) then
    { pos := A.add (A.add m.p0 f.p01) (A.mul v1 (A.sub t f.t01)), vel := v1, cruise := false }
  else if A.lt t (A.add (A.mul F64.two f.t01) f.t12) then
    let td := A.sub (A.sub t f.t01) f.t12
    { pos := A.sub (A.add (A.add (A.add m.p0 f.p01) f.p12) (A.mul v1 td)) (halfAtt A f.a td)
      vel := A.sub v1 (A.mul f.a td)
      cruise := false }
  else { pos := m.targetPosition, vel := F64.zero, cruise := false }

/-- What `evaluate` gives: the pair (position, velocity), and MotionState after it. -/
structure Evaluation where
  pos : F64
  vel : F64
  motion : Motion
  deriving DecidableEq, Repr

/-- MotionState after the forced stop has completed at `now`, at position `pos` (R177). -/
def completeStop (m : Motion) (now : Word) (pos : F64) : Motion :=
  { m with stopNeeded := false, t0 := now, p0 := pos, v0 := F64.zero }

/-- `evaluate(now)` (R179): the velocity branch when `stop_needed` or `mode = Velocity` (R180), with target 0 while
`stop_needed` and the forced-stop completion of R177; otherwise the Position branch (R181, R182). A limit that is not
positive is `refuse(bad_limit)` (R171, R172, D28). -/
def evaluate (A : Arith) (m : Motion) (now : Word) : Except Refusal Evaluation :=
  if m.stopNeeded || decide (m.mode = .velocity) then
    if limitOk A m.maxAcceleration then
      let r := velocityBranch A m (if m.stopNeeded then F64.zero else m.targetVelocity) (elapsed A m.t0 now)
      .ok { pos := r.pos
            vel := r.vel
            motion := if m.stopNeeded && r.cruise then completeStop m now r.pos else m }
    else .error .badLimit
  else if limitOk A m.maxAcceleration && limitOk A m.maxVelocity then
    let r := positionBranch A m (elapsed A m.t0 now)
    .ok { pos := r.pos, vel := r.vel, motion := m }
  else .error .badLimit

/-- `trunc(pos / 360 * steps_per_revolution)` (R184); `none` for NaN and the infinities. -/
def degreesToSteps (A : Arith) (pos : F64) (spr : Int) : Option Int :=
  A.trunc (A.mul (A.div pos F64.c360) (A.ofInt spr))

/-- `target_steps(now)` (R184): the step target, and MotionState after the evaluation. A result that is no number or does
not fit `STEP_W` bits is `refuse(target_out_of_range)` (R133, D20). -/
def targetSteps (A : Arith) (c : Config) (m : Motion) (now : Word) : Except Refusal (Int × Motion) :=
  match evaluate A m now with
  | .error r => .error r
  | .ok e =>
    match degreesToSteps A e.pos m.stepsPerRev with
    | none => .error .targetOutOfRange
    | some n => if fitsSigned c.stepW n then .ok (n, e.motion) else .error .targetOutOfRange

end Sys2Proof.Machine
end

