-- ==== Sys2Proof/Machine/Ops.lean ====
section
/-! DEFINITION. Ops.lean: the named operations the meanings share: the time function, the reader's steps, the host port,
the loop's calls, the ready slot and the deduplicator, the drive stream, the register space.
There is no exception to take and none to return from: the block raises none (R200, R207, R216), and the two interrupts'
whole effect is the events TICK and BYTE (R204, R205). -/

namespace Sys2Proof.Machine

/-- The outcome of a step of this machine. -/
abbrev Result := Host.Outcome State Fault Refusal

/-- An outcome with its next state changed. -/
def mapNext (f : State → State) : Result → Result
  | .next t => .next (f t)
  | .fault x => .fault x
  | .refused r => .refused r

/-! ## The clock (R21, R22, R104) -/

/-- `TICKS_MAX` (R8, D2). -/
def ticksMax (c : Config) : Nat := min (2 ^ c.tickW - 1) 18446744073709550

/-- `phase(SUB)`, the position inside the current tick (R22). -/
def subPhase (c : Config) (sub : Nat) : Nat :=
  match c.subDir with
  | .up => sub
  | .down => c.subMod - 1 - sub

/-- The value of SUB at a phase. -/
def subAt (c : Config) (ph : Nat) : Nat :=
  match c.subDir with
  | .up => ph
  | .down => c.subMod - 1 - ph

/-- SUB one count on (R100). -/
def subCount (c : Config) (sub : Nat) : Nat :=
  match c.subDir with
  | .up => sub + 1
  | .down => sub - 1

/-- `sub_us(SUB)` (R104). -/
def subUs (c : Config) (sub : Nat) : Nat := subPhase c sub * 1000 / c.subMod

/-- `us(TICKS, SUB)` (R104). -/
def us (c : Config) (ticks sub : Nat) : Nat := ticks * Config.usPerTick + subUs c sub

/-- The clock time of a state (R104). -/
def clockUs (s : State) : Nat := us s.cfg s.ticks s.sub

/-- What a completing attempt returns: `T1 * 1000 + sub_us(S)` in 64 bits (R105, R115, D4). -/
def nowSample (s : State) : Word := BitVec.ofNat 64 (us s.cfg s.t1 s.sLatch)

/-! ## The host port (R86, D7, D37) -/

/-- `RSTATE = R_IDLE`. -/
def readerIdle (s : State) : Bool := decide (rstate s = some .idle)

/-- A host operation can be accepted: the reader is idle and the main context free, that is, the loop is between
iterations, in no call, and no drive call runs (R86, R130 e, R139, D7, D37). -/
def hostPortOpen (s : State) : Bool :=
  readerIdle s && decide (s.call = .idle) && decide (phase s = some .wait) && !s.driveCall

/-- The stepping collaborator can use the reader: it is inside a drive call, at any PHASE, and the reader is idle (R188,
R208, log 10). -/
def driveCallOpen (s : State) : Bool :=
  readerIdle s && decide (s.call = .idle) && s.driveCall

/-- The stepping collaborator's call has returned (R65, R188). -/
def endDriveCall (s : State) : State := { s with driveCall := false }

/-- Issues an operation of the reader if its caller may issue it now. -/
def acceptWhen (allowed : Bool) (s : State) (k : State → Result) : Result :=
  match rstate s, phase s with
  | none, _ => .refused .badRstate
  | some _, none => .refused .badPhase
  | some _, some _ => if allowed then k s else .fault .notEnabled

/-- Runs a host operation if the port accepts it (R86). -/
def acceptHost (s : State) (k : State → Result) : Result := acceptWhen (hostPortOpen s) s k

/-- A completion at the host port, with its response (R86). -/
def respond (r : Option Word) (s : State) : State := { s with responses := s.responses ++ [r] }

/-! ## The reader (R105, R106) -/

/-- The reader's operation was requested at the host port, and not by the loop or the stepping collaborator (R113, R188). -/
def hostOwnsReader (s : State) : Bool := decide (s.call = .idle) && !s.driveCall

/-- The end of an attempt that met no tick: NOWVAL is written; a BLOCK_UNTIL short of its deadline starts over, anything
else completes with the reader idle (R105, R106). DEADLINE, unspecified once RWAIT is 0 (R25), keeps its value (DESIGN
CHOICE, log 27). -/
def finishAttempt (s : State) : State :=
  let s1 := { s with nowval := nowSample s }
  if rwait s then
    if s.deadline ≤ s1.nowval then
      let s2 := setRCtl false .idle s1
      if hostOwnsReader s then respond none s2 else s2
    else setRState .t1 s1
  else
    let s2 := setRState .idle s1
    if hostOwnsReader s then respond (some s1.nowval) s2 else s2

/-- One atomic step of the attempt in progress: `T1 <- TICKS`, `S <- SUB`, `T2 <- TICKS`, and the comparison, which retries
the whole sequence when the two tick counts differ (R72, R105, R106). -/
def readerStep (r : RState) (s : State) : State :=
  match r with
  | .idle => s
  | .t1 => setRState .s { s with t1 := s.ticks }
  | .s => setRState .t2 { s with sLatch := s.sub }
  | .t2 => setRState .cmp { s with t2 := s.ticks }
  | .cmp => if s.t1 = s.t2 then finishAttempt s else setRState .t1 s

/-! ## Calls of the loop sequencer (R113) -/

/-- The loop waits for a NOW it issued. -/
def LoopCall.awaitsNow : LoopCall → Bool
  | .idle => false
  | .schedNow => true
  | .handle _ => false
  | .handleNow _ => true
  | .evalNow => true

/-- The loop sequencer issues NOW and waits for it as `c` (R105 issue, R113). -/
def issueNow (c : LoopCall) (s : State) : State :=
  setRState .t1 { s with call := c, driveCall := false }

/-- An operation of the loop that contains a NOW: issues it as `c`, and with it complete goes on with `k`, the call ended
(R113, R178). -/
def withNow (c : LoopCall) (k : State → Result) (s : State) : Result :=
  match rstate s with
  | none => .refused .badRstate
  | some _ =>
    if readerIdle s then
      if s.call = c then k { s with call := .idle }
      else if s.call.awaitsNow then .fault .notEnabled
      else .next (issueNow c s)
    else .fault .notEnabled

/-- An event of the loop sequencer: taken at its own PHASE (R130 to R134, R139). -/
def atPhase (p : Phase) (s : State) (k : State → Result) : Result :=
  match phase s with
  | none => .refused .badPhase
  | some q => if q = p then k s else .fault .notEnabled

/-- An event of the loop sequencer that contains no NOW: taken with the reader idle and the loop in no call. -/
def betweenCalls (s : State) (k : State → Result) : Result :=
  match rstate s with
  | none => .refused .badRstate
  | some _ => if readerIdle s && decide (s.call = .idle) then k s else .fault .notEnabled

/-! ## The ready slot and the deduplicator (R73, R165) -/

/-- CLAIM, one atomic step: the command of the slot and the slot with READY cleared; nothing when READY is 0 (R73).
RDY_CODE and RDY_VALUE, unspecified while READY is 0 (R35), keep the claimed command (DESIGN CHOICE, log 27). -/
def claim (r : ReadySlot) : Option Command × ReadySlot :=
  if r.ready then (some r.cmd, { r with ready := false }) else (none, r)

/-- The deduplicator's comparison: both present, the same letters and the same 64 bits (R36, R165). -/
def verified (prev cur : Option Command) : Option Command :=
  match prev, cur with
  | some a, some b => if a.code = b.code ∧ a.value = b.value then some b else none
  | _, _ => none

/-- The state after `poll()`: the slot claimed and, if it held a command, DCUR shifted to DPREV and the command in DCUR
(R165). -/
def afterPoll (s : State) : State :=
  match claim s.slot with
  | (none, _) => s
  | (some c, r) => { s with slot := r, dprev := s.dcur, dcur := some c }

/-- The result of `poll()`: the verified command, if there is one (R165). -/
def pollResult (s : State) : Option Command :=
  match claim s.slot with
  | (none, _) => none
  | (some c, _) => verified s.dcur (some c)

/-- POLL ends: `pc <- P_EDGE` (R131). -/
def endPoll (s : State) : State := setPhase .edge { s with call := .idle }

/-! ## The drive stream (R65) -/

/-- `emit E`: a synchronous call of the stepping collaborator, which appends `E` to the drive stream (R10, R65, D38). The
call may run on, using the reader, until the loop's next step (R188, log 10). -/
def emit (d : Drive) (s : State) : State := { s with drives := s.drives ++ [d], driveCall := true }

/-- What EDGE emits: ENABLE on a rising edge of `enabled`, DISABLE on a falling edge (R132, R135, R136). -/
def edgeCommand (s : State) : Option Drive :=
  let e := getEnabled s.motion
  if e && !enPrev s then some .enable else if !e && enPrev s then some .disable else none

/-- What STEP emits: one step toward TARGET (R134, R137, R138). -/
def stepCommand (s : State) : Option Drive :=
  if s.actualSteps < s.target then some .stepFwd else if s.target < s.actualSteps then some .stepRev else none

/-- The drive command the loop's next step emits (R132, R134). -/
def dueCommand (s : State) : Option Drive :=
  match phase s with
  | some .edge => edgeCommand s
  | some .step => stepCommand s
  | _ => none

/-- A drive command is emitted only where EDGE or STEP emits it (R135 to R138); there is no such emission elsewhere
(log 11). -/
def whenDue (d : Drive) (s : State) (k : State → Result) : Result :=
  match phase s with
  | none => .refused .badPhase
  | some _ => betweenCalls s fun s => if dueCommand s = some d then k s else .fault .notEnabled

/-- The emission of one physical step that takes ACTUAL_STEPS to `n`; outside the admitted range it is
`refuse(step_overflow)` (R29, R134). -/
def emitStep (d : Drive) (n : Int) (s : State) : Result :=
  if stepsAdmitted s.cfg n then .next (emit d s) else .refused .stepOverflow

/-- EDGE ends: `EN_PREV <- e; pc <- P_EVAL` (R132). -/
def endEdge (s : State) : State := setSCtl (getEnabled s.motion) .eval s

/-- STEP ends: ACTUAL_STEPS is `n`, and `pc <- P_WAIT` (R134). TARGET and TSAMPLE, unspecified from here to the next EVAL
(R30), keep their values (DESIGN CHOICE, log 27). -/
def endStep (n : Int) (s : State) : State := setPhase .wait { s with actualSteps := n }

/-! ## The register space (R20, R61) -/

/-- The 14 registers (R20). -/
inductive Reg where
  | ticks
  | sub
  | t1
  | s
  | t2
  | nowval
  | deadline
  | rctl
  | loopPeriod
  | nextRun
  | actualSteps
  | target
  | tsample
  | sctl
  deriving DecidableEq, Repr

/-- The registers in the order of their indices 0 to 13 (R20). -/
def regList : List Reg :=
  [.ticks, .sub, .t1, .s, .t2, .nowval, .deadline, .rctl, .loopPeriod, .nextRun, .actualSteps, .target, .tsample, .sctl]

/-- `x[i]` as 64 bits: zero-extended, the signed ACTUAL_STEPS and TARGET sign-extended (R61). LOOP_PERIOD is a constant (R27). -/
def readReg (s : State) : Reg → Word
  | .ticks => BitVec.ofNat 64 s.ticks
  | .sub => BitVec.ofNat 64 s.sub
  | .t1 => BitVec.ofNat 64 s.t1
  | .s => BitVec.ofNat 64 s.sLatch
  | .t2 => BitVec.ofNat 64 s.t2
  | .nowval => s.nowval
  | .deadline => s.deadline
  | .rctl => s.rctl.setWidth 64
  | .loopPeriod => Config.loopPeriod
  | .nextRun => s.nextRun
  | .actualSteps => BitVec.ofInt 64 s.actualSteps
  | .target => BitVec.ofInt 64 s.target
  | .tsample => s.tsample
  | .sctl => s.sctl.setWidth 64

/-- `MemRead(addr, n)`: a whole register at its own offset, 8 times its index; anything else is
`refuse(bad_register_access)` (R61, R66). A notation for rules and proofs, not a port (R61, log 19). -/
def memRead (s : State) (addr n : Nat) : Except Refusal Word :=
  if n = 8 ∧ addr % 8 = 0 then
    match regList[addr / 8]? with
    | some r => .ok (readReg s r)
    | none => .error .badRegisterAccess
  else .error .badRegisterAccess

/-- `MemWrite(addr, n, v)`: never admitted (R61). -/
def memWrite (_s : State) (_addr _n : Nat) (_v : Word) : Except Refusal State := .error .registerWrite

end Sys2Proof.Machine
end

