-- ==== Sys2Proof/Machine/ByteEvent.lean ====
section
/-! DEFINITION. ByteEvent.lean: the Command Parser and the event BYTE (R160 to R163). -/

namespace Sys2Proof.Machine

/-- `first` of R160: a lowercase letter becomes letter 1, any other byte is dropped. -/
def parseFirst (c : Byte) (p : Parser) : Parser :=
  if isLetter c then { p with l1 := c, pstate := .expectLetter2 } else { p with pstate := .expectLetter1 }

/-- `reset` of R160: the buffer is emptied and the same byte looked at again as a first letter (R162). L1 and L2,
unspecified after a parser reset (R34, D27), keep the old letters until new ones come (DESIGN CHOICE, log 27). -/
def parseReset (c : Byte) (p : Parser) : Parser := parseFirst c { p with numbuf := [], pstate := .reset }

/-- A number character appended, unless 31 are kept already (R160, R161). -/
def keepChar (c : Byte) (p : Parser) : Parser :=
  if p.numlen < Config.numbufCap then { p with numbuf := p.numbuf ++ [c] } else p

/-- The parser after one byte, and the command published, if the byte completes a line (R160, R161). -/
def consumeByte (c : Byte) (p : Parser) : Parser × Option Command :=
  match p.pstate with
  | .reset => (parseFirst c p, none)
  | .expectLetter1 => (parseFirst c p, none)
  | .expectLetter2 =>
    if isLetter c then ({ p with l2 := c, pstate := .expectEquals }, none) else (parseReset c p, none)
  | .expectEquals =>
    if c = chEq then ({ p with pstate := .expectValueOrEnd }, none) else (parseReset c p, none)
  | .expectValueOrEnd =>
    if isNumChar c then (keepChar c p, none)
    else if isTerm c then
      ({ p with numbuf := [], pstate := .reset }, some ⟨⟨p.l1, p.l2⟩, literal p.numbuf⟩)
    else (parseReset c p, none)

/-- The ready slot after `publish`: the new command overwrites whatever is there, and READY is set (R35, R163). -/
def publish (r : ReadySlot) : Option Command → ReadySlot
  | some c => ⟨true, c⟩
  | none => r

/-- `BYTE c` (R160): one atomic step; every byte is accepted. -/
def execByte (c : Byte) (s : State) : Result :=
  let r := consumeByte c s.parser
  .next { s with parser := r.1, slot := publish s.slot r.2 }

end Sys2Proof.Machine
end

