-- ==== Sys2Proof/Machine/Clock.lean ====
section
/-! DEFINITION. Clock.lean: the operations of unit CLK: CNT, TICK, RDT, RDS, NOW, BLOCK_UNTIL (R100 to R106). -/

namespace Sys2Proof.Machine

/-- `CNT` (R100): enabled when `phase(SUB) < SUB_MOD - 1`; SUB moves by one count, up or down. -/
def execCnt (s : State) : Result :=
  if subPhase s.cfg s.sub + 1 < s.cfg.subMod then
    .next { s with sub := subCount s.cfg s.sub }
  else .fault .notEnabled

/-- `TICK` (R101): enabled when `phase(SUB) = SUB_MOD - 1`; the tick count and the wrap of SUB are one atomic step; at
`TICKS_MAX` it is `refuse(tick_overflow)` (R21). -/
def execTick (s : State) : Result :=
  if subPhase s.cfg s.sub + 1 = s.cfg.subMod then
    if s.ticks < ticksMax s.cfg then .next { s with ticks := s.ticks + 1, sub := subAt s.cfg 0 }
    else .refused .tickOverflow
  else .fault .notEnabled

/-- `RDT` (R102): `rsp <- zext_64(TICKS)`, one atomic step, nothing written. -/
def execRdt (s : State) : Result :=
  acceptHost s fun s => .next (respond (some (readReg s .ticks)) s)

/-- `RDS` (R103): `rsp <- zext_64(SUB)`, the raw count, one atomic step, nothing written. -/
def execRds (s : State) : Result :=
  acceptHost s fun s => .next (respond (some (readReg s .sub)) s)

/-- `NOW` (R105), one atomic step of it: the issue when the reader is idle, else the step RSTATE names. Not enabled while
a BLOCK_UNTIL is in progress: there is one reader (D7). -/
def execNow (s : State) : Result :=
  match rstate s with
  | none => .refused .badRstate
  | some .idle => acceptHost s fun s => .next (setRState .t1 s)
  | some r => if rwait s then .fault .notEnabled else .next (readerStep r s)

/-- `BLOCK_UNTIL deadline` (R106), one atomic step of it: the issue, by the host or by the stepping collaborator (R188),
which latches the deadline and sets RWAIT, else the step RSTATE names. Not enabled while another operation is in progress (D7). -/
def execBlockUntil (deadline : Word) (s : State) : Result :=
  match rstate s with
  | none => .refused .badRstate
  | some .idle =>
    acceptWhen (hostPortOpen s || driveCallOpen s) s fun s => .next (setRCtl true .t1 { s with deadline := deadline })
  | some r => if rwait s && decide (s.deadline = deadline) then .next (readerStep r s) else .fault .notEnabled

end Sys2Proof.Machine
end

