-- ==== Sys2Proof/Machine/DriveCommands.lean ====
section
/-! DEFINITION. DriveCommands.lean: the four drive commands (R135 to R138): each is `emit` of itself, a synchronous call
that changes nothing else of the block (D38), where the loop's EDGE or STEP emits it and nowhere else. EDGE and STEP
emit them through the same operations. -/

namespace Sys2Proof.Machine

/-- `ENABLE`, the call `enable()`: emitted only by EDGE on a rising edge of `enabled` (R135). -/
def execEnable (s : State) : Result := whenDue .enable s fun s => .next (emit .enable s)

/-- `DISABLE`, the call `disable()`: emitted only by EDGE on a falling edge of `enabled` (R136). -/
def execDisable (s : State) : Result := whenDue .disable s fun s => .next (emit .disable s)

/-- `STEP_FWD`, the call `step(Forward)`: emitted only by STEP when `TARGET > ACTUAL_STEPS` (R137). -/
def execStepFwd (s : State) : Result := whenDue .stepFwd s fun s => emitStep .stepFwd (s.actualSteps + 1) s

/-- `STEP_REV`, the call `step(Reverse)`: emitted only by STEP when `TARGET < ACTUAL_STEPS` (R138). -/
def execStepRev (s : State) : Result := whenDue .stepRev s fun s => emitStep .stepRev (s.actualSteps - 1) s

end Sys2Proof.Machine
end

