-- ==== Sys2Proof/Machine/Loop.lean ====
section
/-! DEFINITION. Loop.lean: the events of unit SEQ: SCHED, POLL, EDGE, EVAL, STEP (R130 to R134). The loop's steps are
taken with the reader idle; SCHED and EVAL contain a whole NOW, so each is two steps of the loop with the reader's
four between (R10, R113; log 8). -/

namespace Sys2Proof.Machine

/-- SCHED with its NOW complete: due when `NOWVAL >= NEXT_RUN`, and then `NEXT_RUN <- NOWVAL + LOOP_PERIOD` and the
iteration starts; otherwise PHASE stays (R130). -/
def schedTest (s : State) : State :=
  if s.nextRun ≤ s.nowval then setPhase .poll { s with nextRun := s.nowval + Config.loopPeriod } else s

/-- `SCHED` (R130), taken at P_WAIT. -/
def execSched (s : State) : Result :=
  atPhase .wait s (withNow .schedNow fun s => .next (schedTest s))

/-- `POLL` (R131), taken at P_POLL: `poll()`, with its CLAIM, in one step; a verified command is handled next, by the
instruction it stands for, else the phase ends. -/
def execPoll (s : State) : Result :=
  atPhase .poll s fun s => betweenCalls s fun s =>
    let s1 := endDriveCall (afterPoll s)
    match pollResult s with
    | some c => .next { s1 with call := .handle c }
    | none => .next (endPoll s1)

/-- `EDGE` (R132), taken at P_EDGE: `ENABLE` on a rising edge of `enabled`, `DISABLE` on a falling edge, nothing else. -/
def execEdge (s : State) : Result :=
  atPhase .edge s fun s => betweenCalls s fun s =>
    let s1 := endDriveCall s
    match edgeCommand s with
    | some d => .next (endEdge (emit d s1))
    | none => .next (endEdge s1)

/-- EVAL with its NOW complete: `TSAMPLE <- NOWVAL; TARGET <- target_steps(TSAMPLE); pc <- P_STEP` (R133). -/
def evalTarget (s : State) : Result :=
  match targetSteps binary64 s.cfg s.motion s.nowval with
  | .error r => .refused r
  | .ok (n, m) => .next (setPhase .step { s with tsample := s.nowval, target := n, motion := m })

/-- `EVAL` (R133), taken at P_EVAL, whether or not `enabled`. -/
def execEval (s : State) : Result :=
  atPhase .eval s (withNow .evalNow evalTarget)

/-- One physical step: the command is emitted and the counter moved, in one step (R134). -/
def stepTo (d : Drive) (n : Int) (s : State) : Result := mapNext (endStep n) (emitStep d n s)

/-- `STEP` (R134), taken at P_STEP: at most one step toward TARGET, whether or not `enabled` (R142). -/
def execStep (s : State) : Result :=
  atPhase .step s fun s => betweenCalls s fun s =>
    let s1 := endDriveCall s
    if s.actualSteps < s.target then stepTo .stepFwd (s.actualSteps + 1) s1
    else if s.target < s.actualSteps then stepTo .stepRev (s.actualSteps - 1) s1
    else .next (endStep s.actualSteps s1)

end Sys2Proof.Machine
end

