-- ==== Sys2Proof/Machine/Wire.lean ====
section
/-! DEFINITION. Wire.lean: the six wire commands, as the planner handles a verified command (R169 to R175). -/

namespace Sys2Proof.Machine

/-- `en` (R170): `enabled <- (V /= 0)`. -/
def execEn (v : F64) (s : State) : Result :=
  .next { s with motion := { s.motion with enabled := truthValue v } }

/-- `mv` (R171): `max_velocity <- V`, not validated. -/
def execMv (v : F64) (s : State) : Result :=
  .next { s with motion := { s.motion with maxVelocity := v } }

/-- `ma` (R172): `max_acceleration <- V`, not validated. -/
def execMa (v : F64) (s : State) : Result :=
  .next { s with motion := { s.motion with maxAcceleration := v } }

/-- `sr` (R173): `steps_per_revolution <- trunc(V)`; outside `SPR_W` bits `refuse(sr_out_of_range)`. -/
def execSr (v : F64) (s : State) : Result :=
  match sprOperand s.cfg v with
  | .ok n => .next { s with motion := { s.motion with stepsPerRev := n } }
  | .error r => .refused r

/-- The boundary capture (R178) with sample `n`: the old trajectory evaluated at `n`, and `n` the new segment's start. -/
def capture (m : Motion) (n : Word) : Except Refusal Motion :=
  match evaluate binary64 m n with
  | .error r => .error r
  | .ok e => .ok { m with t0 := n, p0 := e.pos, v0 := e.vel }

/-- `tp` with its NOW complete (R174). -/
def targetPositionSet (v : F64) (s : State) : Result :=
  match capture s.motion s.nowval with
  | .error r => .refused r
  | .ok m => .next { s with motion := { m with targetPosition := v, mode := .position, stopNeeded := true } }

/-- `tp` (R174): a NOW of its own, then the capture, the new target, Position mode and `stop_needed`. -/
def execTp (v : F64) (s : State) : Result :=
  withNow (.handleNow ⟨codeTp, v⟩) (targetPositionSet v) s

/-- `tv` with its NOW complete (R175). -/
def targetVelocitySet (v : F64) (s : State) : Result :=
  match capture s.motion s.nowval with
  | .error r => .refused r
  | .ok m => .next { s with motion := { m with targetVelocity := v, mode := .velocity, stopNeeded := false } }

/-- `tv` (R175): a NOW of its own, then the capture, the new target, Velocity mode, and `stop_needed` cleared. -/
def execTv (v : F64) (s : State) : Result :=
  withNow (.handleNow ⟨codeTv, v⟩) (targetVelocitySet v) s

end Sys2Proof.Machine
end

