-- ==== Sys2Proof/Machine/Dispatch.lean ====
section
/-! DEFINITION. Dispatch.lean: one arm per operation (R80). -/

namespace Sys2Proof.Machine

def exec (i : Instr) (s : State) : Host.Outcome State Fault Refusal :=
  match i with
  -- format WIRE
  | .en v => Sys2Proof.Machine.execEn v s
  | .mv v => Sys2Proof.Machine.execMv v s
  | .ma v => Sys2Proof.Machine.execMa v s
  | .sr v => Sys2Proof.Machine.execSr v s
  | .tp v => Sys2Proof.Machine.execTp v s
  | .tv v => Sys2Proof.Machine.execTv v s
  -- format HOSTOP
  | .now => Sys2Proof.Machine.execNow s
  | .blockUntil deadline => Sys2Proof.Machine.execBlockUntil deadline s
  | .rdt => Sys2Proof.Machine.execRdt s
  | .rds => Sys2Proof.Machine.execRds s
  -- format DRIVE
  | .enable => Sys2Proof.Machine.execEnable s
  | .disable => Sys2Proof.Machine.execDisable s
  | .stepFwd => Sys2Proof.Machine.execStepFwd s
  | .stepRev => Sys2Proof.Machine.execStepRev s
  -- format EVENT
  | .cnt => Sys2Proof.Machine.execCnt s
  | .tick => Sys2Proof.Machine.execTick s
  | .byte c => Sys2Proof.Machine.execByte c s
  | .sched => Sys2Proof.Machine.execSched s
  | .poll => Sys2Proof.Machine.execPoll s
  | .edge => Sys2Proof.Machine.execEdge s
  | .eval => Sys2Proof.Machine.execEval s
  | .step => Sys2Proof.Machine.execStep s

end Sys2Proof.Machine
end

