-- ==== Sys2Proof/Machine/Run.lean ====
section
/-! DEFINITION. Run.lean: which operation runs next, and running it: the main context's own choice by RSTATE, the loop's
call and PHASE (R32, R70), and the turns of the schedule (R40; log 6). Step.lean only calls these. -/

namespace Sys2Proof.Machine

/-- What the main context does next. -/
inductive MainChoice where
  /-- A step of this operation. -/
  | run (i : Instr)
  /-- Nothing to run: the verified command has an unknown code, and POLL ends (R131, R176). -/
  | endOfPoll
  /-- A control code the spec does not have (R26, R31). -/
  | refuse (r : Refusal)
  deriving DecidableEq, Repr

/-- The event of a phase (R139). -/
def phaseInstr : Phase → Instr
  | .wait => .sched
  | .poll => .poll
  | .edge => .edge
  | .eval => .eval
  | .step => .step

/-- The instruction of a command `handle` is called with; POLL ends at once on an unknown code (R169, R176). -/
def handleChoice (c : Command) : MainChoice :=
  match instrOfCommand c with
  | some i => .run i
  | none => .endOfPoll

/-- The main context's next operation: the one the reader has in progress (R105, R106), else the one the loop is inside
(R113), else the event of PHASE (R139). -/
def mainChoice (s : State) : MainChoice :=
  match rstate s, phase s with
  | none, _ => .refuse .badRstate
  | _, none => .refuse .badPhase
  | some .idle, some p =>
    match s.call with
    | .idle => .run (phaseInstr p)
    | .schedNow => .run .sched
    | .handle c => handleChoice c
    | .handleNow c => handleChoice c
    | .evalNow => .run .eval
  | some _, some _ => if rwait s then .run (.blockUntil s.deadline) else .run .now

/-- The instruction ran inside POLL's `handle`. -/
def LoopCall.handling : LoopCall → Bool
  | .handle _ => true
  | .handleNow _ => true
  | _ => false

/-- After a step of the main context: when it ran inside `handle` and the command is done, that is, waits for no NOW, POLL
ends (R131). -/
def closeHandle (before : LoopCall) (r : Result) : Result :=
  match r with
  | .next t => if before.handling && !t.call.awaitsNow then .next (endPoll t) else .next t
  | r => r

/-- One step of the main context. -/
def mainStep (s : State) : Result :=
  match mainChoice s with
  | .run i => closeHandle s.call (exec i s)
  | .endOfPoll => .next (endPoll s)
  | .refuse r => .refused r

/-- Runs a decoded word; a reserved code is `refuse(reserved_code)` (R90). -/
def runDecoded (d : Except Reject Instr) (s : State) : Result :=
  match d with
  | .ok i => exec i s
  | .error _ => .refused .reservedCode

/-- The rest of the event that emitted a drive command, which is one step with the emission: EDGE's (R132) or STEP's
(R134). No other operation is a drive command. -/
def endEmission (i : Instr) (s : State) : State :=
  match i with
  | .enable => endEdge s
  | .disable => endEdge s
  | .stepFwd => endStep (s.actualSteps + 1) s
  | .stepRev => endStep (s.actualSteps - 1) s
  | _ => s

/-- A DRIVE code met in a trace names the loop's step that emits it: the command is emitted and its event ends, in one
step (R88, R135 to R138, log 11). -/
def driveTurn (d : BitVec 3) (s : State) : Result :=
  match decodeDrive d with
  | .error _ => .refused .reservedCode
  | .ok i => mapNext (endEmission i) (exec i s)

/-- The operations that read the clock by the retry protocol (R113). -/
def readsClock : Instr → Bool
  | .now => true
  | .blockUntil _ => true
  | _ => false

/-- A request at the host port. A reserved code is refused (R90), and so is NOW or BLOCK_UNTIL from a context that holds
off the tick (R113). Otherwise the request is accepted at P_WAIT with the reader idle, a drive call having returned, and
waits while it is not: the main context goes on and the request stays first (R86, R139; log 9). `rest` is the schedule
after the request. -/
def hostTurn (holdsTick : Bool) (w : BitVec 68) (rest : List Turn) (s : State) : Result :=
  match decodeHost w with
  | .error _ => .refused .reservedCode
  | .ok i =>
    if holdsTick && readsClock i then .refused .readerBlocksTick
    else if hostPortOpen (endDriveCall s) then exec i { endDriveCall s with schedule := rest }
    else mainStep s

/-- A BLOCK_UNTIL of the stepping collaborator (R188), issued inside a drive call with the reader idle; until then the main
context goes on and it stays first (log 10). -/
def collaboratorTurn (deadline : Word) (rest : List Turn) (s : State) : Result :=
  if driveCallOpen s then exec (.blockUntil deadline) { s with schedule := rest } else mainStep s

/-- The next turn of the schedule is taken, or, with none left, the main context moves (R70; log 6). -/
def nextTurn (s : State) : Result :=
  match s.schedule with
  | [] => mainStep s
  | .main :: rest => mainStep { s with schedule := rest }
  | .event ev c :: rest => runDecoded (decodeEvent ev c) { s with schedule := rest }
  | .host h w :: rest => hostTurn h w rest s
  | .collaborator deadline :: rest => collaboratorTurn deadline rest s
  | .drive d :: rest => driveTurn d { s with schedule := rest }
  | .otherProducer _ :: _ => .refused .secondProducer

/-- One step of the block. A state whose RSTATE or PHASE holds 5, 6 or 7 is outside the spec, and whatever step would come
next is refused (R26, R31, R202; log 20). -/
def takeTurn (s : State) : Result :=
  match rstate s, phase s with
  | none, _ => .refused .badRstate
  | some _, none => .refused .badPhase
  | some _, some _ => nextTurn s

/-! ## Placing a word where the next step finds it -/

/-- The main context free at a phase: reader idle, loop in no call. -/
def freeMain (p : Phase) (s : State) : State :=
  setPhase p (setRCtl false .idle { endDriveCall s with call := .idle })

/-- The control state at which an event is the one that comes next (R32): CNT needs SUB short of its last count, TICK at
it, a loop event its PHASE. -/
def selectEvent (i : Instr) (s : State) : State :=
  match i with
  | .cnt => if subPhase s.cfg s.sub + 1 < s.cfg.subMod then s else { s with sub := subAt s.cfg 0 }
  | .tick => { s with sub := subAt s.cfg (s.cfg.subMod - 1) }
  | .sched => freeMain .wait s
  | .poll => freeMain .poll s
  | .edge => freeMain .edge s
  | .eval => freeMain .eval s
  | .step => freeMain .step s
  | _ => s

/-- The control state at which a drive command is the one the loop emits next: an edge of `enabled` at P_EDGE, a TARGET one
step away at P_STEP (R135 to R138). -/
def selectDrive (i : Instr) (s : State) : State :=
  match i with
  | .enable => setSCtl false .edge { freeMain .edge s with motion := { s.motion with enabled := true } }
  | .disable => setSCtl true .edge { freeMain .edge s with motion := { s.motion with enabled := false } }
  | .stepFwd => { freeMain .step s with target := s.actualSteps + 1 }
  | .stepRev => { freeMain .step s with target := s.actualSteps - 1 }
  | _ => s

/-- The state in which an encoded operation is the next one to run (log 26): an event is the next turn with its control
state selected; a host request is the next turn with the port open; a drive code is the next turn with its emission
due; a wire line is the verified command POLL is about to handle, and the main context's turn is next. A line that does
not parse places nothing. -/
def placeEncoded (e : Encoded) (s : State) : State :=
  match e with
  | .event ev c =>
    let s1 := { s with schedule := .event ev c :: s.schedule }
    match decodeEvent ev c with
    | .ok i => selectEvent i s1
    | .error _ => s1
  | .host w => { freeMain .wait s with schedule := .host false w :: s.schedule }
  | .drive d =>
    let s1 := { s with schedule := .drive d :: s.schedule }
    match decodeDrive d with
    | .ok i => selectDrive i s1
    | .error _ => s1
  | .wire line =>
    match decodeLine line with
    | .ok (c, _) => { freeMain .poll s with call := .handle c, schedule := .main :: s.schedule }
    | .error _ => s

/-- A word of the opcode table placed for the next step. -/
def placeTableWord (s : State) (nbits w : Nat) : State :=
  match tableEncoded nbits w with
  | some e => placeEncoded e s
  | none => s

end Sys2Proof.Machine
end

