-- ==== Sys2Proof/Machine/Step.lean ====
section
/-! DEFINITION. Step.lean: the step of the block and where it finds its next operation. -/

namespace Sys2Proof.Machine

/-- One step of the block (R70). -/
def step (s : State) : Host.Outcome State Fault Refusal := takeTurn s

/-- `s` with the opcode table's word placed so that the next step runs it (log 15, log 26). -/
def State.withFetchWord (s : State) (nbits w : Nat) : State := placeTableWord s nbits w

end Sys2Proof.Machine
end

