-- ==== Sys2Proof/Safety.lean ====
section
/-! DEFINITION. Safety.lean: the terms the claims are stated in: admitted states, the invariant of the block, the
asynchronous events, runs, and which part of the state two states share. -/

namespace Sys2Proof.Machine

/-! ## The invariant -/

/-- The admitted clock states (R21, R22). -/
structure ClockInv (s : State) : Prop where
  ticks_le : s.ticks ≤ ticksMax s.cfg
  sub_lt : s.sub < s.cfg.subMod

/-- The pair latched by an attempt is a time between the last NOWVAL and the clock's time, when the two tick counts that
bracket it agree (R107). -/
def pairBounds (s : State) : Prop :=
  s.nowval.toNat ≤ us s.cfg s.t1 s.sLatch ∧ us s.cfg s.t1 s.sLatch ≤ clockUs s

/-- The reader's latches in each of its control states (R23, R26, R105, R107). -/
def ReaderInv (s : State) : Prop :=
  match rstate s with
  | none => False
  | some .idle => rwait s = false
  | some .t1 => True
  | some .s => s.t1 ≤ s.ticks
  | some .t2 => s.t1 ≤ s.ticks ∧ s.sLatch < s.cfg.subMod ∧ (s.t1 = s.ticks → pairBounds s)
  | some .cmp => s.t1 ≤ s.t2 ∧ s.t2 ≤ s.ticks ∧ s.sLatch < s.cfg.subMod ∧ (s.t1 = s.t2 → pairBounds s)

/-- The loop's call agrees with PHASE and with the reader (R113, R139): the loop is in a call only in the phase that makes
it, a command is handled with the reader idle, and a BLOCK_UNTIL is never the loop's. -/
def LoopInv (s : State) : Prop :=
  match s.call with
  | .idle => phase s ≠ none
  | .schedNow => phase s = some .wait ∧ rwait s = false
  | .handle _ => phase s = some .poll ∧ rstate s = some .idle
  | .handleNow _ => phase s = some .poll ∧ rwait s = false
  | .evalNow => phase s = some .eval ∧ rwait s = false

/-- Who has the main context beside the loop (R139, R188, R208): a drive call runs only behind EDGE or STEP, with the loop
in no call; a reader busy for no call of the loop's works either for the stepping collaborator, on its BLOCK_UNTIL, or for
the host, and for the host only at P_WAIT. -/
structure PortInv (s : State) : Prop where
  driveCall : s.driveCall = true → s.call = .idle ∧ (phase s = some .eval ∨ phase s = some .wait)
  owner : s.call = .idle → rstate s ≠ some .idle →
    (s.driveCall = true ∧ rwait s = true) ∨ (s.driveCall = false ∧ phase s = some .wait)

/-- The times the block holds are not later than the clock, a segment starts no later than the last sample, and the next
iteration is due at most one period after it (R28, R112, R130). TSAMPLE is read at P_STEP only, where R30 specifies it. -/
structure TimeInv (s : State) : Prop where
  nowval_le : s.nowval.toNat ≤ clockUs s
  t0_le : s.motion.t0.toNat ≤ s.nowval.toNat
  tsample_le : phase s = some .step → s.tsample.toNat ≤ s.nowval.toNat
  nextRun_le : s.nextRun.toNat ≤ s.nowval.toNat + Config.loopPeriod.toNat

/-- The parser's buffer (R34): at most 31 characters, all of the number field's classes, and none outside
`ExpectValueOrEnd`. -/
structure ParserInv (p : Parser) : Prop where
  length_le : p.numlen ≤ Config.numbufCap
  chars : p.numbuf.all isNumChar = true
  empty_outside : p.pstate ≠ .expectValueOrEnd → p.numbuf = []

/-- The step counter and the drive stream (R29, R132 e): ACTUAL_STEPS is admitted and counts the forward steps less the
reverse steps; TARGET, at P_STEP where R30 specifies it, fits; the ENABLEs outnumber the DISABLEs by EN_PREV. -/
structure DriveInv (s : State) : Prop where
  admitted : stepsAdmitted s.cfg s.actualSteps = true
  targetFits : phase s = some .step → fitsSigned s.cfg.stepW s.target = true
  steps : s.actualSteps = (s.drives.count .stepFwd : Int) - (s.drives.count .stepRev : Int)
  power : s.drives.count .enable = s.drives.count .disable + (enPrev s).toNat

/-- R38: in Position mode with no stop pending, the segment started at rest. -/
def MotionInv (m : Motion) : Prop :=
  m.mode = .position → m.stopNeeded = false → F64.isZero m.v0 = true

/-- The invariant of the block: what holds after reset and is kept by every step. -/
structure Inv (s : State) : Prop where
  cfg : s.cfg.wf
  clock : ClockInv s
  reader : ReaderInv s
  loop : LoopInv s
  port : PortInv s
  time : TimeInv s
  parser : ParserInv s.parser
  drive : DriveInv s
  motion : MotionInv s.motion

/-! ## Runs -/

/-- The events of the asynchronous agents (R70, agents 1, 2 and 5). -/
def asyncEvent : Instr → Bool
  | .cnt => true
  | .tick => true
  | .byte _ => true
  | _ => false

/-- Any finite number of asynchronous events, which may fall between any two steps of the main context (R71 c). -/
inductive EventRun : State → State → Prop where
  | refl (s : State) : EventRun s s
  | next (s t u : State) (i : Instr) : asyncEvent i = true → exec i s = .next t → EventRun t u → EventRun s u

/-- `n` steps of one operation, with nothing between them. -/
def execTimes (i : Instr) : Nat → State → Result
  | 0, s => .next s
  | n + 1, s =>
    match exec i s with
    | .next t => execTimes i n t
    | .fault f => .fault f
    | .refused r => .refused r

/-- Any finite run of the block (R215). -/
inductive Steps : State → State → Prop where
  | refl (s : State) : Steps s s
  | next (s t u : State) : Machine.step s = .next t → Steps t u → Steps s u

/-- `n` steps of the block. -/
def stepTimes : Nat → State → Result
  | 0, s => .next s
  | n + 1, s =>
    match Machine.step s with
    | .next t => stepTimes n t
    | .fault f => .fault f
    | .refused r => .refused r

/-- One attempt of a reader's operation (R105): its four steps, with any asynchronous events between them. `a` is the state
step 1 meets, `b` the state step 2 meets, and `d` the state after the comparison. -/
def Attempt (i : Instr) (a b d : State) : Prop :=
  ∃ a' b' c c' d', exec i a = .next a' ∧ EventRun a' b ∧ exec i b = .next b' ∧ EventRun b' c ∧
    exec i c = .next c' ∧ EventRun c' d' ∧ exec i d' = .next d

/-- `n` failed attempts of one NOW in a row (R111). -/
inductive Retries : Nat → State → State → Prop where
  | zero (s : State) : Retries 0 s s
  | more (n : Nat) (a b d e : State) : Attempt .now a b d → rstate d = some .t1 → Retries n d e → Retries (n + 1) a e

/-- A step of the block in which SCHED starts an iteration (R139); the iteration's sample is NOWVAL (R145). -/
def StartsIteration (s t : State) : Prop :=
  Machine.step s = .next t ∧ phase s = some .wait ∧ phase t = some .poll

/-- How many physical steps the drive stream holds (R140). -/
def stepsEmitted (s : State) : Nat := s.drives.count .stepFwd + s.drives.count .stepRev

/-- In every prefix of the drive stream the ENABLEs lead the DISABLEs by 0 or 1: never two of one kind in a row, and never
a DISABLE first (R135, R136). -/
def PowerAlternates (ds : List Drive) : Prop :=
  ∀ l, l <+: ds → l.count .disable ≤ l.count .enable ∧ l.count .enable ≤ l.count .disable + 1

/-- The phase after a phase (R139). -/
def Phase.after : Phase → Phase
  | .wait => .poll
  | .poll => .edge
  | .edge => .eval
  | .eval => .step
  | .step => .wait

/-- The state with `enabled` replaced. -/
def withEnabled (b : Bool) (s : State) : State := { s with motion := { s.motion with enabled := b } }

/-- A limit that the evaluation's branch divides by is not greater than zero: the acceleration in either branch, the velocity
in the Position branch (R171, R172, D28). -/
def badLimitAt (m : Motion) : Prop :=
  F64.lt F64.zero m.maxAcceleration = false ∨
    (m.stopNeeded = false ∧ m.mode = .position ∧ F64.lt F64.zero m.maxVelocity = false)

/-- The value is neither NaN nor an infinity. -/
def F64.finite (x : F64) : Prop := ∃ neg m, F64.value x = .fin neg m

/-- Two finite values that are one number: equal, or both zeros. -/
def F64.sameNumber (x y : F64) : Prop := F64.finite x ∧ F64.finite y ∧ F64.lt x y = false ∧ F64.lt y x = false

/-- The time `t_c` of a change of velocity (R180) does not round to zero, or there is no change. -/
def velocityChangeTakesTime (maxAcceleration vTarget v0 : F64) : Prop :=
  F64.lt F64.zero (F64.div (F64.abs (F64.sub vTarget v0)) maxAcceleration) = true ∨ F64.sameNumber vTarget v0

/-- The bytes of a line fed to the parser one after another: its state at the end and what was published, in order. -/
def feed (p : Parser) : List Byte → Parser × List Command
  | [] => (p, [])
  | c :: rest =>
    let r := feed (consumeByte c p).1 rest
    (r.1, (consumeByte c p).2.toList ++ r.2)

/-- The parser awaits the first letter of a line, with nothing kept (R34, R161). -/
def awaitsLine (p : Parser) : Prop := (p.pstate = .reset ∨ p.pstate = .expectLetter1) ∧ p.numbuf = []

/-! ## What two states share -/

/-- The same clock registers. -/
def SameClock (s t : State) : Prop := t.ticks = s.ticks ∧ t.sub = s.sub

/-- The same reader registers: T1, S, T2, NOWVAL, DEADLINE, RCTL. -/
def SameReader (s t : State) : Prop :=
  t.t1 = s.t1 ∧ t.sLatch = s.sLatch ∧ t.t2 = s.t2 ∧ t.nowval = s.nowval ∧ t.deadline = s.deadline ∧ t.rctl = s.rctl

/-- The same registers of unit SEQ but SCTL: NEXT_RUN, ACTUAL_STEPS, TARGET, TSAMPLE. -/
def SameSeq (s t : State) : Prop :=
  t.nextRun = s.nextRun ∧ t.actualSteps = s.actualSteps ∧ t.target = s.target ∧ t.tsample = s.tsample

/-- The same deduplicator slots and MotionState. -/
def SamePlanner (s t : State) : Prop := t.dprev = s.dprev ∧ t.dcur = s.dcur ∧ t.motion = s.motion

end Sys2Proof.Machine
end

