-- ==== Sys2Proof/Laws/State.lean ====
section
/-! SUPPORT. State.lean: one lemma per field per state update, so that no later proof unfolds an update. -/

namespace Sys2Proof.Machine

/-! ## `setRState` -/

@[simp] theorem setRState_cfg (r : RState) (s : State) : (setRState r s).cfg = s.cfg := rfl
@[simp] theorem setRState_ticks (r : RState) (s : State) : (setRState r s).ticks = s.ticks := rfl
@[simp] theorem setRState_sub (r : RState) (s : State) : (setRState r s).sub = s.sub := rfl
@[simp] theorem setRState_t1 (r : RState) (s : State) : (setRState r s).t1 = s.t1 := rfl
@[simp] theorem setRState_sLatch (r : RState) (s : State) : (setRState r s).sLatch = s.sLatch := rfl
@[simp] theorem setRState_t2 (r : RState) (s : State) : (setRState r s).t2 = s.t2 := rfl
@[simp] theorem setRState_nowval (r : RState) (s : State) : (setRState r s).nowval = s.nowval := rfl
@[simp] theorem setRState_deadline (r : RState) (s : State) : (setRState r s).deadline = s.deadline := rfl
@[simp] theorem setRState_rctl (r : RState) (s : State) : (setRState r s).rctl = ctl (rwait s) r.code := rfl
@[simp] theorem setRState_nextRun (r : RState) (s : State) : (setRState r s).nextRun = s.nextRun := rfl
@[simp] theorem setRState_actualSteps (r : RState) (s : State) : (setRState r s).actualSteps = s.actualSteps := rfl
@[simp] theorem setRState_target (r : RState) (s : State) : (setRState r s).target = s.target := rfl
@[simp] theorem setRState_tsample (r : RState) (s : State) : (setRState r s).tsample = s.tsample := rfl
@[simp] theorem setRState_sctl (r : RState) (s : State) : (setRState r s).sctl = s.sctl := rfl
@[simp] theorem setRState_parser (r : RState) (s : State) : (setRState r s).parser = s.parser := rfl
@[simp] theorem setRState_slot (r : RState) (s : State) : (setRState r s).slot = s.slot := rfl
@[simp] theorem setRState_dprev (r : RState) (s : State) : (setRState r s).dprev = s.dprev := rfl
@[simp] theorem setRState_dcur (r : RState) (s : State) : (setRState r s).dcur = s.dcur := rfl
@[simp] theorem setRState_motion (r : RState) (s : State) : (setRState r s).motion = s.motion := rfl
@[simp] theorem setRState_drives (r : RState) (s : State) : (setRState r s).drives = s.drives := rfl
@[simp] theorem setRState_call (r : RState) (s : State) : (setRState r s).call = s.call := rfl
@[simp] theorem setRState_driveCall (r : RState) (s : State) : (setRState r s).driveCall = s.driveCall := rfl
@[simp] theorem setRState_responses (r : RState) (s : State) : (setRState r s).responses = s.responses := rfl
@[simp] theorem setRState_schedule (r : RState) (s : State) : (setRState r s).schedule = s.schedule := rfl

/-! ## `setRCtl` -/

@[simp] theorem setRCtl_cfg (w : Bool) (r : RState) (s : State) : (setRCtl w r s).cfg = s.cfg := rfl
@[simp] theorem setRCtl_ticks (w : Bool) (r : RState) (s : State) : (setRCtl w r s).ticks = s.ticks := rfl
@[simp] theorem setRCtl_sub (w : Bool) (r : RState) (s : State) : (setRCtl w r s).sub = s.sub := rfl
@[simp] theorem setRCtl_t1 (w : Bool) (r : RState) (s : State) : (setRCtl w r s).t1 = s.t1 := rfl
@[simp] theorem setRCtl_sLatch (w : Bool) (r : RState) (s : State) : (setRCtl w r s).sLatch = s.sLatch := rfl
@[simp] theorem setRCtl_t2 (w : Bool) (r : RState) (s : State) : (setRCtl w r s).t2 = s.t2 := rfl
@[simp] theorem setRCtl_nowval (w : Bool) (r : RState) (s : State) : (setRCtl w r s).nowval = s.nowval := rfl
@[simp] theorem setRCtl_deadline (w : Bool) (r : RState) (s : State) : (setRCtl w r s).deadline = s.deadline := rfl
@[simp] theorem setRCtl_rctl (w : Bool) (r : RState) (s : State) : (setRCtl w r s).rctl = ctl w r.code := rfl
@[simp] theorem setRCtl_nextRun (w : Bool) (r : RState) (s : State) : (setRCtl w r s).nextRun = s.nextRun := rfl
@[simp] theorem setRCtl_actualSteps (w : Bool) (r : RState) (s : State) : (setRCtl w r s).actualSteps = s.actualSteps := rfl
@[simp] theorem setRCtl_target (w : Bool) (r : RState) (s : State) : (setRCtl w r s).target = s.target := rfl
@[simp] theorem setRCtl_tsample (w : Bool) (r : RState) (s : State) : (setRCtl w r s).tsample = s.tsample := rfl
@[simp] theorem setRCtl_sctl (w : Bool) (r : RState) (s : State) : (setRCtl w r s).sctl = s.sctl := rfl
@[simp] theorem setRCtl_parser (w : Bool) (r : RState) (s : State) : (setRCtl w r s).parser = s.parser := rfl
@[simp] theorem setRCtl_slot (w : Bool) (r : RState) (s : State) : (setRCtl w r s).slot = s.slot := rfl
@[simp] theorem setRCtl_dprev (w : Bool) (r : RState) (s : State) : (setRCtl w r s).dprev = s.dprev := rfl
@[simp] theorem setRCtl_dcur (w : Bool) (r : RState) (s : State) : (setRCtl w r s).dcur = s.dcur := rfl
@[simp] theorem setRCtl_motion (w : Bool) (r : RState) (s : State) : (setRCtl w r s).motion = s.motion := rfl
@[simp] theorem setRCtl_drives (w : Bool) (r : RState) (s : State) : (setRCtl w r s).drives = s.drives := rfl
@[simp] theorem setRCtl_call (w : Bool) (r : RState) (s : State) : (setRCtl w r s).call = s.call := rfl
@[simp] theorem setRCtl_driveCall (w : Bool) (r : RState) (s : State) : (setRCtl w r s).driveCall = s.driveCall := rfl
@[simp] theorem setRCtl_responses (w : Bool) (r : RState) (s : State) : (setRCtl w r s).responses = s.responses := rfl
@[simp] theorem setRCtl_schedule (w : Bool) (r : RState) (s : State) : (setRCtl w r s).schedule = s.schedule := rfl

/-! ## `setPhase` -/

@[simp] theorem setPhase_cfg (p : Phase) (s : State) : (setPhase p s).cfg = s.cfg := rfl
@[simp] theorem setPhase_ticks (p : Phase) (s : State) : (setPhase p s).ticks = s.ticks := rfl
@[simp] theorem setPhase_sub (p : Phase) (s : State) : (setPhase p s).sub = s.sub := rfl
@[simp] theorem setPhase_t1 (p : Phase) (s : State) : (setPhase p s).t1 = s.t1 := rfl
@[simp] theorem setPhase_sLatch (p : Phase) (s : State) : (setPhase p s).sLatch = s.sLatch := rfl
@[simp] theorem setPhase_t2 (p : Phase) (s : State) : (setPhase p s).t2 = s.t2 := rfl
@[simp] theorem setPhase_nowval (p : Phase) (s : State) : (setPhase p s).nowval = s.nowval := rfl
@[simp] theorem setPhase_deadline (p : Phase) (s : State) : (setPhase p s).deadline = s.deadline := rfl
@[simp] theorem setPhase_rctl (p : Phase) (s : State) : (setPhase p s).rctl = s.rctl := rfl
@[simp] theorem setPhase_nextRun (p : Phase) (s : State) : (setPhase p s).nextRun = s.nextRun := rfl
@[simp] theorem setPhase_actualSteps (p : Phase) (s : State) : (setPhase p s).actualSteps = s.actualSteps := rfl
@[simp] theorem setPhase_target (p : Phase) (s : State) : (setPhase p s).target = s.target := rfl
@[simp] theorem setPhase_tsample (p : Phase) (s : State) : (setPhase p s).tsample = s.tsample := rfl
@[simp] theorem setPhase_sctl (p : Phase) (s : State) : (setPhase p s).sctl = ctl (enPrev s) p.code := rfl
@[simp] theorem setPhase_parser (p : Phase) (s : State) : (setPhase p s).parser = s.parser := rfl
@[simp] theorem setPhase_slot (p : Phase) (s : State) : (setPhase p s).slot = s.slot := rfl
@[simp] theorem setPhase_dprev (p : Phase) (s : State) : (setPhase p s).dprev = s.dprev := rfl
@[simp] theorem setPhase_dcur (p : Phase) (s : State) : (setPhase p s).dcur = s.dcur := rfl
@[simp] theorem setPhase_motion (p : Phase) (s : State) : (setPhase p s).motion = s.motion := rfl
@[simp] theorem setPhase_drives (p : Phase) (s : State) : (setPhase p s).drives = s.drives := rfl
@[simp] theorem setPhase_call (p : Phase) (s : State) : (setPhase p s).call = s.call := rfl
@[simp] theorem setPhase_driveCall (p : Phase) (s : State) : (setPhase p s).driveCall = s.driveCall := rfl
@[simp] theorem setPhase_responses (p : Phase) (s : State) : (setPhase p s).responses = s.responses := rfl
@[simp] theorem setPhase_schedule (p : Phase) (s : State) : (setPhase p s).schedule = s.schedule := rfl

/-! ## `setSCtl` -/

@[simp] theorem setSCtl_cfg (e : Bool) (p : Phase) (s : State) : (setSCtl e p s).cfg = s.cfg := rfl
@[simp] theorem setSCtl_ticks (e : Bool) (p : Phase) (s : State) : (setSCtl e p s).ticks = s.ticks := rfl
@[simp] theorem setSCtl_sub (e : Bool) (p : Phase) (s : State) : (setSCtl e p s).sub = s.sub := rfl
@[simp] theorem setSCtl_t1 (e : Bool) (p : Phase) (s : State) : (setSCtl e p s).t1 = s.t1 := rfl
@[simp] theorem setSCtl_sLatch (e : Bool) (p : Phase) (s : State) : (setSCtl e p s).sLatch = s.sLatch := rfl
@[simp] theorem setSCtl_t2 (e : Bool) (p : Phase) (s : State) : (setSCtl e p s).t2 = s.t2 := rfl
@[simp] theorem setSCtl_nowval (e : Bool) (p : Phase) (s : State) : (setSCtl e p s).nowval = s.nowval := rfl
@[simp] theorem setSCtl_deadline (e : Bool) (p : Phase) (s : State) : (setSCtl e p s).deadline = s.deadline := rfl
@[simp] theorem setSCtl_rctl (e : Bool) (p : Phase) (s : State) : (setSCtl e p s).rctl = s.rctl := rfl
@[simp] theorem setSCtl_nextRun (e : Bool) (p : Phase) (s : State) : (setSCtl e p s).nextRun = s.nextRun := rfl
@[simp] theorem setSCtl_actualSteps (e : Bool) (p : Phase) (s : State) : (setSCtl e p s).actualSteps = s.actualSteps := rfl
@[simp] theorem setSCtl_target (e : Bool) (p : Phase) (s : State) : (setSCtl e p s).target = s.target := rfl
@[simp] theorem setSCtl_tsample (e : Bool) (p : Phase) (s : State) : (setSCtl e p s).tsample = s.tsample := rfl
@[simp] theorem setSCtl_sctl (e : Bool) (p : Phase) (s : State) : (setSCtl e p s).sctl = ctl e p.code := rfl
@[simp] theorem setSCtl_parser (e : Bool) (p : Phase) (s : State) : (setSCtl e p s).parser = s.parser := rfl
@[simp] theorem setSCtl_slot (e : Bool) (p : Phase) (s : State) : (setSCtl e p s).slot = s.slot := rfl
@[simp] theorem setSCtl_dprev (e : Bool) (p : Phase) (s : State) : (setSCtl e p s).dprev = s.dprev := rfl
@[simp] theorem setSCtl_dcur (e : Bool) (p : Phase) (s : State) : (setSCtl e p s).dcur = s.dcur := rfl
@[simp] theorem setSCtl_motion (e : Bool) (p : Phase) (s : State) : (setSCtl e p s).motion = s.motion := rfl
@[simp] theorem setSCtl_drives (e : Bool) (p : Phase) (s : State) : (setSCtl e p s).drives = s.drives := rfl
@[simp] theorem setSCtl_call (e : Bool) (p : Phase) (s : State) : (setSCtl e p s).call = s.call := rfl
@[simp] theorem setSCtl_driveCall (e : Bool) (p : Phase) (s : State) : (setSCtl e p s).driveCall = s.driveCall := rfl
@[simp] theorem setSCtl_responses (e : Bool) (p : Phase) (s : State) : (setSCtl e p s).responses = s.responses := rfl
@[simp] theorem setSCtl_schedule (e : Bool) (p : Phase) (s : State) : (setSCtl e p s).schedule = s.schedule := rfl

/-! ## `respond` -/

@[simp] theorem respond_cfg (r : Option Word) (s : State) : (respond r s).cfg = s.cfg := rfl
@[simp] theorem respond_ticks (r : Option Word) (s : State) : (respond r s).ticks = s.ticks := rfl
@[simp] theorem respond_sub (r : Option Word) (s : State) : (respond r s).sub = s.sub := rfl
@[simp] theorem respond_t1 (r : Option Word) (s : State) : (respond r s).t1 = s.t1 := rfl
@[simp] theorem respond_sLatch (r : Option Word) (s : State) : (respond r s).sLatch = s.sLatch := rfl
@[simp] theorem respond_t2 (r : Option Word) (s : State) : (respond r s).t2 = s.t2 := rfl
@[simp] theorem respond_nowval (r : Option Word) (s : State) : (respond r s).nowval = s.nowval := rfl
@[simp] theorem respond_deadline (r : Option Word) (s : State) : (respond r s).deadline = s.deadline := rfl
@[simp] theorem respond_rctl (r : Option Word) (s : State) : (respond r s).rctl = s.rctl := rfl
@[simp] theorem respond_nextRun (r : Option Word) (s : State) : (respond r s).nextRun = s.nextRun := rfl
@[simp] theorem respond_actualSteps (r : Option Word) (s : State) : (respond r s).actualSteps = s.actualSteps := rfl
@[simp] theorem respond_target (r : Option Word) (s : State) : (respond r s).target = s.target := rfl
@[simp] theorem respond_tsample (r : Option Word) (s : State) : (respond r s).tsample = s.tsample := rfl
@[simp] theorem respond_sctl (r : Option Word) (s : State) : (respond r s).sctl = s.sctl := rfl
@[simp] theorem respond_parser (r : Option Word) (s : State) : (respond r s).parser = s.parser := rfl
@[simp] theorem respond_slot (r : Option Word) (s : State) : (respond r s).slot = s.slot := rfl
@[simp] theorem respond_dprev (r : Option Word) (s : State) : (respond r s).dprev = s.dprev := rfl
@[simp] theorem respond_dcur (r : Option Word) (s : State) : (respond r s).dcur = s.dcur := rfl
@[simp] theorem respond_motion (r : Option Word) (s : State) : (respond r s).motion = s.motion := rfl
@[simp] theorem respond_drives (r : Option Word) (s : State) : (respond r s).drives = s.drives := rfl
@[simp] theorem respond_call (r : Option Word) (s : State) : (respond r s).call = s.call := rfl
@[simp] theorem respond_driveCall (r : Option Word) (s : State) : (respond r s).driveCall = s.driveCall := rfl
@[simp] theorem respond_responses (r : Option Word) (s : State) : (respond r s).responses = s.responses ++ [r] := rfl
@[simp] theorem respond_schedule (r : Option Word) (s : State) : (respond r s).schedule = s.schedule := rfl

/-! ## `emit` -/

@[simp] theorem emit_cfg (d : Drive) (s : State) : (emit d s).cfg = s.cfg := rfl
@[simp] theorem emit_ticks (d : Drive) (s : State) : (emit d s).ticks = s.ticks := rfl
@[simp] theorem emit_sub (d : Drive) (s : State) : (emit d s).sub = s.sub := rfl
@[simp] theorem emit_t1 (d : Drive) (s : State) : (emit d s).t1 = s.t1 := rfl
@[simp] theorem emit_sLatch (d : Drive) (s : State) : (emit d s).sLatch = s.sLatch := rfl
@[simp] theorem emit_t2 (d : Drive) (s : State) : (emit d s).t2 = s.t2 := rfl
@[simp] theorem emit_nowval (d : Drive) (s : State) : (emit d s).nowval = s.nowval := rfl
@[simp] theorem emit_deadline (d : Drive) (s : State) : (emit d s).deadline = s.deadline := rfl
@[simp] theorem emit_rctl (d : Drive) (s : State) : (emit d s).rctl = s.rctl := rfl
@[simp] theorem emit_nextRun (d : Drive) (s : State) : (emit d s).nextRun = s.nextRun := rfl
@[simp] theorem emit_actualSteps (d : Drive) (s : State) : (emit d s).actualSteps = s.actualSteps := rfl
@[simp] theorem emit_target (d : Drive) (s : State) : (emit d s).target = s.target := rfl
@[simp] theorem emit_tsample (d : Drive) (s : State) : (emit d s).tsample = s.tsample := rfl
@[simp] theorem emit_sctl (d : Drive) (s : State) : (emit d s).sctl = s.sctl := rfl
@[simp] theorem emit_parser (d : Drive) (s : State) : (emit d s).parser = s.parser := rfl
@[simp] theorem emit_slot (d : Drive) (s : State) : (emit d s).slot = s.slot := rfl
@[simp] theorem emit_dprev (d : Drive) (s : State) : (emit d s).dprev = s.dprev := rfl
@[simp] theorem emit_dcur (d : Drive) (s : State) : (emit d s).dcur = s.dcur := rfl
@[simp] theorem emit_motion (d : Drive) (s : State) : (emit d s).motion = s.motion := rfl
@[simp] theorem emit_drives (d : Drive) (s : State) : (emit d s).drives = s.drives ++ [d] := rfl
@[simp] theorem emit_call (d : Drive) (s : State) : (emit d s).call = s.call := rfl
@[simp] theorem emit_driveCall (d : Drive) (s : State) : (emit d s).driveCall = true := rfl
@[simp] theorem emit_responses (d : Drive) (s : State) : (emit d s).responses = s.responses := rfl
@[simp] theorem emit_schedule (d : Drive) (s : State) : (emit d s).schedule = s.schedule := rfl

/-! ## `endDriveCall` -/

@[simp] theorem endDriveCall_cfg (s : State) : (endDriveCall s).cfg = s.cfg := rfl
@[simp] theorem endDriveCall_ticks (s : State) : (endDriveCall s).ticks = s.ticks := rfl
@[simp] theorem endDriveCall_sub (s : State) : (endDriveCall s).sub = s.sub := rfl
@[simp] theorem endDriveCall_t1 (s : State) : (endDriveCall s).t1 = s.t1 := rfl
@[simp] theorem endDriveCall_sLatch (s : State) : (endDriveCall s).sLatch = s.sLatch := rfl
@[simp] theorem endDriveCall_t2 (s : State) : (endDriveCall s).t2 = s.t2 := rfl
@[simp] theorem endDriveCall_nowval (s : State) : (endDriveCall s).nowval = s.nowval := rfl
@[simp] theorem endDriveCall_deadline (s : State) : (endDriveCall s).deadline = s.deadline := rfl
@[simp] theorem endDriveCall_rctl (s : State) : (endDriveCall s).rctl = s.rctl := rfl
@[simp] theorem endDriveCall_nextRun (s : State) : (endDriveCall s).nextRun = s.nextRun := rfl
@[simp] theorem endDriveCall_actualSteps (s : State) : (endDriveCall s).actualSteps = s.actualSteps := rfl
@[simp] theorem endDriveCall_target (s : State) : (endDriveCall s).target = s.target := rfl
@[simp] theorem endDriveCall_tsample (s : State) : (endDriveCall s).tsample = s.tsample := rfl
@[simp] theorem endDriveCall_sctl (s : State) : (endDriveCall s).sctl = s.sctl := rfl
@[simp] theorem endDriveCall_parser (s : State) : (endDriveCall s).parser = s.parser := rfl
@[simp] theorem endDriveCall_slot (s : State) : (endDriveCall s).slot = s.slot := rfl
@[simp] theorem endDriveCall_dprev (s : State) : (endDriveCall s).dprev = s.dprev := rfl
@[simp] theorem endDriveCall_dcur (s : State) : (endDriveCall s).dcur = s.dcur := rfl
@[simp] theorem endDriveCall_motion (s : State) : (endDriveCall s).motion = s.motion := rfl
@[simp] theorem endDriveCall_drives (s : State) : (endDriveCall s).drives = s.drives := rfl
@[simp] theorem endDriveCall_call (s : State) : (endDriveCall s).call = s.call := rfl
@[simp] theorem endDriveCall_driveCall (s : State) : (endDriveCall s).driveCall = false := rfl
@[simp] theorem endDriveCall_responses (s : State) : (endDriveCall s).responses = s.responses := rfl
@[simp] theorem endDriveCall_schedule (s : State) : (endDriveCall s).schedule = s.schedule := rfl

/-! ## `endEdge` -/

@[simp] theorem endEdge_cfg (s : State) : (endEdge s).cfg = s.cfg := rfl
@[simp] theorem endEdge_ticks (s : State) : (endEdge s).ticks = s.ticks := rfl
@[simp] theorem endEdge_sub (s : State) : (endEdge s).sub = s.sub := rfl
@[simp] theorem endEdge_t1 (s : State) : (endEdge s).t1 = s.t1 := rfl
@[simp] theorem endEdge_sLatch (s : State) : (endEdge s).sLatch = s.sLatch := rfl
@[simp] theorem endEdge_t2 (s : State) : (endEdge s).t2 = s.t2 := rfl
@[simp] theorem endEdge_nowval (s : State) : (endEdge s).nowval = s.nowval := rfl
@[simp] theorem endEdge_deadline (s : State) : (endEdge s).deadline = s.deadline := rfl
@[simp] theorem endEdge_rctl (s : State) : (endEdge s).rctl = s.rctl := rfl
@[simp] theorem endEdge_nextRun (s : State) : (endEdge s).nextRun = s.nextRun := rfl
@[simp] theorem endEdge_actualSteps (s : State) : (endEdge s).actualSteps = s.actualSteps := rfl
@[simp] theorem endEdge_target (s : State) : (endEdge s).target = s.target := rfl
@[simp] theorem endEdge_tsample (s : State) : (endEdge s).tsample = s.tsample := rfl
@[simp] theorem endEdge_sctl (s : State) : (endEdge s).sctl = ctl s.motion.enabled Phase.eval.code := rfl
@[simp] theorem endEdge_parser (s : State) : (endEdge s).parser = s.parser := rfl
@[simp] theorem endEdge_slot (s : State) : (endEdge s).slot = s.slot := rfl
@[simp] theorem endEdge_dprev (s : State) : (endEdge s).dprev = s.dprev := rfl
@[simp] theorem endEdge_dcur (s : State) : (endEdge s).dcur = s.dcur := rfl
@[simp] theorem endEdge_motion (s : State) : (endEdge s).motion = s.motion := rfl
@[simp] theorem endEdge_drives (s : State) : (endEdge s).drives = s.drives := rfl
@[simp] theorem endEdge_call (s : State) : (endEdge s).call = s.call := rfl
@[simp] theorem endEdge_driveCall (s : State) : (endEdge s).driveCall = s.driveCall := rfl
@[simp] theorem endEdge_responses (s : State) : (endEdge s).responses = s.responses := rfl
@[simp] theorem endEdge_schedule (s : State) : (endEdge s).schedule = s.schedule := rfl

/-! ## `endStep` -/

@[simp] theorem endStep_cfg (n : Int) (s : State) : (endStep n s).cfg = s.cfg := rfl
@[simp] theorem endStep_ticks (n : Int) (s : State) : (endStep n s).ticks = s.ticks := rfl
@[simp] theorem endStep_sub (n : Int) (s : State) : (endStep n s).sub = s.sub := rfl
@[simp] theorem endStep_t1 (n : Int) (s : State) : (endStep n s).t1 = s.t1 := rfl
@[simp] theorem endStep_sLatch (n : Int) (s : State) : (endStep n s).sLatch = s.sLatch := rfl
@[simp] theorem endStep_t2 (n : Int) (s : State) : (endStep n s).t2 = s.t2 := rfl
@[simp] theorem endStep_nowval (n : Int) (s : State) : (endStep n s).nowval = s.nowval := rfl
@[simp] theorem endStep_deadline (n : Int) (s : State) : (endStep n s).deadline = s.deadline := rfl
@[simp] theorem endStep_rctl (n : Int) (s : State) : (endStep n s).rctl = s.rctl := rfl
@[simp] theorem endStep_nextRun (n : Int) (s : State) : (endStep n s).nextRun = s.nextRun := rfl
@[simp] theorem endStep_actualSteps (n : Int) (s : State) : (endStep n s).actualSteps = n := rfl
@[simp] theorem endStep_target (n : Int) (s : State) : (endStep n s).target = s.target := rfl
@[simp] theorem endStep_tsample (n : Int) (s : State) : (endStep n s).tsample = s.tsample := rfl
@[simp] theorem endStep_sctl (n : Int) (s : State) : (endStep n s).sctl = ctl (enPrev s) Phase.wait.code := rfl
@[simp] theorem endStep_parser (n : Int) (s : State) : (endStep n s).parser = s.parser := rfl
@[simp] theorem endStep_slot (n : Int) (s : State) : (endStep n s).slot = s.slot := rfl
@[simp] theorem endStep_dprev (n : Int) (s : State) : (endStep n s).dprev = s.dprev := rfl
@[simp] theorem endStep_dcur (n : Int) (s : State) : (endStep n s).dcur = s.dcur := rfl
@[simp] theorem endStep_motion (n : Int) (s : State) : (endStep n s).motion = s.motion := rfl
@[simp] theorem endStep_drives (n : Int) (s : State) : (endStep n s).drives = s.drives := rfl
@[simp] theorem endStep_call (n : Int) (s : State) : (endStep n s).call = s.call := rfl
@[simp] theorem endStep_driveCall (n : Int) (s : State) : (endStep n s).driveCall = s.driveCall := rfl
@[simp] theorem endStep_responses (n : Int) (s : State) : (endStep n s).responses = s.responses := rfl
@[simp] theorem endStep_schedule (n : Int) (s : State) : (endStep n s).schedule = s.schedule := rfl

/-! ## `issueNow` -/

@[simp] theorem issueNow_cfg (c : LoopCall) (s : State) : (issueNow c s).cfg = s.cfg := rfl
@[simp] theorem issueNow_ticks (c : LoopCall) (s : State) : (issueNow c s).ticks = s.ticks := rfl
@[simp] theorem issueNow_sub (c : LoopCall) (s : State) : (issueNow c s).sub = s.sub := rfl
@[simp] theorem issueNow_t1 (c : LoopCall) (s : State) : (issueNow c s).t1 = s.t1 := rfl
@[simp] theorem issueNow_sLatch (c : LoopCall) (s : State) : (issueNow c s).sLatch = s.sLatch := rfl
@[simp] theorem issueNow_t2 (c : LoopCall) (s : State) : (issueNow c s).t2 = s.t2 := rfl
@[simp] theorem issueNow_nowval (c : LoopCall) (s : State) : (issueNow c s).nowval = s.nowval := rfl
@[simp] theorem issueNow_deadline (c : LoopCall) (s : State) : (issueNow c s).deadline = s.deadline := rfl
@[simp] theorem issueNow_rctl (c : LoopCall) (s : State) : (issueNow c s).rctl = ctl (rwait s) RState.t1.code := rfl
@[simp] theorem issueNow_nextRun (c : LoopCall) (s : State) : (issueNow c s).nextRun = s.nextRun := rfl
@[simp] theorem issueNow_actualSteps (c : LoopCall) (s : State) : (issueNow c s).actualSteps = s.actualSteps := rfl
@[simp] theorem issueNow_target (c : LoopCall) (s : State) : (issueNow c s).target = s.target := rfl
@[simp] theorem issueNow_tsample (c : LoopCall) (s : State) : (issueNow c s).tsample = s.tsample := rfl
@[simp] theorem issueNow_sctl (c : LoopCall) (s : State) : (issueNow c s).sctl = s.sctl := rfl
@[simp] theorem issueNow_parser (c : LoopCall) (s : State) : (issueNow c s).parser = s.parser := rfl
@[simp] theorem issueNow_slot (c : LoopCall) (s : State) : (issueNow c s).slot = s.slot := rfl
@[simp] theorem issueNow_dprev (c : LoopCall) (s : State) : (issueNow c s).dprev = s.dprev := rfl
@[simp] theorem issueNow_dcur (c : LoopCall) (s : State) : (issueNow c s).dcur = s.dcur := rfl
@[simp] theorem issueNow_motion (c : LoopCall) (s : State) : (issueNow c s).motion = s.motion := rfl
@[simp] theorem issueNow_drives (c : LoopCall) (s : State) : (issueNow c s).drives = s.drives := rfl
@[simp] theorem issueNow_call (c : LoopCall) (s : State) : (issueNow c s).call = c := rfl
@[simp] theorem issueNow_driveCall (c : LoopCall) (s : State) : (issueNow c s).driveCall = false := rfl
@[simp] theorem issueNow_responses (c : LoopCall) (s : State) : (issueNow c s).responses = s.responses := rfl
@[simp] theorem issueNow_schedule (c : LoopCall) (s : State) : (issueNow c s).schedule = s.schedule := rfl

/-! ## `endPoll` -/

@[simp] theorem endPoll_cfg (s : State) : (endPoll s).cfg = s.cfg := rfl
@[simp] theorem endPoll_ticks (s : State) : (endPoll s).ticks = s.ticks := rfl
@[simp] theorem endPoll_sub (s : State) : (endPoll s).sub = s.sub := rfl
@[simp] theorem endPoll_t1 (s : State) : (endPoll s).t1 = s.t1 := rfl
@[simp] theorem endPoll_sLatch (s : State) : (endPoll s).sLatch = s.sLatch := rfl
@[simp] theorem endPoll_t2 (s : State) : (endPoll s).t2 = s.t2 := rfl
@[simp] theorem endPoll_nowval (s : State) : (endPoll s).nowval = s.nowval := rfl
@[simp] theorem endPoll_deadline (s : State) : (endPoll s).deadline = s.deadline := rfl
@[simp] theorem endPoll_rctl (s : State) : (endPoll s).rctl = s.rctl := rfl
@[simp] theorem endPoll_nextRun (s : State) : (endPoll s).nextRun = s.nextRun := rfl
@[simp] theorem endPoll_actualSteps (s : State) : (endPoll s).actualSteps = s.actualSteps := rfl
@[simp] theorem endPoll_target (s : State) : (endPoll s).target = s.target := rfl
@[simp] theorem endPoll_tsample (s : State) : (endPoll s).tsample = s.tsample := rfl
@[simp] theorem endPoll_sctl (s : State) : (endPoll s).sctl = ctl (enPrev s) Phase.edge.code := rfl
@[simp] theorem endPoll_parser (s : State) : (endPoll s).parser = s.parser := rfl
@[simp] theorem endPoll_slot (s : State) : (endPoll s).slot = s.slot := rfl
@[simp] theorem endPoll_dprev (s : State) : (endPoll s).dprev = s.dprev := rfl
@[simp] theorem endPoll_dcur (s : State) : (endPoll s).dcur = s.dcur := rfl
@[simp] theorem endPoll_motion (s : State) : (endPoll s).motion = s.motion := rfl
@[simp] theorem endPoll_drives (s : State) : (endPoll s).drives = s.drives := rfl
@[simp] theorem endPoll_call (s : State) : (endPoll s).call = .idle := rfl
@[simp] theorem endPoll_driveCall (s : State) : (endPoll s).driveCall = s.driveCall := rfl
@[simp] theorem endPoll_responses (s : State) : (endPoll s).responses = s.responses := rfl
@[simp] theorem endPoll_schedule (s : State) : (endPoll s).schedule = s.schedule := rfl

/-! ## The control registers -/

@[simp] theorem ctlField_ctl (b : Bool) (x : BitVec 3) : ctlField (ctl b x) = x := by revert b x; decide
@[simp] theorem ctlFlag_ctl (b : Bool) (x : BitVec 3) : ctlFlag (ctl b x) = b := by revert b x; decide
@[simp] theorem rstateOf_code (r : RState) : rstateOf r.code = some r := by cases r <;> decide
@[simp] theorem phaseOf_code (p : Phase) : phaseOf p.code = some p := by cases p <;> decide

/-- A control register is its flag and its field. -/
theorem ctl_eta (c : BitVec 4) : ctl (ctlFlag c) (ctlField c) = c := by revert c; decide

/-- RSTATE is a state exactly when its field holds that state's code. -/
theorem rstateOf_eq_some {b : BitVec 3} {r : RState} : rstateOf b = some r ↔ b = r.code := by
  revert b r; intro b r; cases r <;> revert b <;> decide

theorem phaseOf_eq_some {b : BitVec 3} {p : Phase} : phaseOf b = some p ↔ b = p.code := by
  revert b p; intro b p; cases p <;> revert b <;> decide

/-- RSTATE and RWAIT depend on RCTL only. -/
theorem rstate_congr {s t : State} (h : t.rctl = s.rctl) : rstate t = rstate s := by simp only [rstate, h]
theorem rwait_congr {s t : State} (h : t.rctl = s.rctl) : rwait t = rwait s := by simp only [rwait, h]
/-- PHASE and EN_PREV depend on SCTL only. -/
theorem phase_congr {s t : State} (h : t.sctl = s.sctl) : phase t = phase s := by simp only [phase, h]
theorem enPrev_congr {s t : State} (h : t.sctl = s.sctl) : enPrev t = enPrev s := by simp only [enPrev, h]

@[simp] theorem rstate_setRState (r : RState) (s : State) : rstate (setRState r s) = some r := by simp [rstate]
@[simp] theorem rwait_setRState (r : RState) (s : State) : rwait (setRState r s) = rwait s := by simp [rwait]
@[simp] theorem phase_setRState (r : RState) (s : State) : phase (setRState r s) = phase s := by simp [phase]
@[simp] theorem enPrev_setRState (r : RState) (s : State) : enPrev (setRState r s) = enPrev s := by simp [enPrev]

@[simp] theorem rstate_setRCtl (w : Bool) (r : RState) (s : State) : rstate (setRCtl w r s) = some r := by simp [rstate]
@[simp] theorem rwait_setRCtl (w : Bool) (r : RState) (s : State) : rwait (setRCtl w r s) = w := by simp [rwait]
@[simp] theorem phase_setRCtl (w : Bool) (r : RState) (s : State) : phase (setRCtl w r s) = phase s := by simp [phase]
@[simp] theorem enPrev_setRCtl (w : Bool) (r : RState) (s : State) : enPrev (setRCtl w r s) = enPrev s := by simp [enPrev]

@[simp] theorem rstate_setPhase (p : Phase) (s : State) : rstate (setPhase p s) = rstate s := by simp [rstate]
@[simp] theorem rwait_setPhase (p : Phase) (s : State) : rwait (setPhase p s) = rwait s := by simp [rwait]
@[simp] theorem phase_setPhase (p : Phase) (s : State) : phase (setPhase p s) = some p := by simp [phase]
@[simp] theorem enPrev_setPhase (p : Phase) (s : State) : enPrev (setPhase p s) = enPrev s := by simp [enPrev]

@[simp] theorem rstate_setSCtl (e : Bool) (p : Phase) (s : State) : rstate (setSCtl e p s) = rstate s := by simp [rstate]
@[simp] theorem rwait_setSCtl (e : Bool) (p : Phase) (s : State) : rwait (setSCtl e p s) = rwait s := by simp [rwait]
@[simp] theorem phase_setSCtl (e : Bool) (p : Phase) (s : State) : phase (setSCtl e p s) = some p := by simp [phase]
@[simp] theorem enPrev_setSCtl (e : Bool) (p : Phase) (s : State) : enPrev (setSCtl e p s) = e := by simp [enPrev]

@[simp] theorem rstate_respond (r : Option Word) (s : State) : rstate (respond r s) = rstate s := by simp [rstate]
@[simp] theorem rwait_respond (r : Option Word) (s : State) : rwait (respond r s) = rwait s := by simp [rwait]
@[simp] theorem phase_respond (r : Option Word) (s : State) : phase (respond r s) = phase s := by simp [phase]
@[simp] theorem enPrev_respond (r : Option Word) (s : State) : enPrev (respond r s) = enPrev s := by simp [enPrev]

@[simp] theorem rstate_emit (d : Drive) (s : State) : rstate (emit d s) = rstate s := by simp [rstate]
@[simp] theorem rwait_emit (d : Drive) (s : State) : rwait (emit d s) = rwait s := by simp [rwait]
@[simp] theorem phase_emit (d : Drive) (s : State) : phase (emit d s) = phase s := by simp [phase]
@[simp] theorem enPrev_emit (d : Drive) (s : State) : enPrev (emit d s) = enPrev s := by simp [enPrev]

@[simp] theorem rstate_endDriveCall (s : State) : rstate (endDriveCall s) = rstate s := by simp [rstate]
@[simp] theorem rwait_endDriveCall (s : State) : rwait (endDriveCall s) = rwait s := by simp [rwait]
@[simp] theorem phase_endDriveCall (s : State) : phase (endDriveCall s) = phase s := by simp [phase]
@[simp] theorem enPrev_endDriveCall (s : State) : enPrev (endDriveCall s) = enPrev s := by simp [enPrev]

@[simp] theorem rstate_endEdge (s : State) : rstate (endEdge s) = rstate s := by simp [rstate]
@[simp] theorem rwait_endEdge (s : State) : rwait (endEdge s) = rwait s := by simp [rwait]
@[simp] theorem phase_endEdge (s : State) : phase (endEdge s) = some .eval := by simp [phase]
@[simp] theorem enPrev_endEdge (s : State) : enPrev (endEdge s) = s.motion.enabled := by simp [enPrev]

@[simp] theorem rstate_endStep (n : Int) (s : State) : rstate (endStep n s) = rstate s := by simp [rstate]
@[simp] theorem rwait_endStep (n : Int) (s : State) : rwait (endStep n s) = rwait s := by simp [rwait]
@[simp] theorem phase_endStep (n : Int) (s : State) : phase (endStep n s) = some .wait := by simp [phase]
@[simp] theorem enPrev_endStep (n : Int) (s : State) : enPrev (endStep n s) = enPrev s := by simp [enPrev]

@[simp] theorem rstate_issueNow (c : LoopCall) (s : State) : rstate (issueNow c s) = some .t1 := by simp [rstate]
@[simp] theorem rwait_issueNow (c : LoopCall) (s : State) : rwait (issueNow c s) = rwait s := by simp [rwait]
@[simp] theorem phase_issueNow (c : LoopCall) (s : State) : phase (issueNow c s) = phase s := by simp [phase]
@[simp] theorem enPrev_issueNow (c : LoopCall) (s : State) : enPrev (issueNow c s) = enPrev s := by simp [enPrev]

@[simp] theorem rstate_endPoll (s : State) : rstate (endPoll s) = rstate s := by simp [rstate]
@[simp] theorem rwait_endPoll (s : State) : rwait (endPoll s) = rwait s := by simp [rwait]
@[simp] theorem phase_endPoll (s : State) : phase (endPoll s) = some .edge := by simp [phase]
@[simp] theorem enPrev_endPoll (s : State) : enPrev (endPoll s) = enPrev s := by simp [enPrev]

end Sys2Proof.Machine
end

