-- ==== Sys2Proof/Laws/Clock.lean ====
section
/-! SUPPORT. Clock.lean: the time function (R104): its range, and how the two clock events move it. -/

namespace Sys2Proof.Machine

theorem subPhase_lt {c : Config} {sub : Nat} (h : sub < c.subMod) : subPhase c sub < c.subMod := by
  unfold subPhase; split <;> omega

theorem subAt_lt {c : Config} {ph : Nat} (h : ph < c.subMod) : subAt c ph < c.subMod := by
  unfold subAt; split <;> omega

@[simp] theorem subPhase_subAt {c : Config} {ph : Nat} (h : ph < c.subMod) : subPhase c (subAt c ph) = ph := by
  unfold subAt subPhase; split <;> simp_all; omega

/-- `sub_us` is at most 999 (R104). -/
theorem subUs_le {c : Config} {sub : Nat} (h : sub < c.subMod) : subUs c sub ≤ 999 := by
  have hp := subPhase_lt h
  unfold subUs
  have : subPhase c sub * 1000 / c.subMod < 1000 := by
    rw [Nat.div_lt_iff_lt_mul (by omega)]
    calc subPhase c sub * 1000 < c.subMod * 1000 := by omega
      _ = 1000 * c.subMod := by omega
  omega

/-- `sub_us` is non-decreasing in the phase (R104). -/
theorem subUs_mono {c : Config} {a b : Nat} (h : subPhase c a ≤ subPhase c b) : subUs c a ≤ subUs c b :=
  Nat.div_le_div_right (Nat.mul_le_mul_right 1000 h)

theorem ticksMax_le (c : Config) : ticksMax c ≤ 18446744073709550 := Nat.min_le_right ..

/-- An admitted time fits 64 bits (R104). -/
theorem us_le {c : Config} {ticks sub : Nat} (ht : ticks ≤ ticksMax c) (hs : sub < c.subMod) :
    us c ticks sub ≤ 18446744073709550999 := by
  have h1 := subUs_le hs
  have h2 := ticksMax_le c
  unfold us Config.usPerTick
  omega

theorem clockUs_le {s : State} (h : ClockInv s) : clockUs s ≤ 18446744073709550999 := us_le h.ticks_le h.sub_lt

/-- The same clock registers and parameters give the same time. -/
theorem clockUs_congr {s t : State} (hc : t.cfg = s.cfg) (ht : t.ticks = s.ticks) (hs : t.sub = s.sub) :
    clockUs t = clockUs s := by simp only [clockUs, hc, ht, hs]

/-- The sample of an attempt as a number: nothing is lost in 64 bits (R115). -/
theorem nowSample_toNat {s : State} (ht : s.t1 ≤ ticksMax s.cfg) (hs : s.sLatch < s.cfg.subMod) :
    (nowSample s).toNat = us s.cfg s.t1 s.sLatch := by
  have := us_le ht hs
  simp only [nowSample, BitVec.toNat_ofNat]
  exact Nat.mod_eq_of_lt (by omega)

/-- SUB one count on, when CNT is enabled: the phase grows by one (R100). -/
theorem subPhase_cnt {c : Config} {sub : Nat} (hs : sub < c.subMod) (h : subPhase c sub + 1 < c.subMod) :
    subPhase c (subCount c sub) = subPhase c sub + 1 := by
  unfold subPhase subCount at *
  cases hd : c.subDir <;> simp only [hd] at * ; omega

/-- `us` grows with the phase inside one tick (R104). -/
theorem us_mono {c : Config} {ticks a b : Nat} (h : subPhase c a ≤ subPhase c b) : us c ticks a ≤ us c ticks b := by
  have := subUs_mono h
  unfold us
  omega

theorem subCount_lt {c : Config} {sub : Nat} (hs : sub < c.subMod) (h : subPhase c sub + 1 < c.subMod) :
    subCount c sub < c.subMod := by
  unfold subPhase at h
  unfold subCount
  generalize c.subDir = d at h ⊢
  cases d <;> dsimp only at h ⊢ <;> omega

/-- A tick later is at least the next whole millisecond (R104). -/
theorem us_tick {c : Config} {ticks sub sub' : Nat} (hs : sub < c.subMod) : us c ticks sub < us c (ticks + 1) sub' := by
  have := subUs_le hs
  unfold us Config.usPerTick
  omega

end Sys2Proof.Machine
end

