-- ==== Sys2Proof/Laws/Ops.lean ====
section
/-! SUPPORT. Ops.lean: what each shared operation can do, said once. -/

namespace Sys2Proof.Machine

/-! ## Guards -/

@[simp] theorem readerIdle_iff {s : State} : readerIdle s = true ↔ rstate s = some .idle := by simp [readerIdle]

theorem hostPortOpen_iff {s : State} :
    hostPortOpen s = true ↔ rstate s = some .idle ∧ s.call = .idle ∧ phase s = some .wait ∧ s.driveCall = false := by
  simp [hostPortOpen, and_assoc]

theorem driveCallOpen_iff {s : State} :
    driveCallOpen s = true ↔ rstate s = some .idle ∧ s.call = .idle ∧ s.driveCall = true := by
  simp [driveCallOpen, and_assoc]

/-- An operation of the reader that is issued was allowed. -/
theorem acceptWhen_next {b : Bool} {s t : State} {k : State → Result} (h : acceptWhen b s k = .next t) :
    b = true ∧ phase s ≠ none ∧ k s = .next t := by
  unfold acceptWhen at h
  split at h
  · cases h
  · cases h
  · rename_i h1 h2
    split at h
    · exact ⟨‹_›, by simp [h2], h⟩
    · cases h

theorem acceptWhen_eq {b : Bool} {s : State} {k : State → Result} (hb : b = true) (hr : rstate s ≠ none)
    (hp : phase s ≠ none) : acceptWhen b s k = k s := by
  obtain ⟨r, hr⟩ := Option.ne_none_iff_exists'.mp hr
  obtain ⟨p, hp⟩ := Option.ne_none_iff_exists'.mp hp
  simp [acceptWhen, hr, hp, hb]

/-- A host operation that runs met an open port. -/
theorem acceptHost_next {s t : State} {k : State → Result} (h : acceptHost s k = .next t) :
    hostPortOpen s = true ∧ k s = .next t :=
  ⟨(acceptWhen_next h).1, (acceptWhen_next h).2.2⟩

theorem acceptHost_open {s : State} {k : State → Result} (h : hostPortOpen s = true) : acceptHost s k = k s := by
  obtain ⟨hr, _, hp, _⟩ := hostPortOpen_iff.mp h
  exact acceptWhen_eq h (by simp [hr]) (by simp [hp])

/-- An event of the loop that goes on was at its phase. -/
theorem atPhase_next {p : Phase} {s t : State} {k : State → Result} (h : atPhase p s k = .next t) :
    phase s = some p ∧ k s = .next t := by
  unfold atPhase at h
  split at h
  · cases h
  · split at h
    · subst_vars; exact ⟨‹_›, h⟩
    · cases h

theorem atPhase_eq {p : Phase} {s : State} {k : State → Result} (h : phase s = some p) : atPhase p s k = k s := by
  simp [atPhase, h]

theorem betweenCalls_next {s t : State} {k : State → Result} (h : betweenCalls s k = .next t) :
    rstate s = some .idle ∧ s.call = .idle ∧ k s = .next t := by
  unfold betweenCalls at h
  split at h
  · cases h
  · split at h
    · rename_i hc
      simp only [Bool.and_eq_true, readerIdle_iff, decide_eq_true_eq] at hc
      exact ⟨hc.1, hc.2, h⟩
    · cases h

theorem betweenCalls_eq {s : State} {k : State → Result} (hr : rstate s = some .idle) (hc : s.call = .idle) :
    betweenCalls s k = k s := by simp [betweenCalls, hr, hc, readerIdle]

/-- An operation with a NOW of its own either goes on with the NOW complete, or issues it. -/
theorem withNow_next {c : LoopCall} {k : State → Result} {s t : State} (h : withNow c k s = .next t) :
    rstate s = some .idle ∧
      ((s.call = c ∧ k { s with call := .idle } = .next t) ∨ (s.call.awaitsNow = false ∧ t = issueNow c s)) := by
  unfold withNow at h
  split at h
  · cases h
  · split at h
    · rename_i hr
      refine ⟨readerIdle_iff.mp hr, ?_⟩
      split at h
      · exact .inl ⟨‹_›, h⟩
      · split at h
        · cases h
        · rename_i hw
          refine .inr ⟨by simpa using hw, ?_⟩
          cases h; rfl
    · cases h

theorem withNow_complete {c : LoopCall} {k : State → Result} {s : State} (hr : rstate s = some .idle) (hc : s.call = c) :
    withNow c k s = k { s with call := .idle } := by simp [withNow, hr, hc, readerIdle]

theorem withNow_issue {c : LoopCall} {k : State → Result} {s : State} (hr : rstate s = some .idle)
    (hc : s.call.awaitsNow = false) (hn : c.awaitsNow = true) : withNow c k s = .next (issueNow c s) := by
  have : s.call ≠ c := fun h => by simp [h, hn] at hc
  simp [withNow, hr, hc, this, readerIdle]

/-! ## The reader -/

/-- The end of an attempt that met no tick: NOWVAL is the sample, and the reader starts over (a BLOCK_UNTIL short of its
deadline) or is idle; only NOWVAL, RCTL and the host port's completions change. -/
theorem finishAttempt_spec (s : State) :
    (rwait s = true ∧ ¬ s.deadline ≤ nowSample s ∧ finishAttempt s = setRState .t1 { s with nowval := nowSample s }) ∨
    (∃ rs, (rwait s = true → s.deadline ≤ nowSample s) ∧
      finishAttempt s = { s with nowval := nowSample s, rctl := ctl false RState.idle.code, responses := rs }) := by
  unfold finishAttempt
  dsimp only
  by_cases hw : rwait s = true
  · by_cases hd : s.deadline ≤ nowSample s
    · refine .inr ⟨if hostOwnsReader s then s.responses ++ [none] else s.responses, fun _ => hd, ?_⟩
      rw [if_pos hw, if_pos hd]
      split <;> rfl
    · refine .inl ⟨hw, hd, ?_⟩
      rw [if_pos hw, if_neg hd]
  · refine .inr ⟨if hostOwnsReader s then s.responses ++ [some (nowSample s)] else s.responses, fun h => absurd h hw, ?_⟩
    have hc : ctlFlag s.rctl = false := by simpa [rwait] using hw
    rw [if_neg hw]
    split <;> simp [respond, setRState, rwait, hc]

/-! ## The reader's invariant -/

/-- The reader's invariant reads the clock, the reader's registers and the parameters, and nothing else. -/
theorem ReaderInv.congr {s t : State} (h : ReaderInv s) (hcfg : t.cfg = s.cfg) (hc : SameClock s t)
    (hr : SameReader s t) : ReaderInv t := by
  obtain ⟨h1, h2⟩ := hc
  obtain ⟨r1, r2, r3, r4, r5, r6⟩ := hr
  simpa only [ReaderInv, pairBounds, clockUs, rstate_congr r6, rwait_congr r6, hcfg, h1, h2, r1, r2, r3, r4] using h

theorem ReaderInv.of_idle {s : State} (hr : rstate s = some .idle) (hw : rwait s = false) : ReaderInv s := by
  simp [ReaderInv, hr, hw]

theorem ReaderInv.rwait_idle {s : State} (h : ReaderInv s) (hr : rstate s = some .idle) : rwait s = false := by
  simpa [ReaderInv, hr] using h

/-! ## The deduplicator -/

/-- `poll()` clears READY and shifts, or changes nothing (R165). -/
theorem afterPoll_eq (s : State) :
    afterPoll s = if s.slot.ready then
      { s with slot := { s.slot with ready := false }, dprev := s.dcur, dcur := some s.slot.cmd } else s := by
  unfold afterPoll claim
  cases h : s.slot.ready <;> simp

theorem pollResult_eq (s : State) :
    pollResult s = if s.slot.ready then verified s.dcur (some s.slot.cmd) else none := by
  unfold pollResult claim
  cases h : s.slot.ready <;> simp

/-- Verified means two equal commands in a row (R36, R165). -/
theorem verified_eq_some {p q : Option Command} {c : Command} :
    verified p q = some c ↔ p = some c ∧ q = some c := by
  unfold verified
  rcases p with _ | a <;> rcases q with _ | b
  · simp
  · simp
  · simp
  · simp only [Option.some.injEq]
    split
    · rename_i h
      have hab : a = b := by cases a; cases b; simp_all
      subst hab; simp
    · rename_i h
      simp only [reduceCtorEq, false_iff]
      rintro ⟨rfl, rfl⟩
      exact h ⟨rfl, rfl⟩

/-! ## Emissions -/

theorem mapNext_next {f : State → State} {r : Result} {t : State} (h : mapNext f r = .next t) :
    ∃ u, r = .next u ∧ t = f u := by
  unfold mapNext at h
  split at h
  · cases h; exact ⟨_, rfl, rfl⟩
  · cases h
  · cases h

/-- A drive command that is emitted was due. -/
theorem whenDue_next {d : Drive} {s t : State} {k : State → Result} (h : whenDue d s k = .next t) :
    rstate s = some .idle ∧ s.call = .idle ∧ dueCommand s = some d ∧ k s = .next t := by
  unfold whenDue at h
  split at h
  · cases h
  · obtain ⟨hr, hc, h⟩ := betweenCalls_next h
    split at h
    · exact ⟨hr, hc, ‹_›, h⟩
    · cases h

theorem whenDue_eq {d : Drive} {s : State} {k : State → Result} (hr : rstate s = some .idle) (hc : s.call = .idle)
    (hd : dueCommand s = some d) : whenDue d s k = k s := by
  cases hp : phase s with
  | none => simp [dueCommand, hp] at hd
  | some p => simp [whenDue, hp, betweenCalls_eq hr hc, hd]

theorem emitStep_next {d : Drive} {n : Int} {s t : State} (h : emitStep d n s = .next t) :
    stepsAdmitted s.cfg n = true ∧ t = emit d s := by
  unfold emitStep at h
  split at h
  · cases h; exact ⟨‹_›, rfl⟩
  · cases h

theorem edgeCommand_eq_some {s : State} {d : Drive} : edgeCommand s = some d ↔
    (s.motion.enabled = true ∧ enPrev s = false ∧ d = .enable) ∨
      (s.motion.enabled = false ∧ enPrev s = true ∧ d = .disable) := by
  unfold edgeCommand getEnabled
  cases s.motion.enabled <;> cases enPrev s <;> simp [eq_comm]

theorem stepCommand_eq_some {s : State} {d : Drive} : stepCommand s = some d ↔
    (s.actualSteps < s.target ∧ d = .stepFwd) ∨ (s.target < s.actualSteps ∧ d = .stepRev) := by
  unfold stepCommand
  split
  · simp [*, eq_comm]; omega
  · split <;> simp [*, eq_comm]

/-- A command is due only at P_EDGE or P_STEP. -/
theorem dueCommand_eq_some {s : State} {d : Drive} : dueCommand s = some d ↔
    (phase s = some .edge ∧ edgeCommand s = some d) ∨ (phase s = some .step ∧ stepCommand s = some d) := by
  unfold dueCommand
  split <;> simp_all

/-! ## Steps of the loop -/

theorem stepTo_next {d : Drive} {n : Int} {s t : State} (h : stepTo d n s = .next t) :
    stepsAdmitted s.cfg n = true ∧ t = endStep n (emit d s) := by
  obtain ⟨u, hu, rfl⟩ := mapNext_next h
  obtain ⟨ha, rfl⟩ := emitStep_next hu
  exact ⟨ha, rfl⟩

/-- MotionState after an evaluation: unchanged, or with the forced stop complete (R177). -/
theorem evaluate_motion {A : Arith} {m : Motion} {now : Word} {e : Evaluation} (h : evaluate A m now = .ok e) :
    e.motion = m ∨ (m.stopNeeded = true ∧ e.motion = completeStop m now e.pos) := by
  unfold evaluate at h
  dsimp only at h
  split at h
  · split at h
    · cases h
      by_cases hc : (m.stopNeeded &&
          (velocityBranch A m (if m.stopNeeded = true then F64.zero else m.targetVelocity) (elapsed A m.t0 now)).cruise) = true
      · exact .inr ⟨(Bool.and_eq_true_iff.mp hc).1, if_pos hc⟩
      · exact .inl (if_neg hc)
    · cases h
  · split at h
    · cases h; exact .inl rfl
    · cases h

theorem targetSteps_ok {A : Arith} {c : Config} {m m' : Motion} {now : Word} {n : Int}
    (h : targetSteps A c m now = .ok (n, m')) :
    ∃ e, evaluate A m now = .ok e ∧ degreesToSteps A e.pos m.stepsPerRev = some n ∧
      fitsSigned c.stepW n = true ∧ m' = e.motion := by
  unfold targetSteps at h
  split at h
  · cases h
  · split at h
    · cases h
    · split at h
      · cases h; exact ⟨_, ‹_›, ‹_›, ‹_›, rfl⟩
      · cases h

theorem capture_ok {m m' : Motion} {n : Word} (h : capture m n = .ok m') :
    ∃ e, evaluate binary64 m n = .ok e ∧ m' = { m with t0 := n, p0 := e.pos, v0 := e.vel } := by
  unfold capture at h
  split at h
  · cases h
  · cases h; exact ⟨_, ‹_›, rfl⟩

end Sys2Proof.Machine
end

