-- ==== Sys2Proof/Laws/Exec.lean ====
section
/-! SUPPORT. Exec.lean: one inversion lemma per operation: if it answers a next state, then what it did. -/

namespace Sys2Proof.Machine

variable {s t : State}

/-! ## Unit CLK -/

theorem execCnt_next (h : execCnt s = .next t) :
    subPhase s.cfg s.sub + 1 < s.cfg.subMod ∧
      t = { s with sub := subCount s.cfg s.sub } := by
  unfold execCnt at h
  split at h
  · cases h; exact ⟨‹_›, rfl⟩
  · cases h

theorem execTick_next (h : execTick s = .next t) :
    subPhase s.cfg s.sub + 1 = s.cfg.subMod ∧ s.ticks < ticksMax s.cfg ∧
      t = { s with ticks := s.ticks + 1, sub := subAt s.cfg 0 } := by
  unfold execTick at h
  split at h
  · split at h
    · cases h; exact ⟨‹_›, ‹_›, rfl⟩
    · cases h
  · cases h

theorem execRdt_next (h : execRdt s = .next t) :
    hostPortOpen s = true ∧ t = respond (some (readReg s .ticks)) s := by
  obtain ⟨h1, h3⟩ := acceptHost_next h
  cases h3; exact ⟨h1, rfl⟩

theorem execRds_next (h : execRds s = .next t) :
    hostPortOpen s = true ∧ t = respond (some (readReg s .sub)) s := by
  obtain ⟨h1, h3⟩ := acceptHost_next h
  cases h3; exact ⟨h1, rfl⟩

/-- NOW is issued, or takes the reader's next step. -/
theorem execNow_next (h : execNow s = .next t) :
    (hostPortOpen s = true ∧ t = setRState .t1 s) ∨
      (∃ r, rstate s = some r ∧ r ≠ .idle ∧ rwait s = false ∧ t = readerStep r s) := by
  unfold execNow at h
  split at h
  · cases h
  · obtain ⟨h1, h3⟩ := acceptHost_next h
    cases h3; exact .inl ⟨h1, rfl⟩
  · rename_i r hr _
    split at h
    · cases h
    · cases h
      refine .inr ⟨r, ‹_›, ?_, by simp_all, rfl⟩
      rintro rfl; simp_all

/-- BLOCK_UNTIL is issued, or takes the reader's next step. -/
theorem execBlockUntil_next {d : Word} (h : execBlockUntil d s = .next t) :
    ((hostPortOpen s = true ∨ driveCallOpen s = true) ∧ phase s ≠ none ∧
        t = setRCtl true .t1 { s with deadline := d }) ∨
      (∃ r, rstate s = some r ∧ r ≠ .idle ∧ rwait s = true ∧ s.deadline = d ∧ t = readerStep r s) := by
  unfold execBlockUntil at h
  split at h
  · cases h
  · obtain ⟨h1, h2, h3⟩ := acceptWhen_next h
    cases h3; exact .inl ⟨by simpa using h1, h2, rfl⟩
  · rename_i r hr _
    split at h
    · rename_i hc
      simp only [Bool.and_eq_true, decide_eq_true_eq] at hc
      cases h
      refine .inr ⟨r, ‹_›, ?_, hc.1, hc.2, rfl⟩
      rintro rfl; simp_all
    · cases h

/-! ## Unit SEQ -/

/-- SCHED issues its NOW, or makes the due test. -/
theorem execSched_next (h : execSched s = .next t) :
    phase s = some .wait ∧ rstate s = some .idle ∧
      ((s.call = .schedNow ∧ t = schedTest { s with call := .idle }) ∨
        (s.call.awaitsNow = false ∧ t = issueNow .schedNow s)) := by
  obtain ⟨hp, h⟩ := atPhase_next h
  obtain ⟨hr, h | h⟩ := withNow_next h
  · obtain ⟨hc, h⟩ := h
    cases h; exact ⟨hp, hr, .inl ⟨hc, rfl⟩⟩
  · exact ⟨hp, hr, .inr h⟩

theorem execPoll_next (h : execPoll s = .next t) :
    phase s = some .poll ∧ rstate s = some .idle ∧ s.call = .idle ∧
      ((∃ c, pollResult s = some c ∧ t = { endDriveCall (afterPoll s) with call := .handle c }) ∨
        (pollResult s = none ∧ t = endPoll (endDriveCall (afterPoll s)))) := by
  obtain ⟨hp, h⟩ := atPhase_next h
  obtain ⟨hr, hc, h⟩ := betweenCalls_next h
  refine ⟨hp, hr, hc, ?_⟩
  dsimp only at h
  split at h
  · cases h; exact .inl ⟨_, ‹_›, rfl⟩
  · cases h; exact .inr ⟨‹_›, rfl⟩

theorem execEdge_next (h : execEdge s = .next t) :
    phase s = some .edge ∧ rstate s = some .idle ∧ s.call = .idle ∧
      ((∃ d, edgeCommand s = some d ∧ t = endEdge (emit d s)) ∨
        (s.motion.enabled = enPrev s ∧ t = endEdge (endDriveCall s))) := by
  obtain ⟨hp, h⟩ := atPhase_next h
  obtain ⟨hr, hc, h⟩ := betweenCalls_next h
  refine ⟨hp, hr, hc, ?_⟩
  dsimp only at h
  split at h
  · cases h; exact .inl ⟨_, ‹_›, rfl⟩
  · rename_i hn
    cases h
    refine .inr ⟨?_, rfl⟩
    revert hn
    unfold edgeCommand getEnabled
    cases s.motion.enabled <;> cases enPrev s <;> simp

/-- EVAL issues its NOW, or latches the sample and the target. -/
theorem execEval_next (h : execEval s = .next t) :
    phase s = some .eval ∧ rstate s = some .idle ∧
      ((s.call = .evalNow ∧ ∃ n m, targetSteps binary64 s.cfg s.motion s.nowval = .ok (n, m) ∧
          t = setPhase .step { s with call := .idle, tsample := s.nowval, target := n, motion := m }) ∨
        (s.call.awaitsNow = false ∧ t = issueNow .evalNow s)) := by
  obtain ⟨hp, h⟩ := atPhase_next h
  obtain ⟨hr, h | h⟩ := withNow_next h
  · obtain ⟨hc, h⟩ := h
    unfold evalTarget at h
    split at h
    · cases h
    · rename_i n m hm
      cases h
      exact ⟨hp, hr, .inl ⟨hc, n, m, hm, rfl⟩⟩
  · exact ⟨hp, hr, .inr h⟩

theorem execStep_next (h : execStep s = .next t) :
    phase s = some .step ∧ rstate s = some .idle ∧ s.call = .idle ∧
      ((s.actualSteps < s.target ∧ stepsAdmitted s.cfg (s.actualSteps + 1) = true ∧
          t = endStep (s.actualSteps + 1) (emit .stepFwd s)) ∨
        (s.target < s.actualSteps ∧ stepsAdmitted s.cfg (s.actualSteps - 1) = true ∧
          t = endStep (s.actualSteps - 1) (emit .stepRev s)) ∨
        (s.target = s.actualSteps ∧ t = endStep s.actualSteps (endDriveCall s))) := by
  obtain ⟨hp, h⟩ := atPhase_next h
  obtain ⟨hr, hc, h⟩ := betweenCalls_next h
  refine ⟨hp, hr, hc, ?_⟩
  dsimp only at h
  split at h
  · exact .inl ⟨‹_›, stepTo_next h⟩
  · split at h
    · exact .inr (.inl ⟨‹_›, stepTo_next h⟩)
    · cases h
      exact .inr (.inr ⟨by omega, rfl⟩)

/-! ## The drive commands -/

theorem execEnable_next (h : execEnable s = .next t) : rstate s = some .idle ∧ s.call = .idle ∧ phase s = some .edge ∧
    s.motion.enabled = true ∧ enPrev s = false ∧ t = emit .enable s := by
  obtain ⟨hr, hc, hd, h⟩ := whenDue_next h
  cases h
  simpa [hr, hc, dueCommand_eq_some, edgeCommand_eq_some, stepCommand_eq_some] using hd

theorem execDisable_next (h : execDisable s = .next t) : rstate s = some .idle ∧ s.call = .idle ∧ phase s = some .edge ∧
    s.motion.enabled = false ∧ enPrev s = true ∧ t = emit .disable s := by
  obtain ⟨hr, hc, hd, h⟩ := whenDue_next h
  cases h
  simpa [hr, hc, dueCommand_eq_some, edgeCommand_eq_some, stepCommand_eq_some] using hd

theorem execStepFwd_next (h : execStepFwd s = .next t) : rstate s = some .idle ∧ s.call = .idle ∧ phase s = some .step ∧
    s.actualSteps < s.target ∧ stepsAdmitted s.cfg (s.actualSteps + 1) = true ∧ t = emit .stepFwd s := by
  obtain ⟨hr, hc, hd, h⟩ := whenDue_next h
  obtain ⟨ha, rfl⟩ := emitStep_next h
  simpa [hr, hc, ha, dueCommand_eq_some, edgeCommand_eq_some, stepCommand_eq_some] using hd

theorem execStepRev_next (h : execStepRev s = .next t) : rstate s = some .idle ∧ s.call = .idle ∧ phase s = some .step ∧
    s.target < s.actualSteps ∧ stepsAdmitted s.cfg (s.actualSteps - 1) = true ∧ t = emit .stepRev s := by
  obtain ⟨hr, hc, hd, h⟩ := whenDue_next h
  obtain ⟨ha, rfl⟩ := emitStep_next h
  simpa [hr, hc, ha, dueCommand_eq_some, edgeCommand_eq_some, stepCommand_eq_some] using hd

/-! ## The wire commands -/

theorem execSr_next {v : F64} (h : execSr v s = .next t) :
    ∃ n, sprOperand s.cfg v = .ok n ∧ t = { s with motion := { s.motion with stepsPerRev := n } } := by
  unfold execSr at h
  split at h
  · cases h; exact ⟨_, ‹_›, rfl⟩
  · cases h

theorem execTp_next {v : F64} (h : execTp v s = .next t) :
    rstate s = some .idle ∧
      ((s.call = .handleNow ⟨codeTp, v⟩ ∧ ∃ m, capture s.motion s.nowval = .ok m ∧
          t = { s with call := .idle,
                       motion := { m with targetPosition := v, mode := .position, stopNeeded := true } }) ∨
        (s.call.awaitsNow = false ∧ t = issueNow (.handleNow ⟨codeTp, v⟩) s)) := by
  obtain ⟨hr, h | h⟩ := withNow_next h
  · obtain ⟨hc, h⟩ := h
    unfold targetPositionSet at h
    split at h
    · cases h
    · rename_i m hm
      cases h
      exact ⟨hr, .inl ⟨hc, m, hm, rfl⟩⟩
  · exact ⟨hr, .inr h⟩

theorem execTv_next {v : F64} (h : execTv v s = .next t) :
    rstate s = some .idle ∧
      ((s.call = .handleNow ⟨codeTv, v⟩ ∧ ∃ m, capture s.motion s.nowval = .ok m ∧
          t = { s with call := .idle,
                       motion := { m with targetVelocity := v, mode := .velocity, stopNeeded := false } }) ∨
        (s.call.awaitsNow = false ∧ t = issueNow (.handleNow ⟨codeTv, v⟩) s)) := by
  obtain ⟨hr, h | h⟩ := withNow_next h
  · obtain ⟨hc, h⟩ := h
    unfold targetVelocitySet at h
    split at h
    · cases h
    · rename_i m hm
      cases h
      exact ⟨hr, .inl ⟨hc, m, hm, rfl⟩⟩
  · exact ⟨hr, .inr h⟩

/-! ## BYTE -/

theorem execByte_next {c : Byte} (h : execByte c s = .next t) :
    t = { s with parser := (consumeByte c s.parser).1, slot := publish s.slot (consumeByte c s.parser).2 } := by
  cases h; rfl

end Sys2Proof.Machine
end

