-- ==== Sys2Proof/Laws/Run.lean ====
section
/-! SUPPORT. Run.lean: what one step of the block can be. -/

namespace Sys2Proof.Machine

variable {s t : State}

/-- A step of the main context runs the operation it chose, and ends POLL when that was a command and is done; or ends POLL
on an unknown code. -/
theorem mainStep_next (h : mainStep s = .next t) :
    (∃ i u, mainChoice s = .run i ∧ exec i s = .next u ∧
        t = if s.call.handling && !u.call.awaitsNow then endPoll u else u) ∨
      (mainChoice s = .endOfPoll ∧ t = endPoll s) := by
  unfold mainStep at h
  split at h
  · rename_i i hi
    unfold closeHandle at h
    split at h
    · rename_i u hu
      refine .inl ⟨i, u, hi, hu, ?_⟩
      split at h <;> cases h <;> rename_i hc <;> simp [hc]
    · rename_i hn
      exact absurd h (hn t)
  · cases h; exact .inr ⟨‹_›, rfl⟩
  · cases h

/-- Where the main context's choice comes from. -/
theorem mainChoice_run {i : Instr} (h : mainChoice s = .run i) :
    ∃ r p, rstate s = some r ∧ phase s = some p ∧
      ((r ≠ .idle ∧ rwait s = true ∧ i = .blockUntil s.deadline) ∨ (r ≠ .idle ∧ rwait s = false ∧ i = .now) ∨
        (r = .idle ∧ s.call = .idle ∧ i = phaseInstr p) ∨ (r = .idle ∧ s.call = .schedNow ∧ i = .sched) ∨
        (r = .idle ∧ s.call = .evalNow ∧ i = .eval) ∨
        (r = .idle ∧ ∃ c, (s.call = .handle c ∨ s.call = .handleNow c) ∧ instrOfCommand c = some i)) := by
  unfold mainChoice at h
  split at h
  · cases h
  · cases h
  · rename_i p hr hp
    refine ⟨_, p, hr, hp, ?_⟩
    split at h <;> (try unfold handleChoice at h; split at h) <;> first | (cases h; done) | (cases h; simp_all)
  · rename_i r p hn hr hp
    have hne : r ≠ .idle := hn
    refine ⟨r, p, hr, hp, ?_⟩
    split at h <;> cases h <;> simp_all

theorem mainChoice_endOfPoll (h : mainChoice s = .endOfPoll) :
    rstate s = some .idle ∧ ∃ c, (s.call = .handle c ∨ s.call = .handleNow c) ∧ instrOfCommand c = none := by
  unfold mainChoice at h
  split at h
  · cases h
  · cases h
  · rename_i p hr hp
    refine ⟨hr, ?_⟩
    split at h <;> (try unfold handleChoice at h; split at h) <;> first | (cases h; done) | simp_all
  · split at h <;> cases h

theorem decodeEvent_ok {ev : BitVec 4} {c : Byte} {i : Instr} (h : decodeEvent ev c = .ok i) :
    i = .cnt ∨ i = .tick ∨ i = .byte c ∨ i = .sched ∨ i = .poll ∨ i = .edge ∨ i = .eval ∨ i = .step := by
  unfold decodeEvent at h
  repeat (split at h; · cases h; simp)
  cases h

theorem decodeHost_ok {w : BitVec 68} {i : Instr} (h : decodeHost w = .ok i) :
    i = .now ∨ i = .blockUntil (w.extractLsb' 4 64) ∨ i = .rdt ∨ i = .rds := by
  unfold decodeHost at h
  dsimp only at h
  repeat (split at h; · cases h; simp)
  cases h

theorem decodeDrive_ok {d : BitVec 3} {i : Instr} (h : decodeDrive d = .ok i) :
    i = .enable ∨ i = .disable ∨ i = .stepFwd ∨ i = .stepRev := by
  unfold decodeDrive at h
  repeat (split at h; · cases h; simp)
  cases h

/-- A DRIVE code met in a trace is the step of the loop that emits it: EDGE or STEP. -/
theorem driveTurn_next {d : BitVec 3} (h : driveTurn d s = .next t) : execEdge s = .next t ∨ execStep s = .next t := by
  unfold driveTurn at h
  split at h
  · cases h
  · rename_i i hd
    obtain ⟨u, hu, rfl⟩ := mapNext_next h
    rcases decodeDrive_ok hd with rfl | rfl | rfl | rfl
    · obtain ⟨hr, hc, hp, h1, h2, rfl⟩ := execEnable_next hu
      exact .inl (by simp [execEdge, atPhase_eq hp, betweenCalls_eq hr hc, edgeCommand, getEnabled, h1, h2]; rfl)
    · obtain ⟨hr, hc, hp, h1, h2, rfl⟩ := execDisable_next hu
      exact .inl (by simp [execEdge, atPhase_eq hp, betweenCalls_eq hr hc, edgeCommand, getEnabled, h1, h2]; rfl)
    · obtain ⟨hr, hc, hp, h1, h2, rfl⟩ := execStepFwd_next hu
      refine .inr ?_
      simp [execStep, atPhase_eq hp, betweenCalls_eq hr hc, h1, stepTo, emitStep, h2, mapNext]
      rfl
    · obtain ⟨hr, hc, hp, h1, h2, rfl⟩ := execStepRev_next hu
      refine .inr ?_
      have h3 : ¬ s.actualSteps < s.target := by omega
      simp [execStep, atPhase_eq hp, betweenCalls_eq hr hc, h1, h3, stepTo, emitStep, h2, mapNext]
      rfl

/-- A step is a turn taken in a state that holds no code outside the spec (R26, R31). -/
theorem takeTurn_next (h : takeTurn s = .next t) : rstate s ≠ none ∧ phase s ≠ none ∧ nextTurn s = .next t := by
  unfold takeTurn at h
  split at h
  · cases h
  · cases h
  · rename_i h1 h2
    exact ⟨by simp [h1], by simp [h2], h⟩

/-- One turn: the main context moves, from this state or from the state with its turn gone; or the first turn names an
operation, which runs with the turn gone: an event, a host operation at the open port, the stepping collaborator's
BLOCK_UNTIL, or the EDGE or STEP that emits a drive command. -/
theorem nextTurn_next (h : nextTurn s = .next t) :
    (mainStep s = .next t) ∨
      (∃ rest, s.schedule = .main :: rest ∧ mainStep { s with schedule := rest } = .next t) ∨
      (∃ ev c rest i, s.schedule = .event ev c :: rest ∧ decodeEvent ev c = .ok i ∧
          exec i { s with schedule := rest } = .next t) ∨
      (∃ hl w rest i, s.schedule = .host hl w :: rest ∧ decodeHost w = .ok i ∧ hostPortOpen (endDriveCall s) = true ∧
          exec i { endDriveCall s with schedule := rest } = .next t) ∨
      (∃ d rest, s.schedule = .collaborator d :: rest ∧ driveCallOpen s = true ∧
          exec (.blockUntil d) { s with schedule := rest } = .next t) ∨
      (∃ d rest, s.schedule = .drive d :: rest ∧
          (execEdge { s with schedule := rest } = .next t ∨ execStep { s with schedule := rest } = .next t)) := by
  unfold nextTurn at h
  split at h
  · exact .inl h
  · exact .inr (.inl ⟨_, ‹_›, h⟩)
  · rename_i ev c rest hs
    unfold runDecoded at h
    split at h
    · exact .inr (.inr (.inl ⟨ev, c, rest, _, hs, ‹_›, h⟩))
    · cases h
  · rename_i hl w rest hs
    unfold hostTurn at h
    split at h
    · cases h
    · split at h
      · cases h
      · split at h
        · exact .inr (.inr (.inr (.inl ⟨hl, w, rest, _, hs, ‹_›, ‹_›, h⟩)))
        · exact .inl h
  · rename_i d rest hs
    unfold collaboratorTurn at h
    split at h
    · exact .inr (.inr (.inr (.inr (.inl ⟨d, rest, hs, ‹_›, h⟩))))
    · exact .inl h
  · rename_i d rest hs
    exact .inr (.inr (.inr (.inr (.inr ⟨d, rest, hs, driveTurn_next h⟩))))
  · cases h

theorem instrOfCommand_some {c : Command} {i : Instr} (h : instrOfCommand c = some i) :
    i = .en c.value ∨ i = .mv c.value ∨ i = .ma c.value ∨ i = .sr c.value ∨ i = .tp c.value ∨ i = .tv c.value := by
  unfold instrOfCommand instrOfPrefix at h
  repeat (split at h; · cases h; simp)
  cases h

end Sys2Proof.Machine
end

