-- ==== Sys2Proof/Certificates/Slice0/Obligations.lean ====
section
/-! DEFINITION. Obligations.lean: the statements for the provers, in the order of the spec's files. A next state written
`some state with some fields replaced` is the frame of the operation: every field not named is unchanged. Where that field is
unspecified there by the spec (R25, R30, R34, R35), that it is unchanged is the model's choice (log 27). -/

section

open Sys2Proof Sys2Proof.Machine

/-! ## Encodings (30_encoding.md) -/

/-- Every well-formed operation of all four formats comes back from its encoding, with every operand (R81 to R89). Which
literal `encode` writes is the model's choice (log 16). -/
def Obligations.EncodedInstructionDecodesToItself : Prop :=
  ∀ i : Instr, i.wellFormed = true → decode (encode i) = .ok i

/-- Words written out from the spec's tables decode to what the tables say (R83, R86, R88, R89; vectors E1, E2, S3). -/
def Obligations.WrittenWordsDecodeToTheirInstruction : Prop :=
  decodeHost 0xDEAD1#68 = .ok .now ∧
  decodeHost 0x17D42#68 = .ok (.blockUntil 6100#64) ∧
  decodeHost 0x3#68 = .ok .rdt ∧
  decodeHost 0x4#68 = .ok .rds ∧
  decodeDrive 0b001#3 = .ok .enable ∧
  decodeDrive 0b010#3 = .ok .disable ∧
  decodeDrive 0b100#3 = .ok .stepFwd ∧
  decodeDrive 0b101#3 = .ok .stepRev ∧
  decodeEvent 0x0#4 0#8 = .ok .cnt ∧
  decodeEvent 0x2#4 0x74#8 = .ok (.byte 0x74#8) ∧
  decodeEvent 0x7#4 0#8 = .ok .step ∧
  decode (.wire [0x74#8, 0x70#8, 0x3D#8, 0x0D#8]) = .ok (.tp 0#64)

/-- What a step refuses before it runs anything: a state whose RSTATE or PHASE holds 5, 6 or 7, whatever the next turn is (R26,
R31; the order of the two reasons is log 20); a reserved code of HOSTOP, DRIVE or EVENT in a request or a trace (R90), a NOW
or BLOCK_UNTIL requested from a context that holds off the tick (R113, R236), a byte from a second producer (R164). The
kinds of turn are the model's (log 6, log 9, log 18). -/
def Obligations.ForbiddenTurnsAreRefused : Prop :=
  (∀ s : State, 5#3 ≤ s.rctl.extractLsb' 0 3 → step s = .refused .badRstate) ∧
  (∀ s : State, s.rctl.extractLsb' 0 3 < 5#3 → 5#3 ≤ s.sctl.extractLsb' 0 3 → step s = .refused .badPhase) ∧
  (∀ s : State, s.rctl.extractLsb' 0 3 < 5#3 → s.sctl.extractLsb' 0 3 < 5#3 →
    (∀ (h : Bool) (w : BitVec 68) (rest : List Turn), s.schedule = .host h w :: rest →
      (w.extractLsb' 0 4 = 0#4 ∨ 5#4 ≤ w.extractLsb' 0 4) → step s = .refused .reservedCode) ∧
    (∀ (d : BitVec 3) (rest : List Turn), s.schedule = .drive d :: rest →
      (d = 0b000#3 ∨ d = 0b011#3 ∨ d = 0b110#3 ∨ d = 0b111#3) → step s = .refused .reservedCode) ∧
    (∀ (ev : BitVec 4) (c : Byte) (rest : List Turn), s.schedule = .event ev c :: rest → 8#4 ≤ ev →
      step s = .refused .reservedCode) ∧
    (∀ (w : BitVec 68) (rest : List Turn), s.schedule = .host true w :: rest →
      (w.extractLsb' 0 4 = 1#4 ∨ w.extractLsb' 0 4 = 2#4) → step s = .refused .readerBlocksTick) ∧
    (∀ (c : Byte) (rest : List Turn), s.schedule = .otherProducer c :: rest → step s = .refused .secondProducer))

/-- The other direction of the fixed-width formats: a code that decodes is the code of the operation it decodes to, and a
request word differs from it at most in an `arg` the operation ignores (R86, R88, R89). -/
def Obligations.OnlyTheListedCodesDecode : Prop :=
  (∀ (w : BitVec 68) (i : Instr), decodeHost w = .ok i →
    ∃ arg, w = hostWord arg (w.extractLsb' 0 4) ∧
      encode i = .host (hostWord (match i with | .blockUntil _ => arg | _ => 0#64) (w.extractLsb' 0 4))) ∧
  (∀ (d : BitVec 3) (i : Instr), decodeDrive d = .ok i → encode i = .drive d) ∧
  (∀ (ev : BitVec 4) (c : Byte) (i : Instr), decodeEvent ev c = .ok i →
    encode i = .event ev (match i with | .byte _ => c | _ => 0#8))

/-- A line of two lowercase letters, `=`, number characters and a carriage return or line feed is one command whatever
bytes follow; its value is that of the first 31 number characters (R81, R84, R91). -/
def Obligations.LineEndsAtItsTerminator : Prop :=
  ∀ (l1 l2 t : Byte) (num rest : List Byte), isLetter l1 = true → isLetter l2 = true → num.all isNumChar = true →
    isTerm t = true →
    decodeLine (l1 :: l2 :: 0x3D#8 :: (num ++ t :: rest)) = .ok (⟨⟨l1, l2⟩, literal (num.take 31)⟩, rest)

/-- The numeric literal (R84): the longest prefix `-? ( D+ ( . D* )? | . D+ )` gives the value, what follows is ignored, and
no prefix gives `+0.0`. `g` is what follows the prefix, `b` a text with no prefix after the sign. -/
def Obligations.LiteralTakesLongestPrefix : Prop :=
  ∀ (neg : Bool) (ip fp : List Byte), ip.all isDigit = true → fp.all isDigit = true →
    (∀ g : List Byte, ip ≠ [] → (∀ c r, g = c :: r → isDigit c = false ∧ c ≠ 0x2E#8) →
      literal ((if neg then [0x2D#8] else []) ++ ip ++ g) = F64.roundQ neg (digitsValue ip) 1) ∧
    (∀ g : List Byte, (ip ≠ [] ∨ fp ≠ []) → (∀ c r, g = c :: r → isDigit c = false) →
      literal ((if neg then [0x2D#8] else []) ++ ip ++ (0x2E#8 :: fp) ++ g) =
        F64.roundQ neg (digitsValue (ip ++ fp)) (10 ^ fp.length)) ∧
    (∀ b : List Byte, (∀ c r, b = c :: r → isDigit c = false) → (∀ c r, b = 0x2E#8 :: c :: r → isDigit c = false) →
      (neg = false → ∀ r, b ≠ 0x2D#8 :: r) → literal ((if neg then [0x2D#8] else []) ++ b) = 0#64)

/-! ## Rounding (R183, D24) -/

/-- The integer rounding every binary64 operation ends in: nearest, ties to even (D24). -/
def Obligations.QuotientRoundsToNearestEven : Prop :=
  ∀ n d : Nat, 0 < d →
    2 * (F64.roundDiv n d * d) ≤ 2 * n + d ∧ 2 * n ≤ 2 * (F64.roundDiv n d * d) + d ∧
    ((2 * (F64.roundDiv n d * d) = 2 * n + d ∨ 2 * n = 2 * (F64.roundDiv n d * d) + d) → F64.roundDiv n d % 2 = 0)

/-- A finite result of `roundQ` has the sign asked for and is a binary64 value whose magnitude is nearest to the exact
quotient: no binary64 value is nearer (D24). A finite value is `± m / 2^1074`, so the distances are compared times
`d * 2^1074`. -/
def Obligations.RoundedValueIsNearest : Prop :=
  ∀ (neg s s' : Bool) (n d m m' : Nat) (x : F64), 0 < d →
    F64.value (F64.roundQ neg n d) = .fin s m → F64.value x = .fin s' m' →
    s = neg ∧ ((m : Int) * d - n * 2 ^ 1074).natAbs ≤ ((m' : Int) * d - n * 2 ^ 1074).natAbs

/-! ## State, reset, the register space (10_state.md, 20_memory.md, 70_reset_and_hazards.md) -/

/-- What reset leaves, for every choice of the parameters: the values of the table of R41. The registers the table calls
unspecified are not named. -/
def Obligations.ResetLeavesItsTable : Prop :=
  ∀ c : Config,
    let s := State.resetOf c
    s.cfg = c ∧ s.ticks = 0 ∧ (0 < c.subMod → subPhase c s.sub = 0) ∧
    rstate s = some .idle ∧ rwait s = false ∧ s.nextRun = 0#64 ∧ s.actualSteps = 0 ∧
    phase s = some .wait ∧ enPrev s = false ∧ s.parser.pstate = .reset ∧ s.parser.numlen = 0 ∧
    s.slot.ready = false ∧ s.dprev = none ∧ s.dcur = none ∧
    s.motion.mode = c.defMode ∧
    (c.defMode = .position → s.motion.targetPosition = c.defTarget) ∧
    (c.defMode = .velocity → s.motion.targetVelocity = c.defTarget) ∧
    s.motion.maxVelocity = c.defMaxVelocity ∧ s.motion.maxAcceleration = c.defMaxAcceleration ∧
    s.motion.stepsPerRev = c.defStepsPerRev ∧ s.motion.enabled = c.defEnabled ∧
    s.motion.t0 = 0#64 ∧ s.motion.p0 = 0#64 ∧ s.motion.v0 = 0#64 ∧ s.motion.stopNeeded = false ∧
    s.drives = [] ∧ memRead s 0x40 8 = .ok 100#64

/-- The invariant of the block holds after reset, for every admitted choice of the parameters (R8, R41). It bounds NOWVAL, which
the spec leaves unspecified at reset (R24, R41), and holds there by the zero the model chose (log 3). -/
def Obligations.ResetMeetsInvariant : Prop :=
  ∀ c : Config, c.wf → Inv (State.resetOf c)

/-- Every step keeps the invariant of the block: the admitted clock (R21, R22), the reader's latches (R23, R26, R107), the
loop's phase and call (R31, R113, R139), the order of the times the block holds (R28, R112), the parser's buffer (R34),
the step counter and its stream (R29, R132 e), the rest at the start of a Position segment (R38). -/
def Obligations.StepKeepsInvariant : Prop :=
  ∀ s t : State, Inv s → step s = .next t → Inv t

/-- The register space (R61): a whole register at its own offset reads as the register, zero-extended, or sign-extended for
ACTUAL_STEPS and TARGET; every other access is `refuse(bad_register_access)`, every write `refuse(register_write)`. -/
def Obligations.RegisterSpaceReadsWholeRegisters : Prop :=
  ∀ s : State,
    memRead s 0x00 8 = .ok (BitVec.ofNat 64 s.ticks) ∧
    memRead s 0x08 8 = .ok (BitVec.ofNat 64 s.sub) ∧
    memRead s 0x10 8 = .ok (BitVec.ofNat 64 s.t1) ∧
    memRead s 0x18 8 = .ok (BitVec.ofNat 64 s.sLatch) ∧
    memRead s 0x20 8 = .ok (BitVec.ofNat 64 s.t2) ∧
    memRead s 0x28 8 = .ok s.nowval ∧
    memRead s 0x30 8 = .ok s.deadline ∧
    memRead s 0x38 8 = .ok (s.rctl.zeroExtend 64) ∧
    memRead s 0x40 8 = .ok 100#64 ∧
    memRead s 0x48 8 = .ok s.nextRun ∧
    memRead s 0x50 8 = .ok (BitVec.ofInt 64 s.actualSteps) ∧
    memRead s 0x58 8 = .ok (BitVec.ofInt 64 s.target) ∧
    memRead s 0x60 8 = .ok s.tsample ∧
    memRead s 0x68 8 = .ok (s.sctl.zeroExtend 64) ∧
    (∀ addr n : Nat, (n ≠ 8 ∨ addr % 8 ≠ 0 ∨ 0x70 ≤ addr) → memRead s addr n = .error .badRegisterAccess) ∧
    (∀ (addr n : Nat) (v : Word), memWrite s addr n v = .error .registerWrite)

/-- Who writes what (the "written by" column of R20, R71 d, R208): an operation that changes a register is one of those
named, at the point named. -/
def Obligations.EachRegisterHasItsWriters : Prop :=
  ∀ (i : Instr) (s t : State), exec i s = .next t →
    t.cfg = s.cfg ∧ t.schedule = s.schedule ∧
    (t.ticks ≠ s.ticks → i = .tick) ∧
    (t.sub ≠ s.sub → i = .cnt ∨ i = .tick) ∧
    (t.t1 ≠ s.t1 → rstate s = some .t1 ∧ (i = .now ∨ ∃ d, i = .blockUntil d)) ∧
    (t.sLatch ≠ s.sLatch → rstate s = some .s ∧ (i = .now ∨ ∃ d, i = .blockUntil d)) ∧
    (t.t2 ≠ s.t2 → rstate s = some .t2 ∧ (i = .now ∨ ∃ d, i = .blockUntil d)) ∧
    (t.nowval ≠ s.nowval → rstate s = some .cmp ∧ s.t1 = s.t2 ∧ (i = .now ∨ ∃ d, i = .blockUntil d)) ∧
    (t.deadline ≠ s.deadline → rstate s = some .idle ∧ i = .blockUntil t.deadline) ∧
    (t.rctl ≠ s.rctl →
      i = .now ∨ (∃ d, i = .blockUntil d) ∨ i = .sched ∨ i = .eval ∨ (∃ v, i = .tp v) ∨ (∃ v, i = .tv v)) ∧
    (t.nextRun ≠ s.nextRun → i = .sched) ∧
    (t.actualSteps ≠ s.actualSteps → i = .step) ∧
    (t.target ≠ s.target → i = .eval) ∧
    (t.tsample ≠ s.tsample → i = .eval) ∧
    (t.sctl ≠ s.sctl → i = .sched ∨ i = .poll ∨ i = .edge ∨ i = .eval ∨ i = .step) ∧
    (t.parser ≠ s.parser → ∃ c, i = .byte c) ∧
    (t.slot ≠ s.slot → (∃ c, i = .byte c ∧ t.slot.ready = true) ∨
      (i = .poll ∧ s.slot.ready = true ∧ t.slot = { s.slot with ready := false })) ∧
    (t.dprev ≠ s.dprev ∨ t.dcur ≠ s.dcur → i = .poll ∧ s.slot.ready = true) ∧
    (t.motion ≠ s.motion → i = .eval ∨ ∃ v, i = .en v ∨ i = .mv v ∨ i = .ma v ∨ i = .sr v ∨ i = .tp v ∨ i = .tv v) ∧
    (t.drives ≠ s.drives → i = .edge ∨ i = .step ∨ i = .enable ∨ i = .disable ∨ i = .stepFwd ∨ i = .stepRev)

/-- A step runs the decoded operation. The first turn of the schedule is taken off and its decoded word is what runs. A host
request is accepted at P_WAIT with the reader idle and the loop in no call, any drive call having returned, and otherwise
waits while the main context goes on (R86, R139; log 9); a BLOCK_UNTIL of the stepping collaborator is issued inside a drive
call (R188; log 10); a DRIVE code is the EDGE or STEP that emits it (R135 to R138; log 11). The main context's own turn runs
the operation RSTATE, the loop's call and PHASE select, and a wire command handled there ends POLL when it is done (R32,
R40, R70, R131; log 6, log 8). -/
def Obligations.StepRunsTheDecodedInstruction : Prop :=
  (∀ s : State, rstate s ≠ none → phase s ≠ none →
    (∀ (ev : BitVec 4) (c : Byte) (rest : List Turn) (i : Instr),
      s.schedule = .event ev c :: rest → decodeEvent ev c = .ok i → step s = exec i { s with schedule := rest }) ∧
    (∀ (d : BitVec 3) (rest : List Turn) (i : Instr), s.schedule = .drive d :: rest → decodeDrive d = .ok i →
      step s = mapNext (endEmission i) (exec i { s with schedule := rest }) ∧
      ∀ t, step s = .next t →
        exec .edge { s with schedule := rest } = .next t ∨ exec .step { s with schedule := rest } = .next t) ∧
    (∀ (h : Bool) (w : BitVec 68) (rest : List Turn) (i : Instr), s.schedule = .host h w :: rest →
      decodeHost w = .ok i → (h = false ∨ i = .rdt ∨ i = .rds) →
      (rstate s = some .idle ∧ s.call = .idle ∧ phase s = some .wait →
        step s = exec i { s with schedule := rest, driveCall := false }) ∧
      (¬ (rstate s = some .idle ∧ s.call = .idle ∧ phase s = some .wait) → step s = mainStep s)) ∧
    (∀ (d : Word) (rest : List Turn), s.schedule = .collaborator d :: rest →
      (rstate s = some .idle ∧ s.call = .idle ∧ s.driveCall = true →
        step s = exec (.blockUntil d) { s with schedule := rest }) ∧
      (¬ (rstate s = some .idle ∧ s.call = .idle ∧ s.driveCall = true) → step s = mainStep s)) ∧
    (∀ rest : List Turn, s.schedule = .main :: rest → step s = mainStep { s with schedule := rest }) ∧
    (s.schedule = [] → step s = mainStep s)) ∧
  (∀ (s : State) (r : RState), phase s ≠ none → rstate s = some r → r ≠ .idle →
    mainStep s = closeHandle s.call (exec (if rwait s then .blockUntil s.deadline else .now) s)) ∧
  (∀ (s : State) (p : Phase), rstate s = some .idle → phase s = some p → s.call = .idle →
    mainStep s = exec (phaseInstr p) s) ∧
  (∀ s : State, rstate s = some .idle → phase s ≠ none → s.call = .schedNow → mainStep s = exec .sched s) ∧
  (∀ s : State, rstate s = some .idle → phase s ≠ none → s.call = .evalNow → mainStep s = exec .eval s) ∧
  (∀ (s : State) (line : List Byte) (i : Instr) (c : Command), rstate s = some .idle → phase s ≠ none →
    decode (.wire line) = .ok i → commandOf i = some c → (s.call = .handle c ∨ s.call = .handleNow c) →
    mainStep s = closeHandle s.call (exec i s))

/-! ## Unit CLK (40_clock.md) -/

/-- CNT (R100): enabled while SUB is not at its last count, it moves SUB by one count in the direction of `SUB_DIR`, the
phase grows by 1, and nothing else changes; at the last count it is not enabled. -/
def Obligations.CntMovesTheSubCounterByOne : Prop :=
  (∀ c : Byte, decodeEvent 0x0#4 c = .ok .cnt) ∧
  ∀ s : State, s.sub < s.cfg.subMod →
    (subPhase s.cfg s.sub < s.cfg.subMod - 1 →
      ∃ t, exec .cnt s = .next t ∧ t = { s with sub := t.sub } ∧
        (s.cfg.subDir = .up → t.sub = s.sub + 1) ∧ (s.cfg.subDir = .down → t.sub + 1 = s.sub) ∧
        subPhase s.cfg t.sub = subPhase s.cfg s.sub + 1 ∧ clockUs s ≤ clockUs t) ∧
    (subPhase s.cfg s.sub = s.cfg.subMod - 1 → ∀ t, exec .cnt s ≠ .next t)

/-- TICK (R101): at SUB's last count, one step adds 1 to TICKS and takes SUB to phase 0, and nothing else changes; from
`TICKS_MAX` it is `refuse(tick_overflow)`; at any other count it is not enabled. -/
def Obligations.TickWrapsAndCountsInOneStep : Prop :=
  (∀ c : Byte, decodeEvent 0x1#4 c = .ok .tick) ∧
  ∀ s : State, ClockInv s →
    (subPhase s.cfg s.sub = s.cfg.subMod - 1 → s.ticks < min (2 ^ s.cfg.tickW - 1) 18446744073709550 →
      ∃ t, exec .tick s = .next t ∧ t = { s with ticks := s.ticks + 1, sub := t.sub } ∧
        (s.cfg.subDir = .up → t.sub = 0) ∧ (s.cfg.subDir = .down → t.sub = s.cfg.subMod - 1) ∧
        subPhase s.cfg t.sub = 0 ∧ clockUs s < clockUs t) ∧
    (subPhase s.cfg s.sub = s.cfg.subMod - 1 → s.ticks = min (2 ^ s.cfg.tickW - 1) 18446744073709550 →
      exec .tick s = .refused .tickOverflow) ∧
    (subPhase s.cfg s.sub < s.cfg.subMod - 1 → ∀ t, exec .tick s ≠ .next t)

/-- In an admitted clock state CNT and TICK are never both enabled, and one of them is, except at `TICKS = TICKS_MAX` with SUB at
its last count, where neither is and TICK is `refuse(tick_overflow)` (R100, R101). The event that is not enabled answers the
model's own `notEnabled` (log 7). -/
def Obligations.ClockEventsExcludeEachOther : Prop :=
  ∀ s : State, ClockInv s →
    (exec .tick s = .fault .notEnabled ∧ ∃ t, exec .cnt s = .next t) ∨
    (exec .cnt s = .fault .notEnabled ∧ ∃ t, exec .tick s = .next t) ∨
    (exec .cnt s = .fault .notEnabled ∧ exec .tick s = .refused .tickOverflow ∧
      s.ticks = ticksMax s.cfg ∧ subPhase s.cfg s.sub = s.cfg.subMod - 1)

/-- The clock time (R104): `sub_us` is in 0 to 999, non-decreasing in the phase, and the identity by default; the time of an
admitted state fits 64 bits; no operation makes it smaller, and only CNT and TICK change TICKS or SUB. -/
def Obligations.ClockTimeNeverDecreases : Prop :=
  (∀ (c : Config) (a b : Nat), a < c.subMod → b < c.subMod →
    subUs c a = subPhase c a * 1000 / c.subMod ∧ subUs c a ≤ 999 ∧
      (subPhase c a ≤ subPhase c b → subUs c a ≤ subUs c b)) ∧
  (∀ sub : Nat, subUs Config.default sub = sub) ∧
  (∀ s : State, ClockInv s → clockUs s = s.ticks * 1000 + subUs s.cfg s.sub ∧
    clockUs s ≤ ticksMax s.cfg * 1000 + 999 ∧ ticksMax s.cfg * 1000 + 999 < 2 ^ 64) ∧
  (∀ (i : Instr) (s t : State), ClockInv s → exec i s = .next t → clockUs s ≤ clockUs t ∧
    (i ≠ .cnt → i ≠ .tick → t.ticks = s.ticks ∧ t.sub = s.sub)) ∧
  (∀ s t : State, ClockInv s → step s = .next t → clockUs s ≤ clockUs t ∧ s.ticks ≤ t.ticks)

/-- RDT and RDS (R102, R103): with the reader idle and the main context free at P_WAIT, they answer TICKS and the raw SUB,
zero-extended, in one step that writes nothing. `driveCall` is the model's own mark of a drive call that runs (log 10). -/
def Obligations.PrimitiveReadsAnswerTheRegister : Prop :=
  ∀ s : State, rstate s = some .idle → s.call = .idle → phase s = some .wait → s.driveCall = false →
    exec .rdt s = .next { s with responses := s.responses ++ [some (BitVec.ofNat 64 s.ticks)] } ∧
    exec .rds s = .next { s with responses := s.responses ++ [some (BitVec.ofNat 64 s.sub)] }

/-- The issue and the four steps of NOW, RCTL in the codes of R26 (R105). A host issues it at P_WAIT (R139; the loop's own issues
are stated with SCHED, EVAL, `tp` and `tv`). The fourth step completes, with a response when the host issued it, when the two tick counts agree, and else starts the whole sequence over. -/
def Obligations.NowStepsReadInOrder : Prop :=
  ∀ s : State, rwait s = false →
    (rstate s = some .idle → s.call = .idle → phase s = some .wait → s.driveCall = false →
      exec .now s = .next { s with rctl := 0x1#4 }) ∧
    (rstate s = some .t1 → exec .now s = .next { s with t1 := s.ticks, rctl := 0x2#4 }) ∧
    (rstate s = some .s → exec .now s = .next { s with sLatch := s.sub, rctl := 0x3#4 }) ∧
    (rstate s = some .t2 → exec .now s = .next { s with t2 := s.ticks, rctl := 0x4#4 }) ∧
    (rstate s = some .cmp → s.t1 = s.t2 → ∃ t, exec .now s = .next t ∧
      t.nowval = BitVec.ofNat 64 (s.t1 * 1000 + subUs s.cfg s.sLatch) ∧
      t = { s with nowval := t.nowval, rctl := 0x0#4,
                   responses := if s.call = .idle ∧ s.driveCall = false then s.responses ++ [some t.nowval]
                     else s.responses }) ∧
    (rstate s = some .cmp → s.t1 ≠ s.t2 → exec .now s = .next { s with rctl := 0x1#4 })

/-- A NOW that meets no event answers the clock time of the state, in its issue and four steps (R105, R107). -/
def Obligations.UninterruptedNowAnswersTheTime : Prop :=
  ∀ s : State, ClockInv s → rstate s = some .idle → rwait s = false → s.call = .idle → phase s = some .wait →
    s.driveCall = false → ∃ n : Word, n.toNat = clockUs s ∧
      execTimes .now 5 s = .next { s with t1 := s.ticks, sLatch := s.sub, t2 := s.ticks, nowval := n, rctl := 0x0#4,
                                          responses := s.responses ++ [some n] }

/-- Exactness (R107): whatever CNT, TICK and BYTE events fall between the reads, a completed NOW (or BLOCK_UNTIL) leaves in
NOWVAL the clock time of the state its last attempt's step 2 met, a time between those of the attempt's first and last
states. -/
def Obligations.CompletedNowIsExact : Prop :=
  ∀ (i : Instr) (a b d : State), (i = .now ∨ ∃ dl, i = .blockUntil dl) → ClockInv a → rstate a = some .t1 →
    Attempt i a b d → rstate d = some .idle →
    d.nowval.toNat = clockUs b ∧ clockUs a ≤ clockUs b ∧ clockUs b ≤ clockUs d

/-- Monotonicity (R108): NOWVAL never decreases along any run, so a NOW that completes later never answers less. -/
def Obligations.NowvalNeverDecreases : Prop :=
  ∀ s t : State, Inv s → Steps s t → s.nowval.toNat ≤ t.nowval.toNat

/-- Under A-LIVE (R111), at most one TICK during two consecutive attempts of one NOW, one of the two completes. -/
def Obligations.SecondAttemptCompletes : Prop :=
  ∀ a b d e f g : State, ClockInv a → rstate a = some .t1 → rwait a = false →
    Attempt .now a b d → EventRun d e → Attempt .now e f g → g.ticks ≤ a.ticks + 1 →
    rstate d = some .idle ∨ rstate g = some .idle

/-- Without A-LIVE no bound holds (R111, vector K6): with one count in a tick, a NOW can fail any number of times. -/
def Obligations.RetriesAreUnbounded : Prop :=
  ∀ (n : Nat) (s : State), ClockInv s → s.cfg.subMod = 1 → rstate s = some .t1 → rwait s = false →
    s.ticks + n ≤ ticksMax s.cfg → ∃ t, Retries n s t

/-- BLOCK_UNTIL (R106), RCTL in the codes of R26: the issue latches the deadline and sets RWAIT, for the host at P_WAIT (R139) or
for the stepping collaborator inside a drive call (R188, log 10); the steps are those of NOW; the fourth completes, with no
value, at the first sample that reaches the deadline, and else starts over. Only the host's completion is one of the host
port. -/
def Obligations.BlockUntilStepsAndCompletion : Prop :=
  (∀ (d : Word) (s : State), rstate s = some .idle → s.call = .idle →
    ((phase s = some .wait ∧ s.driveCall = false) ∨ (phase s ≠ none ∧ s.driveCall = true)) →
    exec (.blockUntil d) s = .next { s with deadline := d, rctl := 0x9#4 }) ∧
  (∀ s : State, rwait s = true → s.call = .idle →
    (rstate s = some .t1 → exec (.blockUntil s.deadline) s = .next { s with t1 := s.ticks, rctl := 0xA#4 }) ∧
    (rstate s = some .s → exec (.blockUntil s.deadline) s = .next { s with sLatch := s.sub, rctl := 0xB#4 }) ∧
    (rstate s = some .t2 → exec (.blockUntil s.deadline) s = .next { s with t2 := s.ticks, rctl := 0xC#4 }) ∧
    (rstate s = some .cmp → s.t1 ≠ s.t2 → exec (.blockUntil s.deadline) s = .next { s with rctl := 0x9#4 }) ∧
    (rstate s = some .cmp → s.t1 = s.t2 → ∃ t, exec (.blockUntil s.deadline) s = .next t ∧
      t.nowval = BitVec.ofNat 64 (s.t1 * 1000 + subUs s.cfg s.sLatch) ∧
      (s.deadline ≤ t.nowval → t = { s with
        nowval := t.nowval, rctl := 0x0#4,
        responses := if s.driveCall then s.responses else s.responses ++ [none] }) ∧
      (¬ s.deadline ≤ t.nowval → t = { s with nowval := t.nowval, rctl := 0x9#4 })))

/-- A BLOCK_UNTIL that meets no event performs one NOW and completes if its deadline has been reached, and is back at step 1
otherwise (R106, corner cases a and b, vector K9), for the host at P_WAIT and for the stepping collaborator inside a drive
call (log 10). -/
def Obligations.UninterruptedBlockUntilTakesOneNow : Prop :=
  ∀ (d : Word) (s : State), ClockInv s → rstate s = some .idle → s.call = .idle →
    ((phase s = some .wait ∧ s.driveCall = false) ∨ (phase s ≠ none ∧ s.driveCall = true)) →
    ∃ n : Word, n.toNat = clockUs s ∧
      (d.toNat ≤ clockUs s → execTimes (.blockUntil d) 5 s = .next
        { s with t1 := s.ticks, sLatch := s.sub, t2 := s.ticks, nowval := n, deadline := d, rctl := 0x0#4,
                 responses := if s.driveCall then s.responses else s.responses ++ [none] }) ∧
      (clockUs s < d.toNat → execTimes (.blockUntil d) 5 s = .next
        { s with t1 := s.ticks, sLatch := s.sub, t2 := s.ticks, nowval := n, deadline := d, rctl := 0x9#4 })

/-- While a BLOCK_UNTIL runs the main context does nothing else: whatever step the block takes, no iteration starts, no phase
passes, no command is polled or handled and nothing is emitted (R106 corner case f, R243). -/
def Obligations.BlockUntilHoldsTheLoop : Prop :=
  ∀ s t : State, Inv s → rwait s = true → step s = .next t →
    SameSeq s t ∧ t.sctl = s.sctl ∧ SamePlanner s t ∧ t.drives = s.drives ∧ (s.slot.ready = true → t.slot.ready = true)

/-! ## Unit SEQ (41_control_loop.md) -/

/-- SCHED (R130): it issues a NOW, and with that complete it is due when NOWVAL has reached NEXT_RUN: then NEXT_RUN becomes
NOWVAL + 100 and the iteration starts; otherwise nothing but the call ends. -/
def Obligations.SchedTestsAndRearms : Prop :=
  ∀ s : State, phase s = some .wait → rstate s = some .idle →
    (s.call = .idle → rwait s = false →
      exec .sched s = .next { s with call := .schedNow, driveCall := false, rctl := 0x1#4 }) ∧
    (s.call = .schedNow → s.nextRun ≤ s.nowval →
      exec .sched s = .next { s with call := .idle, nextRun := s.nowval + 100#64, sctl := ctl (enPrev s) 1#3 }) ∧
    (s.call = .schedNow → s.nowval < s.nextRun → exec .sched s = .next { s with call := .idle })

/-- The first steps after reset when only the main context moves, for every choice of the parameters: SCHED succeeds at once,
POLL finds nothing, and EDGE emits ENABLE if and only if `DEF_ENABLED` (R130 a, R132 b, R231). -/
def Obligations.FirstIterationStartsAtOnce : Prop :=
  ∀ c : Config,
    (∃ t, stepTimes 6 (State.resetOf c) = .next t ∧ t.nowval = 0#64 ∧ t.nextRun = 100#64 ∧ phase t = some .poll) ∧
    (∃ t, stepTimes 8 (State.resetOf c) = .next t ∧ phase t = some .eval ∧ enPrev t = c.defEnabled ∧
      t.drives = if c.defEnabled then [.enable] else [])

/-- Spacing (R145): two iterations of one run start at least 100 µs apart on the block's own clock. -/
def Obligations.IterationsStartOnePeriodApart : Prop :=
  ∀ s₁ t₁ s₂ t₂ : State, Inv s₁ → StartsIteration s₁ t₁ → Steps t₁ s₂ → StartsIteration s₂ t₂ →
    t₁.nowval.toNat + 100 ≤ t₂.nowval.toNat

/-- NEXT_RUN is 0 after reset and is written only by a SCHED that starts an iteration, to NOWVAL + 100 (R28). -/
def Obligations.NextRunWrittenOnlyBySched : Prop :=
  (∀ c : Config, (State.resetOf c).nextRun = 0#64) ∧
  (∀ (i : Instr) (s t : State), exec i s = .next t → t.nextRun ≠ s.nextRun →
    i = .sched ∧ s.nextRun ≤ s.nowval ∧ t.nextRun = s.nowval + 100#64 ∧ phase t = some .poll) ∧
  (∀ s t : State, step s = .next t → t.nextRun ≠ s.nextRun → StartsIteration s t)

/-- POLL (R131, R165): with READY clear only PHASE changes; a claimed command goes to DCUR and DCUR to DPREV; verified, it is
handled next, and otherwise the phase ends. -/
def Obligations.PollClaimsShiftsAndVerifies : Prop :=
  ∀ s : State, phase s = some .poll → rstate s = some .idle → s.call = .idle →
    (s.slot.ready = false →
      exec .poll s = .next { s with sctl := ctl (enPrev s) 2#3, driveCall := false }) ∧
    (s.slot.ready = true → s.dcur ≠ some s.slot.cmd →
      exec .poll s = .next { s with slot := { s.slot with ready := false }, dprev := s.dcur, dcur := some s.slot.cmd,
                                    sctl := ctl (enPrev s) 2#3, driveCall := false }) ∧
    (s.slot.ready = true → s.dcur = some s.slot.cmd →
      exec .poll s = .next { s with slot := { s.slot with ready := false }, dprev := s.dcur, dcur := some s.slot.cmd,
                                    call := .handle s.slot.cmd, driveCall := false })

/-- CLAIM delivers a command at most once: it returns the slot's command and clears READY, and with READY clear it returns
nothing and changes nothing (R73, R163). A command is verified if and only if it is claimed and the one before it had the
same letters and the same 64 bits (R36, R165, R166); a third identical copy is verified again (R165 a). -/
def Obligations.ClaimDeliversOnceAndVerifiesIdenticalCopies : Prop :=
  (∀ r : ReadySlot,
    (r.ready = true → claim r = (some r.cmd, ⟨false, r.cmd⟩) ∧ (claim (claim r).2).1 = none) ∧
    (r.ready = false → claim r = (none, r))) ∧
  (∀ (s : State) (c : Command), pollResult s = some c ↔
    s.slot.ready = true ∧ s.slot.cmd = c ∧ ∃ p, s.dcur = some p ∧ p.code.l1 = c.code.l1 ∧ p.code.l2 = c.code.l2 ∧
      p.value = c.value) ∧
  (∀ s u : State, s.slot.ready = true → u.dcur = (afterPoll s).dcur → u.slot = ⟨true, s.slot.cmd⟩ →
    pollResult u = some s.slot.cmd)

/-- EDGE (R132): ENABLE on a rising edge of `enabled`, DISABLE on a falling edge, nothing otherwise; EN_PREV becomes
`enabled` and PHASE `P_EVAL`. -/
def Obligations.EdgeSwitchesPowerOnAnEdge : Prop :=
  ∀ s : State, phase s = some .edge → rstate s = some .idle → s.call = .idle →
    (s.motion.enabled = true → enPrev s = false →
      exec .edge s = .next { s with sctl := 0xB#4, drives := s.drives ++ [.enable], driveCall := true }) ∧
    (s.motion.enabled = false → enPrev s = true →
      exec .edge s = .next { s with sctl := 0x3#4, drives := s.drives ++ [.disable], driveCall := true }) ∧
    (s.motion.enabled = true → enPrev s = true → exec .edge s = .next { s with sctl := 0xB#4, driveCall := false }) ∧
    (s.motion.enabled = false → enPrev s = false → exec .edge s = .next { s with sctl := 0x3#4, driveCall := false })

/-- EVAL (R133): it issues a NOW, and with that complete latches the sample and the target and goes to `P_STEP`; a target that
is no number or does not fit `STEP_W` bits is `refuse(target_out_of_range)` (D20), and a limit the evaluation's branch
divides by that is not greater than zero is `refuse(bad_limit)` (R171, R172, D28). -/
def Obligations.EvalLatchesSampleAndTarget : Prop :=
  ∀ s : State, phase s = some .eval → rstate s = some .idle →
    (s.call = .idle → rwait s = false →
      exec .eval s = .next { s with call := .evalNow, driveCall := false, rctl := 0x1#4 }) ∧
    (s.call = .evalNow → ∀ e, evaluate binary64 s.motion s.nowval = .ok e →
      (∀ n, degreesToSteps binary64 e.pos s.motion.stepsPerRev = some n →
        -(2 ^ (s.cfg.stepW - 1) : Int) ≤ n → n < 2 ^ (s.cfg.stepW - 1) →
        exec .eval s = .next { s with call := .idle, tsample := s.nowval, target := n, motion := e.motion,
                                      sctl := ctl (enPrev s) 4#3 }) ∧
      ((∀ n, degreesToSteps binary64 e.pos s.motion.stepsPerRev = some n →
          ¬ (-(2 ^ (s.cfg.stepW - 1) : Int) ≤ n ∧ n < 2 ^ (s.cfg.stepW - 1))) →
        exec .eval s = .refused .targetOutOfRange)) ∧
    (s.call = .evalNow → badLimitAt s.motion → exec .eval s = .refused .badLimit)

/-- STEP (R134): one step toward TARGET and one count of ACTUAL_STEPS, whatever the discrepancy, or nothing when they are
equal; a change that would leave the admitted range of R29 is `refuse(step_overflow)`. That TARGET and TSAMPLE, unspecified from
here (R30), are unchanged is the model's choice (log 27). -/
def Obligations.StepMovesOneTowardTarget : Prop :=
  ∀ s : State, phase s = some .step → rstate s = some .idle → s.call = .idle →
    (s.actualSteps < s.target → s.actualSteps + 1 ≤ 2 ^ (s.cfg.stepW - 1) - 2 →
      -(2 ^ (s.cfg.stepW - 1) : Int) + 1 ≤ s.actualSteps →
      exec .step s = .next { s with actualSteps := s.actualSteps + 1, drives := s.drives ++ [.stepFwd],
                                    sctl := ctl (enPrev s) 0#3, driveCall := true }) ∧
    (s.target < s.actualSteps → -(2 ^ (s.cfg.stepW - 1) : Int) + 1 ≤ s.actualSteps - 1 →
      s.actualSteps ≤ 2 ^ (s.cfg.stepW - 1) - 2 →
      exec .step s = .next { s with actualSteps := s.actualSteps - 1, drives := s.drives ++ [.stepRev],
                                    sctl := ctl (enPrev s) 0#3, driveCall := true }) ∧
    (s.actualSteps = s.target → exec .step s = .next { s with sctl := ctl (enPrev s) 0#3, driveCall := false }) ∧
    (s.actualSteps < s.target → (2 ^ (s.cfg.stepW - 1) - 2 : Int) ≤ s.actualSteps →
      exec .step s = .refused .stepOverflow) ∧
    (s.target < s.actualSteps → s.actualSteps ≤ -(2 ^ (s.cfg.stepW - 1) : Int) + 1 →
      exec .step s = .refused .stepOverflow)

/-- ACTUAL_STEPS is 0 after reset, is changed only by STEP and by exactly 1, and stays in its admitted range; the change is the
step emitted with it (R29). -/
def Obligations.ActualStepsCountsEmittedSteps : Prop :=
  (∀ c : Config, (State.resetOf c).actualSteps = 0) ∧
  (∀ (i : Instr) (s t : State), exec i s = .next t → t.actualSteps ≠ s.actualSteps →
    i = .step ∧ stepsAdmitted s.cfg t.actualSteps = true ∧
      ((t.actualSteps = s.actualSteps + 1 ∧ t.drives = s.drives ++ [.stepFwd]) ∨
        (t.actualSteps = s.actualSteps - 1 ∧ t.drives = s.drives ++ [.stepRev]))) ∧
  (∀ s t : State, Inv s → Steps s t → stepsAdmitted t.cfg t.actualSteps = true ∧
    t.actualSteps - s.actualSteps =
      ((t.drives.count .stepFwd : Int) - t.drives.count .stepRev) -
        ((s.drives.count .stepFwd : Int) - s.drives.count .stepRev))

/-- The step-rate cap (R140): over any run from between two iterations, every emitted step is paid for by 100 µs of NEXT_RUN,
which is never more than 100 µs ahead of the clock: at most one step per period. -/
def Obligations.StepRateIsCapped : Prop :=
  ∀ s t : State, Inv s → phase s = some .wait → Steps s t →
    100 * stepsEmitted t + s.nextRun.toNat ≤ 100 * stepsEmitted s + t.nextRun.toNat ∧
    t.nextRun.toNat ≤ clockUs t + 100

/-- The drive commands (R135 to R138, R65, D38): each appends itself to the drive stream and changes nothing else of the block.
ENABLE and DISABLE are emitted only by EDGE, on a rising and on a falling edge of `enabled`, STEP_FWD and STEP_REV only by
STEP, toward TARGET. `driveCall` is the model's own mark that the call may run on (log 10). -/
def Obligations.DriveCommandsAppendThemselves : Prop :=
  (∀ s : State, rstate s = some .idle → s.call = .idle →
    (phase s = some .edge → s.motion.enabled = true → enPrev s = false →
      exec .enable s = .next { s with drives := s.drives ++ [.enable], driveCall := true }) ∧
    (phase s = some .edge → s.motion.enabled = false → enPrev s = true →
      exec .disable s = .next { s with drives := s.drives ++ [.disable], driveCall := true }) ∧
    (phase s = some .step → s.actualSteps < s.target → stepsAdmitted s.cfg (s.actualSteps + 1) = true →
      exec .stepFwd s = .next { s with drives := s.drives ++ [.stepFwd], driveCall := true }) ∧
    (phase s = some .step → s.target < s.actualSteps → stepsAdmitted s.cfg (s.actualSteps - 1) = true →
      exec .stepRev s = .next { s with drives := s.drives ++ [.stepRev], driveCall := true })) ∧
  (∀ s t : State,
    (exec .enable s = .next t → phase s = some .edge ∧ s.motion.enabled = true ∧ enPrev s = false) ∧
    (exec .disable s = .next t → phase s = some .edge ∧ s.motion.enabled = false ∧ enPrev s = true) ∧
    (exec .stepFwd s = .next t → phase s = some .step ∧ s.actualSteps < s.target) ∧
    (exec .stepRev s = .next t → phase s = some .step ∧ s.target < s.actualSteps))

/-- The drive stream only grows, by at most one command a step (R65), and in it ENABLE and DISABLE alternate, ENABLE first: in
every prefix the ENABLEs lead by 0 or 1 (R132 e, R135, R136). That holds after reset and every step keeps it. -/
def Obligations.DriveStreamGrowsAndPowerAlternates : Prop :=
  (∀ s t : State, step s = .next t → ∃ l : List Drive, t.drives = s.drives ++ l ∧ l.length ≤ 1) ∧
  (∀ c : Config, PowerAlternates (State.resetOf c).drives) ∧
  (∀ s t : State, Inv s → PowerAlternates s.drives → step s = .next t → PowerAlternates t.drives)

/-- The phases follow one another in the order of R139 and none is skipped: a step leaves PHASE or moves it to the next. -/
def Obligations.PhasesFollowInOrder : Prop :=
  ∀ (s t : State) (p : Phase), Inv s → step s = .next t → phase s = some p → phase t = some p ∨ phase t = some p.after

/-- Steps are not gated by `enabled` (R142): EVAL and STEP do the same whatever `enabled` is. -/
def Obligations.StepsAreNotGatedByEnabled : Prop :=
  ∀ (b : Bool) (s : State),
    exec .eval (withEnabled b s) = mapNext (withEnabled b) (exec .eval s) ∧
    exec .step (withEnabled b s) = mapNext (withEnabled b) (exec .step s)

/-! ## The parser (42_collaborators.md, section 1) -/

/-- BYTE (R160, R161, R162): every byte is accepted, by the rows of the transition table; a byte no row matches resets and is
looked at again as a first letter. Only the parser and, on a completed line, the ready slot change; a published command
overwrites the slot (R163). That L1 and L2, unspecified after a parser reset (R34), are kept then is the model's choice
(log 27). -/
def Obligations.ByteFollowsTheTransitionTable : Prop :=
  ∀ (c : Byte) (s : State),
    ((s.parser.pstate = .reset ∨ s.parser.pstate = .expectLetter1) → isLetter c = true →
      exec (.byte c) s = .next { s with parser := { s.parser with l1 := c, pstate := .expectLetter2 } }) ∧
    ((s.parser.pstate = .reset ∨ s.parser.pstate = .expectLetter1) → isLetter c = false →
      exec (.byte c) s = .next { s with parser := { s.parser with pstate := .expectLetter1 } }) ∧
    (s.parser.pstate = .expectLetter2 → isLetter c = true →
      exec (.byte c) s = .next { s with parser := { s.parser with l2 := c, pstate := .expectEquals } }) ∧
    (s.parser.pstate = .expectEquals → c = 0x3D#8 →
      exec (.byte c) s = .next { s with parser := { s.parser with pstate := .expectValueOrEnd } }) ∧
    (s.parser.pstate = .expectValueOrEnd → isNumChar c = true → s.parser.numlen < 31 →
      exec (.byte c) s = .next { s with parser := { s.parser with numbuf := s.parser.numbuf ++ [c] } }) ∧
    (s.parser.pstate = .expectValueOrEnd → isNumChar c = true → 31 ≤ s.parser.numlen →
      exec (.byte c) s = .next s) ∧
    (s.parser.pstate = .expectValueOrEnd → (c = 0x0D#8 ∨ c = 0x0A#8) →
      exec (.byte c) s = .next
        { s with parser := { s.parser with numbuf := [], pstate := .reset },
                 slot := ⟨true, ⟨⟨s.parser.l1, s.parser.l2⟩, literal s.parser.numbuf⟩⟩ }) ∧
    (((s.parser.pstate = .expectLetter2 ∧ isLetter c = false) ∨ (s.parser.pstate = .expectEquals ∧ c ≠ 0x3D#8) ∨
        (s.parser.pstate = .expectValueOrEnd ∧ isNumChar c = false ∧ c ≠ 0x0D#8 ∧ c ≠ 0x0A#8)) →
      exec (.byte c) s = .next
        { s with parser := if isLetter c
            then { s.parser with numbuf := [], l1 := c, pstate := .expectLetter2 }
            else { s.parser with numbuf := [], pstate := .expectLetter1 } })

/-- The parser and the decoder agree (R160, R163): a line the decoder reads as a command, fed byte by byte to a parser that
awaits a first letter, publishes exactly that command, at its terminator, and leaves the parser awaiting the next line. -/
def Obligations.ParserPublishesTheDecodedLine : Prop :=
  ∀ (p : Parser) (line rest : List Byte) (c : Command), awaitsLine p → decodeLine line = .ok (c, rest) →
    ∃ body t q, line = body ++ t :: rest ∧ (feed p body).2 = [] ∧ feed p (body ++ [t]) = (q, [c]) ∧ awaitsLine q

/-! ## The planner's commands (42_collaborators.md, section 3) -/

/-- `en` (R170): `enabled` becomes the truth value of V, false for the two zeros (and so for a missing or unparsable
number, which is `+0.0`) and true for every other pattern; nothing else changes. -/
def Obligations.EnWritesEnabled : Prop :=
  (∀ v : F64, instrOfPrefix 0x656E3D#24 v = some (.en v)) ∧
  (∀ (v : F64) (s : State), (v = 0x0000000000000000#64 ∨ v = 0x8000000000000000#64) →
    exec (.en v) s = .next { s with motion := { s.motion with enabled := false } }) ∧
  (∀ (v : F64) (s : State), v ≠ 0x0000000000000000#64 → v ≠ 0x8000000000000000#64 →
    exec (.en v) s = .next { s with motion := { s.motion with enabled := true } }) ∧
  literal [] = 0x0000000000000000#64 ∧
  (∀ (neg : Bool) (b : List Byte), (∀ c r, b = c :: r → isDigit c = false) →
    (∀ c r, b = 0x2E#8 :: c :: r → isDigit c = false) → (neg = false → ∀ r, b ≠ 0x2D#8 :: r) →
    literal ((if neg then [0x2D#8] else []) ++ b) = 0x0000000000000000#64)

/-- `mv` (R171): `max_velocity` becomes V, unchecked; a limit that is zero or negative (not greater than zero) is
`refuse(bad_limit)` at the next Position-branch evaluation. -/
def Obligations.MvWritesTheVelocityLimit : Prop :=
  (∀ v : F64, instrOfPrefix 0x6D763D#24 v = some (.mv v)) ∧
  (∀ (v : F64) (s : State), exec (.mv v) s = .next { s with motion := { s.motion with maxVelocity := v } }) ∧
  (∀ (A : Arith) (m : Motion) (now : Word), m.stopNeeded = false → m.mode = .position →
    A.lt F64.zero m.maxVelocity = false → evaluate A m now = .error .badLimit)

/-- `ma` (R172): `max_acceleration` becomes V, unchecked; an evaluation with a limit not greater than zero is
`refuse(bad_limit)` in either branch. -/
def Obligations.MaWritesTheAccelerationLimit : Prop :=
  (∀ v : F64, instrOfPrefix 0x6D613D#24 v = some (.ma v)) ∧
  (∀ (v : F64) (s : State), exec (.ma v) s = .next { s with motion := { s.motion with maxAcceleration := v } }) ∧
  (∀ (A : Arith) (m : Motion) (now : Word),
    A.lt F64.zero m.maxAcceleration = false → evaluate A m now = .error .badLimit)

/-- `sr` (R173): `steps_per_revolution` becomes V truncated toward zero when that fits `SPR_W` bits, and otherwise
`refuse(sr_out_of_range)`. Truncation (R9): a finite value `± m / 2^1074` gives the integer of its sign whose size is the
whole part; NaN and the infinities give none. -/
def Obligations.SrStoresTheTruncation : Prop :=
  (∀ (x : F64) (neg : Bool) (m : Nat), F64.value x = .fin neg m → ∃ n : Int, F64.trunc x = some n ∧
    n.natAbs * 2 ^ 1074 ≤ m ∧ m < (n.natAbs + 1) * 2 ^ 1074 ∧ (neg = true → n ≤ 0) ∧ (neg = false → 0 ≤ n)) ∧
  (∀ x : F64, (∀ neg m, F64.value x ≠ .fin neg m) → F64.trunc x = none) ∧
  ∀ (v : F64) (s : State),
    (∀ n, F64.trunc v = some n → -(2 ^ (s.cfg.sprW - 1) : Int) ≤ n → n < 2 ^ (s.cfg.sprW - 1) →
      exec (.sr v) s = .next { s with motion := { s.motion with stepsPerRev := n } }) ∧
    ((∀ n, F64.trunc v = some n → ¬ (-(2 ^ (s.cfg.sprW - 1) : Int) ≤ n ∧ n < 2 ^ (s.cfg.sprW - 1))) →
      exec (.sr v) s = .refused .srOutOfRange)

/-- `tp` (R174, R178): it issues a NOW, and with that complete the old trajectory, evaluated at the sample, becomes the new
segment's start, with target V, Position mode and `stop_needed` set. A limit the old trajectory's branch divides by that is
not greater than zero is `refuse(bad_limit)` (R171, R172, D28). -/
def Obligations.TpCapturesAndForcesAStop : Prop :=
  ∀ (v : F64) (s : State), rstate s = some .idle →
    (s.call = .handle ⟨codeTp, v⟩ → rwait s = false →
      exec (.tp v) s = .next { s with call := .handleNow ⟨codeTp, v⟩, driveCall := false, rctl := 0x1#4 }) ∧
    (s.call = .handleNow ⟨codeTp, v⟩ → ¬ badLimitAt s.motion →
      ∃ e, evaluate binary64 s.motion s.nowval = .ok e ∧
        exec (.tp v) s = .next { s with call := .idle, motion := { s.motion with
          targetPosition := v, mode := .position, t0 := s.nowval, p0 := e.pos, v0 := e.vel, stopNeeded := true } }) ∧
    (s.call = .handleNow ⟨codeTp, v⟩ → badLimitAt s.motion → exec (.tp v) s = .refused .badLimit)

/-- `tv` (R175, R178): as `tp`, with target velocity V, Velocity mode and `stop_needed` cleared. -/
def Obligations.TvCapturesAndClearsTheStop : Prop :=
  ∀ (v : F64) (s : State), rstate s = some .idle →
    (s.call = .handle ⟨codeTv, v⟩ → rwait s = false →
      exec (.tv v) s = .next { s with call := .handleNow ⟨codeTv, v⟩, driveCall := false, rctl := 0x1#4 }) ∧
    (s.call = .handleNow ⟨codeTv, v⟩ → ¬ badLimitAt s.motion →
      ∃ e, evaluate binary64 s.motion s.nowval = .ok e ∧
        exec (.tv v) s = .next { s with call := .idle, motion := { s.motion with
          targetVelocity := v, mode := .velocity, t0 := s.nowval, p0 := e.pos, v0 := e.vel, stopNeeded := false } }) ∧
    (s.call = .handleNow ⟨codeTv, v⟩ → badLimitAt s.motion → exec (.tv v) s = .refused .badLimit)

/-- A verified `tp` or `tv` runs through its own NOW in seven steps of the main context when nothing interrupts it: claim, issue,
four reads, capture; the sample is the clock time, and POLL ends (R131 d, R174, R175, R178). -/
def Obligations.VerifiedTargetRunsThroughItsOwnNow : Prop :=
  ∀ (c : Command) (s : State), ClockInv s → s.schedule = [] → phase s = some .poll → rstate s = some .idle →
    rwait s = false → s.call = .idle → s.slot = ⟨true, c⟩ → s.dcur = some c → ¬ badLimitAt s.motion →
    (c.code = codeTp ∨ c.code = codeTv) →
    ∃ (n : Word) (e : Evaluation) (m : Motion), n.toNat = clockUs s ∧ evaluate binary64 s.motion n = .ok e ∧
      (c.code = codeTp → m = { s.motion with
        targetPosition := c.value, mode := .position, t0 := n, p0 := e.pos, v0 := e.vel, stopNeeded := true }) ∧
      (c.code = codeTv → m = { s.motion with
        targetVelocity := c.value, mode := .velocity, t0 := n, p0 := e.pos, v0 := e.vel, stopNeeded := false }) ∧
      stepTimes 7 s = .next { s with
        t1 := s.ticks, sLatch := s.sub, t2 := s.ticks, nowval := n, rctl := 0x0#4,
        slot := ⟨false, c⟩, dprev := some c, dcur := some c,
        sctl := ctl (enPrev s) 2#3, driveCall := false, motion := m }

/-- A verified `en`, `mv`, `ma` or `sr` takes effect in two steps of the main context, its claim and its handling, and POLL ends;
an `sr` whose truncation does not fit is `refuse(sr_out_of_range)` there (R131, R169 to R173). -/
def Obligations.VerifiedCommandTakesEffect : Prop :=
  ∀ (c : Command) (s : State), s.schedule = [] → phase s = some .poll → rstate s = some .idle →
    s.call = .idle → s.slot = ⟨true, c⟩ → s.dcur = some c →
    (∀ m : Motion,
      ((c.code = codeEn ∧ m = { s.motion with enabled := truthValue c.value }) ∨
        (c.code = codeMv ∧ m = { s.motion with maxVelocity := c.value }) ∨
        (c.code = codeMa ∧ m = { s.motion with maxAcceleration := c.value }) ∨
        (c.code = codeSr ∧ ∃ n, F64.trunc c.value = some n ∧ -(2 ^ (s.cfg.sprW - 1) : Int) ≤ n ∧
          n < 2 ^ (s.cfg.sprW - 1) ∧ m = { s.motion with stepsPerRev := n })) →
      stepTimes 2 s = .next { s with slot := ⟨false, c⟩, dprev := some c, dcur := some c, motion := m,
                                     sctl := ctl (enPrev s) 2#3, driveCall := false }) ∧
    (c.code = codeSr →
      (∀ n, F64.trunc c.value = some n → ¬ (-(2 ^ (s.cfg.sprW - 1) : Int) ≤ n ∧ n < 2 ^ (s.cfg.sprW - 1))) →
      stepTimes 2 s = .refused .srOutOfRange)

/-- Unknown codes (R176): a verified command with none of the six codes changes nothing but the control state: POLL ends. It
has passed through the ready slot and the deduplicator like any other. That the slot, unspecified once claimed (R35), still
holds it is the model's choice (log 27). -/
def Obligations.UnknownCodeChangesNothing : Prop :=
  ∀ (c : Command) (s : State), s.schedule = [] → phase s = some .poll → rstate s = some .idle → s.call = .idle →
    s.slot = ⟨true, c⟩ → s.dcur = some c →
    (c.code ≠ codeEn ∧ c.code ≠ codeMv ∧ c.code ≠ codeMa ∧ c.code ≠ codeSr ∧ c.code ≠ codeTp ∧ c.code ≠ codeTv) →
    stepTimes 2 s = .next { s with slot := ⟨false, c⟩, dprev := some c, dcur := some c,
                                   sctl := ctl (enPrev s) 2#3, driveCall := false }

/-- `get_enabled()` returns `enabled`; no evaluation writes it, and no operation but `en` does (R186). -/
def Obligations.OnlyEnWritesEnabled : Prop :=
  (∀ m : Motion, getEnabled m = m.enabled) ∧
  (∀ (A : Arith) (m : Motion) (now : Word) (e : Evaluation), evaluate A m now = .ok e → e.motion.enabled = m.enabled) ∧
  (∀ (i : Instr) (s t : State), exec i s = .next t → t.motion.enabled ≠ s.motion.enabled → ∃ v, i = .en v)

/-! ## The planner's evaluation (42_collaborators.md, section 4) -/

/-- The forced stop (R177): while `stop_needed`, the evaluation does not depend on the mode or the targets; it writes
MotionState only when the stop has completed, velocity then `+0.0`, and writes the four fields of R177; with
`stop_needed` clear it writes nothing. -/
def Obligations.EvaluationWritesOnlyTheForcedStop : Prop :=
  (∀ (A : Arith) (m : Motion) (now : Word) (e : Evaluation), evaluate A m now = .ok e →
    e.motion = m ∨ (m.stopNeeded = true ∧ e.vel = F64.zero ∧
      e.motion = { m with stopNeeded := false, t0 := now, p0 := e.pos, v0 := F64.zero })) ∧
  (∀ (A : Arith) (m : Motion) (now : Word) (k : Mode) (x y : F64) (e : Evaluation), m.stopNeeded = true →
    evaluate A m now = .ok e →
    ∃ e', evaluate A { m with mode := k, targetPosition := x, targetVelocity := y } now = .ok e' ∧
      e'.pos = e.pos ∧ e'.vel = e.vel)

/-- No target switch makes the trajectory jump (R185, R187): the position and velocity evaluated at a sample are the same
numbers after the capture of a `tp` or a `tv` at that sample (R178) and after the forced stop that the evaluation itself
completed (R177). The values are finite, and, binary64 having a least value, the quotient `t_c` or `t01` of the new segment
does not round to zero unless there is nothing to change: that premise is the model's arithmetic's, not the spec's
(D24, log 13). -/
def Obligations.TargetSwitchesDoNotJump : Prop :=
  ∀ (m : Motion) (now : Word) (e : Evaluation), evaluate binary64 m now = .ok e →
    F64.finite e.pos → F64.finite e.vel → F64.finite m.maxAcceleration →
    (∀ v : F64, velocityChangeTakesTime m.maxAcceleration F64.zero e.vel →
      ∃ e', evaluate binary64 { m with targetPosition := v, mode := .position, t0 := now, p0 := e.pos, v0 := e.vel,
                                       stopNeeded := true } now = .ok e' ∧
        F64.sameNumber e'.pos e.pos ∧ F64.sameNumber e'.vel e.vel) ∧
    (∀ v : F64, F64.finite v → velocityChangeTakesTime m.maxAcceleration v e.vel →
      ∃ e', evaluate binary64 { m with targetVelocity := v, mode := .velocity, t0 := now, p0 := e.pos, v0 := e.vel,
                                       stopNeeded := false } now = .ok e' ∧
        F64.sameNumber e'.pos e.pos ∧ F64.sameNumber e'.vel e.vel) ∧
    (e.motion = m ∨
      (m.mode = .velocity ∧ F64.finite m.targetVelocity ∧
        velocityChangeTakesTime m.maxAcceleration m.targetVelocity e.vel) ∨
      (m.mode = .position ∧ F64.finite m.targetPosition ∧ F64.lt F64.zero m.maxVelocity = true ∧
        (F64.lt F64.zero (positionProfile binary64 e.motion).t01 = true ∨ F64.sameNumber m.targetPosition e.pos)) →
      ∃ e', evaluate binary64 e.motion now = .ok e' ∧ F64.sameNumber e'.pos e.pos ∧ F64.sameNumber e'.vel e.vel)

/-- The velocity branch (R180, R177) over any arithmetic, its formulas written out: accelerating before `t_c`, then held at the
target, with target 0 while `stop_needed`. The square as two multiplications from the left is DEDUCED (log 13), and so is the
elapsed time as a wrapping difference, which matters before `t0` only (log 14). -/
def Obligations.VelocityBranchFormulas : Prop :=
  ∀ (A : Arith) (m : Motion) (now : Word) (vt t tc a : F64), (m.stopNeeded = true ∨ m.mode = .velocity) →
    A.lt F64.zero m.maxAcceleration = true →
    vt = (if m.stopNeeded then F64.zero else m.targetVelocity) →
    t = A.div (A.ofInt ((now - m.t0).toNat : Int)) F64.million →
    tc = A.div (F64.abs (A.sub vt m.v0)) m.maxAcceleration →
    a = A.mul m.maxAcceleration (signOf A (A.sub vt m.v0)) →
    (A.lt t tc = true → evaluate A m now = .ok
      { pos := A.add (A.add m.p0 (A.mul m.v0 t)) (A.mul (A.mul (A.mul F64.half a) t) t)
        vel := A.add m.v0 (A.mul a t), motion := m }) ∧
    (A.lt t tc = false → ∃ e, evaluate A m now = .ok e ∧ e.vel = vt ∧
      e.pos = A.add (A.add (A.add m.p0 (A.mul m.v0 tc)) (A.mul (A.mul (A.mul F64.half a) tc) tc)) (A.mul vt (A.sub t tc)) ∧
      e.motion = if m.stopNeeded then { m with stopNeeded := false, t0 := now, p0 := e.pos, v0 := F64.zero } else m)

/-- The Position branch (R181, R182) over any arithmetic, its phases written out for a profile `(a, t01, p01, p12, t12)`:
accelerating, cruising, decelerating, and settled at `target_position` exactly with velocity 0; the profile is triangular
when the accelerating distance exceeds half the move. The square as two multiplications from the left is DEDUCED (log 13), and
so is the elapsed time as a wrapping difference, which matters before `t0` only (log 14). -/
def Obligations.PositionBranchPhases : Prop :=
  ∀ (A : Arith) (m : Motion) (now : Word) (t v1 : F64) (f : Profile), m.stopNeeded = false → m.mode = .position →
    A.lt F64.zero m.maxAcceleration = true → A.lt F64.zero m.maxVelocity = true →
    t = A.div (A.ofInt ((now - m.t0).toNat : Int)) F64.million → f = positionProfile A m → v1 = A.mul f.a f.t01 →
    (f.a = A.mul (signOf A (A.sub m.targetPosition m.p0)) m.maxAcceleration) ∧
    (A.lt (A.mul F64.half (F64.abs (A.sub m.targetPosition m.p0)))
        (F64.abs (A.mul (A.mul (A.mul F64.half f.a) (A.div m.maxVelocity m.maxAcceleration))
          (A.div m.maxVelocity m.maxAcceleration))) = true →
      f.p01 = A.mul F64.half (A.sub m.targetPosition m.p0) ∧ f.p12 = F64.zero ∧ f.t12 = F64.zero ∧
        f.t01 = A.sqrt (A.div (A.mul F64.two (F64.abs f.p01)) m.maxAcceleration)) ∧
    (A.lt (A.mul F64.half (F64.abs (A.sub m.targetPosition m.p0)))
        (F64.abs (A.mul (A.mul (A.mul F64.half f.a) (A.div m.maxVelocity m.maxAcceleration))
          (A.div m.maxVelocity m.maxAcceleration))) = false →
      f.t01 = A.div m.maxVelocity m.maxAcceleration ∧ f.p01 = A.mul (A.mul (A.mul F64.half f.a) f.t01) f.t01 ∧
        f.p12 = A.sub (A.sub m.targetPosition m.p0) (A.mul F64.two f.p01) ∧
        f.t12 = A.div (F64.abs f.p12) m.maxVelocity) ∧
    (A.lt t f.t01 = true → evaluate A m now = .ok
      { pos := A.add m.p0 (A.mul (A.mul (A.mul F64.half f.a) t) t), vel := A.mul f.a t, motion := m }) ∧
    (A.lt t f.t01 = false → A.lt t (A.add f.t01 f.t12) = true → evaluate A m now = .ok
      { pos := A.add (A.add m.p0 f.p01) (A.mul v1 (A.sub t f.t01)), vel := v1, motion := m }) ∧
    (A.lt t f.t01 = false → A.lt t (A.add f.t01 f.t12) = false → A.lt t (A.add (A.mul F64.two f.t01) f.t12) = true →
      ∀ td, td = A.sub (A.sub t f.t01) f.t12 → evaluate A m now = .ok
        { pos := A.sub (A.add (A.add (A.add m.p0 f.p01) f.p12) (A.mul v1 td)) (A.mul (A.mul (A.mul F64.half f.a) td) td)
          vel := A.sub v1 (A.mul f.a td), motion := m }) ∧
    (A.lt t f.t01 = false → A.lt t (A.add f.t01 f.t12) = false → A.lt t (A.add (A.mul F64.two f.t01) f.t12) = false →
      evaluate A m now = .ok { pos := m.targetPosition, vel := F64.zero, motion := m })

/-- `target_steps` (R184): the evaluated position divided by 360, times the steps per revolution, truncated; what it leaves in
MotionState is the evaluation's. -/
def Obligations.TargetStepsTruncatesTheScaledPosition : Prop :=
  ∀ (A : Arith) (c : Config) (m : Motion) (now : Word) (e : Evaluation), evaluate A m now = .ok e →
    (∀ n, A.trunc (A.mul (A.div e.pos F64.c360) (A.ofInt m.stepsPerRev)) = some n →
      -(2 ^ (c.stepW - 1) : Int) ≤ n → n < 2 ^ (c.stepW - 1) → targetSteps A c m now = .ok (n, e.motion)) ∧
    ((∀ n, A.trunc (A.mul (A.div e.pos F64.c360) (A.ofInt m.stepsPerRev)) = some n →
        ¬ (-(2 ^ (c.stepW - 1) : Int) ≤ n ∧ n < 2 ^ (c.stepW - 1))) →
      targetSteps A c m now = .error .targetOutOfRange)

end
end

