-- ==== Sys2Proof/Laws/Binary64.lean ====
section
/-! SUPPORT. Binary64.lean: reading patterns out (R36, R85, R183). -/

namespace Sys2Proof.Machine

theorem append_toNat {a b : Nat} (x : BitVec a) (y : BitVec b) : (x ++ y).toNat = x.toNat * 2 ^ b + y.toNat := by
  rw [BitVec.toNat_append, ← Nat.shiftLeft_add_eq_or_of_lt y.isLt, Nat.shiftLeft_eq]

/-- A NaN result is a NaN whatever its free bits are. -/
theorem value_nanOf (op : NanOp) (x y : F64) : F64.value (F64.nanOf op x y) = .nan := by
  have hz : ∃ a p : Nat, p < 2 ^ 51 ∧ (F64.nanOf op x y).toNat = (a * 2 ^ 11 + 2047) * 2 ^ 52 + (2 ^ 51 + p) := by
    refine ⟨((Config.nanBits op x y).extractLsb' 51 1).toNat, ((Config.nanBits op x y).extractLsb' 0 51).toNat,
      BitVec.isLt _, ?_⟩
    unfold F64.nanOf
    simp only [append_toNat]
    simp
  obtain ⟨a, p, hp, hz⟩ := hz
  have he : ((F64.nanOf op x y).extractLsb' 52 11).toNat = 2047 := by
    rw [BitVec.extractLsb'_toNat, hz, Nat.shiftRight_eq_div_pow]
    omega
  have hf : ((F64.nanOf op x y).extractLsb' 0 52).toNat ≠ 0 := by
    rw [BitVec.extractLsb'_toNat, hz, Nat.shiftRight_eq_div_pow]
    omega
  simp only [F64.value, he, hf, if_true, if_false]

/-- A NaN has no truncation (D20). -/
theorem trunc_nanOf (op : NanOp) (x y : F64) : F64.trunc (F64.nanOf op x y) = none := by
  simp [F64.trunc, value_nanOf]

/-- Only the two zeros are zero (R85). -/
theorem isZero_iff {x : F64} : F64.isZero x = true ↔ x = 0x0000000000000000#64 ∨ x = 0x8000000000000000#64 := by
  have key : x &&& 0x7FFFFFFFFFFFFFFF#64 = 0#64 ↔ x.toNat % 2 ^ 63 = 0 := by
    rw [← BitVec.toNat_inj, BitVec.toNat_and]
    show x.toNat &&& (2 ^ 63 - 1) = 0 ↔ _
    rw [Nat.and_two_pow_sub_one_eq_mod]
  simp only [F64.isZero, F64.abs, beq_iff_eq, key, ← BitVec.toNat_inj]
  have := x.isLt
  simp only [BitVec.toNat_ofNat]
  omega

end Sys2Proof.Machine
end

