-- ==== Sys2Proof/Laws/Parser.lean ====
section
/-! SUPPORT. Parser.lean: the character classes, the number field of a line, one byte of the parser and a whole feed of it. -/

namespace Sys2Proof.Machine

/-! ## Character classes (R82) -/

theorem isTerm_iff {c : Byte} : isTerm c = true ↔ c = chCR ∨ c = chLF := by simp [isTerm]

/-- A terminator is no number character. -/
theorem isNumChar_of_isTerm {c : Byte} (h : isTerm c = true) : isNumChar c = false := by
  rcases isTerm_iff.mp h with rfl | rfl <;> decide

/-- A number character is no letter. -/
theorem isLetter_of_isNumChar {c : Byte} (h : isNumChar c = true) : isLetter c = false := by
  simp only [isNumChar, Bool.or_eq_true, beq_iff_eq, isDigit, decide_eq_true_eq] at h
  simp only [isLetter, decide_eq_false_iff_not]
  rcases h with (rfl | rfl) | h
  · decide
  · decide
  · omega

/-- The number field of a line ends where the terminator stands (R81, R91). -/
theorem numField {num : List Byte} {t : Byte} (rest : List Byte) (h : num.all isNumChar = true) (ht : isTerm t = true) :
    (num ++ t :: rest).takeWhile isNumChar = num ∧ (num ++ t :: rest).dropWhile isNumChar = t :: rest := by
  induction num with
  | nil => simp [isNumChar_of_isTerm ht]
  | cons c l ih =>
    simp only [List.all_cons, Bool.and_eq_true] at h
    simp [h.1, ih h.2]

/-! ## One byte (R160) -/

theorem parseFirst_numbuf (c : Byte) (p : Parser) : (parseFirst c p).numbuf = p.numbuf := by
  unfold parseFirst; split <;> rfl

theorem parseFirst_pstate (c : Byte) (p : Parser) :
    (parseFirst c p).pstate = if isLetter c then .expectLetter2 else .expectLetter1 := by
  unfold parseFirst; split <;> simp_all

/-- Looking at a byte as a first letter, with nothing kept, meets the parser's invariant. -/
theorem parserInv_parseFirst {c : Byte} {p : Parser} (h : p.numbuf = []) : ParserInv (parseFirst c p) := by
  have hn := parseFirst_numbuf c p
  rw [h] at hn
  exact ⟨by simp [Parser.numlen, hn], by simp [hn], fun _ => hn⟩

/-- The parser's invariant is kept by every byte (R34). -/
theorem parserInv_consumeByte {c : Byte} {p : Parser} (h : ParserInv p) : ParserInv (consumeByte c p).1 := by
  have empty : p.pstate ≠ .expectValueOrEnd → ∀ q : Parser, q.numbuf = p.numbuf → ParserInv q := fun hs q hq => by
    have hq : q.numbuf = [] := by rw [hq, h.empty_outside hs]
    exact ⟨by simp [Parser.numlen, hq], by simp [hq], fun _ => hq⟩
  unfold consumeByte
  split
  · exact parserInv_parseFirst (h.empty_outside (by simp_all))
  · exact parserInv_parseFirst (h.empty_outside (by simp_all))
  · split
    · exact empty (by simp_all) _ rfl
    · exact parserInv_parseFirst rfl
  · split
    · exact empty (by simp_all) _ rfl
    · exact parserInv_parseFirst rfl
  · rename_i hp
    split
    · rename_i hc
      unfold keepChar
      split
      · rename_i hl
        refine ⟨?_, ?_, fun hs => absurd hp hs⟩
        · simp only [Parser.numlen, List.length_append, List.length_singleton] at hl ⊢; omega
        · simpa [hc] using h.chars
      · exact ⟨h.length_le, h.chars, fun hs => absurd hp hs⟩
    · split
      · exact ⟨by simp [Parser.numlen], by simp, by simp⟩
      · exact parserInv_parseFirst rfl

/-- A command is published at a terminator in `ExpectValueOrEnd` and nowhere else (R160, R161). -/
theorem consumeByte_publishes {c : Byte} {p : Parser} {cmd : Command} (h : (consumeByte c p).2 = some cmd) :
    p.pstate = .expectValueOrEnd ∧ isTerm c = true ∧ cmd = ⟨⟨p.l1, p.l2⟩, literal p.numbuf⟩ := by
  unfold consumeByte at h
  split at h
  · cases h
  · cases h
  · split at h <;> cases h
  · split at h <;> cases h
  · split at h
    · cases h
    · split at h
      · cases h; exact ⟨‹_›, ‹_›, rfl⟩
      · cases h

/-! ## A feed of bytes -/

@[simp] theorem feed_nil (p : Parser) : feed p [] = (p, []) := rfl

theorem feed_cons (p : Parser) (c : Byte) (l : List Byte) :
    feed p (c :: l) = ((feed (consumeByte c p).1 l).1, (consumeByte c p).2.toList ++ (feed (consumeByte c p).1 l).2) := rfl

theorem feed_append (p : Parser) (a b : List Byte) :
    feed p (a ++ b) = ((feed (feed p a).1 b).1, (feed p a).2 ++ (feed (feed p a).1 b).2) := by
  induction a generalizing p with
  | nil => rfl
  | cons c l ih => simp only [List.cons_append, feed_cons, ih, List.append_assoc]

end Sys2Proof.Machine
end

