-- ==== Sys2Proof/Laws/PerInstr.lean ====
section
/-! SUPPORT. PerInstr.lean: for every operation, the encoding carries the format, the mask and the match of its row of
`spec/opcode_table.json`. -/

namespace Sys2Proof.Laws.TableMatch

open Machine

/-- The bits of an encoding that the opcode table numbers, with the format's width: a WIRE line's first three bytes, byte 0 in
bits 23 to 16 (R83), a request word, a drive code, an event code. -/
def tableBits : Encoded → Nat × Nat
  | .wire (l1 :: l2 :: eq :: _) => (24, (wirePrefix l1 l2 eq).toNat)
  | .wire _ => (24, 0)
  | .host w => (68, w.toNat)
  | .drive d => (3, d.toNat)
  | .event ev _ => (4, ev.toNat)

/-- A row of the opcode table: the width of its format, its mask and its match. -/
structure Row where
  width : Nat
  mask : Nat
  value : Nat

/-- The row of each operation. -/
def row : Instr → Row
  | .en _ => ⟨24, 0xFFFFFF, 0x656E3D⟩
  | .mv _ => ⟨24, 0xFFFFFF, 0x6D763D⟩
  | .ma _ => ⟨24, 0xFFFFFF, 0x6D613D⟩
  | .sr _ => ⟨24, 0xFFFFFF, 0x73723D⟩
  | .tp _ => ⟨24, 0xFFFFFF, 0x74703D⟩
  | .tv _ => ⟨24, 0xFFFFFF, 0x74763D⟩
  | .now => ⟨68, 0xF, 0x1⟩
  | .blockUntil _ => ⟨68, 0xF, 0x2⟩
  | .rdt => ⟨68, 0xF, 0x3⟩
  | .rds => ⟨68, 0xF, 0x4⟩
  | .enable => ⟨3, 0x7, 0x1⟩
  | .disable => ⟨3, 0x7, 0x2⟩
  | .stepFwd => ⟨3, 0x7, 0x4⟩
  | .stepRev => ⟨3, 0x7, 0x5⟩
  | .cnt => ⟨4, 0xF, 0x0⟩
  | .tick => ⟨4, 0xF, 0x1⟩
  | .byte _ => ⟨4, 0xF, 0x2⟩
  | .sched => ⟨4, 0xF, 0x3⟩
  | .poll => ⟨4, 0xF, 0x4⟩
  | .edge => ⟨4, 0xF, 0x5⟩
  | .eval => ⟨4, 0xF, 0x6⟩
  | .step => ⟨4, 0xF, 0x7⟩

/-- The encoding of `i` is in the format of its row and matches it under the mask. -/
def Statement (i : Instr) : Prop :=
  (tableBits (encode i)).1 = (row i).width ∧ (tableBits (encode i)).2 &&& (row i).mask = (row i).value

/-- A WIRE line with the row's three bytes matches the row. -/
theorem wire (l1 l2 : Byte) (e : Encoded) (r : Row) (he : ∃ rest, e = .wire (l1 :: l2 :: chEq :: rest))
    (hw : r.width = 24) (hm : r.mask = 0xFFFFFF) (hv : (wirePrefix l1 l2 chEq).toNat &&& 0xFFFFFF = r.value) :
    (tableBits e).1 = r.width ∧ (tableBits e).2 &&& r.mask = r.value := by
  obtain ⟨rest, rfl⟩ := he
  rw [hw, hm]
  exact ⟨rfl, hv⟩

theorem en (v : F64) : Statement (.en v) := wire 0x65#8 0x6E#8 (encode (.en v)) ⟨24, 0xFFFFFF, 0x656E3D⟩
    ⟨_, rfl⟩ rfl rfl (by decide)
theorem mv (v : F64) : Statement (.mv v) := wire 0x6D#8 0x76#8 (encode (.mv v)) ⟨24, 0xFFFFFF, 0x6D763D⟩
    ⟨_, rfl⟩ rfl rfl (by decide)
theorem ma (v : F64) : Statement (.ma v) := wire 0x6D#8 0x61#8 (encode (.ma v)) ⟨24, 0xFFFFFF, 0x6D613D⟩
    ⟨_, rfl⟩ rfl rfl (by decide)
theorem sr (v : F64) : Statement (.sr v) := wire 0x73#8 0x72#8 (encode (.sr v)) ⟨24, 0xFFFFFF, 0x73723D⟩
    ⟨_, rfl⟩ rfl rfl (by decide)
theorem tp (v : F64) : Statement (.tp v) := wire 0x74#8 0x70#8 (encode (.tp v)) ⟨24, 0xFFFFFF, 0x74703D⟩
    ⟨_, rfl⟩ rfl rfl (by decide)
theorem tv (v : F64) : Statement (.tv v) := wire 0x74#8 0x76#8 (encode (.tv v)) ⟨24, 0xFFFFFF, 0x74763D⟩
    ⟨_, rfl⟩ rfl rfl (by decide)
theorem now : Statement .now := by unfold Statement; decide
theorem blockUntil (d : Word) : Statement (.blockUntil d) := by
  refine ⟨rfl, ?_⟩
  show (hostWord d 0x2#4).toNat &&& (2 ^ 4 - 1) = 2
  rw [Nat.and_two_pow_sub_one_eq_mod, hostWord, BitVec.toNat_append, ← Nat.shiftLeft_add_eq_or_of_lt (by decide),
    Nat.shiftLeft_eq]
  have : (2#4).toNat = 2 := rfl
  omega
theorem rdt : Statement .rdt := by unfold Statement; decide
theorem rds : Statement .rds := by unfold Statement; decide
theorem enable : Statement .enable := by unfold Statement; decide
theorem disable : Statement .disable := by unfold Statement; decide
theorem stepFwd : Statement .stepFwd := by unfold Statement; decide
theorem stepRev : Statement .stepRev := by unfold Statement; decide
theorem cnt : Statement .cnt := by unfold Statement; decide
theorem tick : Statement .tick := by unfold Statement; decide
theorem byte (c : Byte) : Statement (.byte c) := ⟨rfl, by show 0x2 &&& 0xF = 0x2; decide⟩
theorem sched : Statement .sched := by unfold Statement; decide
theorem poll : Statement .poll := by unfold Statement; decide
theorem edge : Statement .edge := by unfold Statement; decide
theorem eval : Statement .eval := by unfold Statement; decide
theorem step : Statement .step := by unfold Statement; decide

end Sys2Proof.Laws.TableMatch
end

