-- ==== Sys2Proof/Laws/Registers.lean ====
section
/-! SUPPORT. Registers.lean: the register space (R61): what a read and a write of it can answer. -/

namespace Sys2Proof.Machine

/-- An admitted read answers the register of that index (R61). -/
theorem memRead_ok {s : State} {addr n : Nat} {v : Word} (h : memRead s addr n = .ok v) :
    n = 8 ∧ addr % 8 = 0 ∧ ∃ r, regList[addr / 8]? = some r ∧ v = readReg s r := by
  unfold memRead at h
  split at h
  · rename_i ha
    split at h
    · cases h; exact ⟨ha.1, ha.2, _, ‹_›, rfl⟩
    · cases h
  · cases h

/-- Every read outside the 14 offsets is refused (R61, R66). -/
theorem memRead_refused {s : State} {addr n : Nat} (h : n ≠ 8 ∨ addr % 8 ≠ 0 ∨ 0x70 ≤ addr) :
    memRead s addr n = .error .badRegisterAccess := by
  unfold memRead
  split
  · have : regList[addr / 8]? = none := by
      rw [List.getElem?_eq_none]
      show 14 ≤ addr / 8
      omega
    rw [this]
  · rfl

theorem memWrite_refused (s : State) (addr n : Nat) (v : Word) : memWrite s addr n v = .error .registerWrite := rfl

/-- The reads of a state are those of its registers: two states with the same registers read alike. -/
theorem memRead_congr {s t : State} (h : ∀ r, readReg t r = readReg s r) (addr n : Nat) : memRead t addr n = memRead s addr n := by
  unfold memRead
  split
  · split
    · rw [h]
    · rfl
  · rfl

end Sys2Proof.Machine
end

