-- ==== Sys2Proof/Tests/Slice0.lean ====
section
/-! SUPPORT. Slice0.lean: tests. Expected values are the spec's own (95_test_vectors.md, named at each test) or worked by hand
from the rule named. The `witness_` theorems show states and operands that meet the hypotheses of each statement. -/

namespace Sys2Proof.Tests

/- The kernel evaluations one after another: many at once take a thread each. -/
set_option Elab.async false

open Sys2Proof.Machine

/-! ## Helpers -/

/-- The outcome is a next state of which `f` holds. -/
def next (r : Result) (f : State → Bool) : Bool :=
  match r with
  | .next t => f t
  | .fault _ => false
  | .refused _ => false

/-- The outcome is this refusal. -/
def refuses (r : Result) (x : Refusal) : Bool :=
  match r with
  | .refused y => decide (x = y)
  | .next _ => false
  | .fault _ => false

/-- The outcome is the fault of the model. -/
def faults (r : Result) : Bool :=
  match r with
  | .fault _ => true
  | .next _ => false
  | .refused _ => false

/-- A state at a clock time and at control codes, everything else as after reset. -/
def at_ (ticks sub : Nat) (rctl sctl : BitVec 4) : State :=
  { State.reset with ticks := ticks, sub := sub, rctl := rctl, sctl := sctl }

/-- The MotionState of vector S1. -/
def motionS1 : Motion := { State.reset.motion with targetPosition := 0x4066800000000000#64 }

/-- The MotionState of vector S2. -/
def motionS2 : Motion :=
  { State.reset.motion with mode := .velocity, targetVelocity := 0x4049000000000000#64 }

/-- Position and velocity of an evaluation. -/
def sample (m : Motion) (now : Word) : Option (F64 × F64) :=
  match evaluate binary64 m now with
  | .ok e => some (e.pos, e.vel)
  | .error _ => none

/-- The step target of an evaluation. -/
def target (m : Motion) (now : Word) : Except Refusal Int :=
  match targetSteps binary64 Config.default m now with
  | .ok (n, _) => .ok n
  | .error r => .error r

/-! ## Well-formedness: each check refuses an ill-formed term (R84: no text denotes NaN, an infinity, or 1e300) -/

theorem test_wellFormed_en : (Instr.en 0x7FF8000000000000#64).wellFormed = false := by decide +kernel
theorem test_wellFormed_mv : (Instr.mv 0x7FF0000000000000#64).wellFormed = false := by decide +kernel
theorem test_wellFormed_ma : (Instr.ma 0xFFF0000000000000#64).wellFormed = false := by decide +kernel
theorem test_wellFormed_sr : (Instr.sr 0x7E37E43C8800759C#64).wellFormed = false := by decide +kernel
theorem test_wellFormed_tp : (Instr.tp 0x7FF0000000000001#64).wellFormed = false := by decide +kernel
theorem test_wellFormed_tv : (Instr.tv 0x0000000000000001#64).wellFormed = false := by decide +kernel

/-- R84 at the longest text: `-` and thirty nines, 31 characters, is -1e30, and -1e31 has no text. -/
theorem test_wellFormed_longest : (Instr.tp 0xC6293E5939A08CEA#64).wellFormed = true ∧
    literal (0x2D#8 :: List.replicate 30 0x39#8) = 0xC6293E5939A08CEA#64 ∧
    (Instr.tp 0xC65F8DEF8808B024#64).wellFormed = false := by decide +kernel
theorem test_encode_longest : encode (.tp 0xC6293E5939A08CEA#64) =
    .wire ([0x74#8, 0x70#8, 0x3D#8, 0x2D#8] ++ List.replicate 30 0x39#8 ++ [0x0A#8]) := by decide +kernel

/-! ## Decoding: words written out from the encodings (R81, R83, R86, R88, R89; vectors E1, E2, E5, S3) -/

/-- `en=1` with a line feed (S4). -/
theorem test_decode_en : decode (.wire [0x65#8, 0x6E#8, 0x3D#8, 0x31#8, 0x0A#8]) = .ok (.en 0x3FF0000000000000#64) := by
  decide +kernel
/-- `mv=90` with a carriage return. -/
theorem test_decode_mv : decode (.wire [0x6D#8, 0x76#8, 0x3D#8, 0x39#8, 0x30#8, 0x0D#8]) =
    .ok (.mv 0x4056800000000000#64) := by decide +kernel
/-- `ma=10`. -/
theorem test_decode_ma : decode (.wire [0x6D#8, 0x61#8, 0x3D#8, 0x31#8, 0x30#8, 0x0A#8]) =
    .ok (.ma 0x4024000000000000#64) := by decide +kernel
/-- `sr=-.5`. -/
theorem test_decode_sr : decode (.wire [0x73#8, 0x72#8, 0x3D#8, 0x2D#8, 0x2E#8, 0x35#8, 0x0A#8]) =
    .ok (.sr 0xBFE0000000000000#64) := by decide +kernel
/-- `tp=-123.4567890` (S3). -/
theorem test_decode_tp : decode (.wire [0x74#8, 0x70#8, 0x3D#8, 0x2D#8, 0x31#8, 0x32#8, 0x33#8, 0x2E#8, 0x34#8, 0x35#8,
    0x36#8, 0x37#8, 0x38#8, 0x39#8, 0x30#8, 0x0A#8]) = .ok (.tp 0xC05EDD3C07EE0B0B#64) := by decide +kernel
/-- `tv=50` with a carriage return (S4). -/
theorem test_decode_tv : decode (.wire [0x74#8, 0x76#8, 0x3D#8, 0x35#8, 0x30#8, 0x0D#8]) =
    .ok (.tv 0x4049000000000000#64) := by decide +kernel
/-- `zz=7` is a line with an unknown code (E5, R90 b), `TP=5` none at all (R90 a). -/
theorem test_decode_wire_rejects :
    decode (.wire [0x7A#8, 0x7A#8, 0x3D#8, 0x37#8, 0x0A#8]) = .error .unknownCode ∧
    decode (.wire [0x54#8, 0x50#8, 0x3D#8, 0x35#8, 0x0A#8]) = .error .notALetter ∧
    decode (.wire [0x74#8, 0x70#8, 0x35#8, 0x0A#8]) = .error .missingEquals ∧
    decode (.wire [0x74#8, 0x70#8, 0x3D#8, 0x2B#8, 0x0A#8]) = .error .unexpectedByte ∧
    decode (.wire [0x74#8, 0x70#8, 0x3D#8, 0x35#8]) = .error .noTerminator := by decide +kernel
theorem test_decode_now : decodeHost 0x1#68 = .ok .now ∧ decodeHost 0xDEAD1#68 = .ok .now := by decide
theorem test_decode_blockUntil : decodeHost 0x17D42#68 = .ok (.blockUntil 6100#64) := by decide
theorem test_decode_rdt : decodeHost 0x3#68 = .ok .rdt := by decide
theorem test_decode_rds : decodeHost 0x4#68 = .ok .rds := by decide
/-- 0x0, 0x5, 0xF and 0x17D4F are reserved (E1). -/
theorem test_decode_host_reserved : decodeHost 0x0#68 = .error .reservedCode ∧ decodeHost 0x5#68 = .error .reservedCode ∧
    decodeHost 0x17D4F#68 = .error .reservedCode := by decide
theorem test_decode_drive : decodeDrive 0b001#3 = .ok .enable ∧ decodeDrive 0b010#3 = .ok .disable ∧
    decodeDrive 0b100#3 = .ok .stepFwd ∧ decodeDrive 0b101#3 = .ok .stepRev ∧
    decodeDrive 0b011#3 = .error .reservedCode := by decide
theorem test_decode_event : decodeEvent 0#4 0#8 = .ok .cnt ∧ decodeEvent 1#4 0#8 = .ok .tick ∧
    decodeEvent 2#4 0x61#8 = .ok (.byte 0x61#8) ∧ decodeEvent 3#4 0#8 = .ok .sched ∧ decodeEvent 4#4 0#8 = .ok .poll ∧
    decodeEvent 5#4 0#8 = .ok .edge ∧ decodeEvent 6#4 0#8 = .ok .eval ∧ decodeEvent 7#4 0#8 = .ok .step ∧
    decodeEvent 8#4 0#8 = .error .reservedCode := by decide
/-- A table word placed for the next step runs as the first operation after reset. -/
theorem test_withFetchWord_tick : next (step (State.reset.withFetchWord 8 1)) (fun t => t.ticks = 1 && t.sub = 0) = true := by
  decide
theorem test_withFetchWord_en : next (step (State.reset.withFetchWord 24 0x656E3D))
    (fun t => !t.motion.enabled && phase t = some .edge) = true := by decide +kernel

/-! ## The literal (vector U, R84) -/

theorem test_literal_zeros : literal [] = 0#64 ∧ literal [0x2D#8] = 0#64 ∧ literal [0x2E#8] = 0#64 ∧
    literal [0x2D#8, 0x2D#8, 0x31#8] = 0#64 ∧ literal [0x2E#8, 0x2D#8, 0x35#8] = 0#64 ∧
    literal [0x2D#8, 0x2E#8, 0x30#8] = 0x8000000000000000#64 := by decide +kernel
theorem test_literal_values : literal [0x30#8, 0x2E#8, 0x31#8] = 0x3FB999999999999A#64 ∧
    literal [0x31#8, 0x2D#8, 0x32#8] = 0x3FF0000000000000#64 ∧
    literal [0x31#8, 0x2E#8, 0x32#8, 0x2E#8, 0x33#8] = 0x3FF3333333333333#64 ∧
    literal (List.replicate 31 0x31#8) = 0x462C0C632395F1E7#64 := by decide +kernel

/-! ## Unit CLK (vectors K1 to K9, E3, E4) -/

theorem test_us_up : us { Config.default with subMod := 4000 } 2 2001 = 2500 ∧
    us { Config.default with subMod := 72000 } 1 71 = 1000 ∧ us { Config.default with subMod := 4 } 7 3 = 7750 := by decide
theorem test_us_down : us { Config.default with subMod := 4000, subDir := .down } 2 1998 = 2500 ∧
    us { Config.default with subMod := 500, subDir := .down } 0 250 = 498 := by decide
theorem test_cnt : next (exec .cnt (at_ 5 250 0 0)) (fun t => t.ticks = 5 && t.sub = 251) = true ∧
    faults (exec .cnt (at_ 5 999 0 0)) = true := by decide
theorem test_tick : next (exec .tick (at_ 5 999 0 0)) (fun t => t.ticks = 6 && t.sub = 0) = true ∧
    faults (exec .tick (at_ 5 250 0 0)) = true := by decide
/-- K8. -/
theorem test_tick_overflow : refuses (exec .tick (at_ 18446744073709550 999 0 0)) .tickOverflow = true := by decide
/-- K7: the raw count, from a sub-counter that counts down. -/
theorem test_rds_raw : next (exec .rds { at_ 2 1998 0 0 with cfg := { Config.default with subMod := 4000, subDir := .down } })
    (fun t => t.responses = [some 1998#64]) = true := by decide
theorem test_rdt : next (exec .rdt (at_ 6 0 0 0)) (fun t => t.responses = [some 6#64] && t.ticks = 6) = true := by decide
/-- K4: five steps with no event. -/
theorem test_now : next (execTimes .now 5 (at_ 5 250 0 0))
    (fun t => t.nowval = 5250#64 && t.responses = [some 5250#64] && t.rctl = 0#4) = true := by decide
/-- K3, second row: a TICK between steps 1 and 2 makes the reads (5, 0, 6), and the comparison starts over. -/
theorem test_now_retries : next (exec .now { at_ 6 0 4 0 with t1 := 5, sLatch := 0, t2 := 6 })
    (fun t => t.rctl = 1#4 && t.nowval = 0#64) = true := by decide
/-- K9: RCTL is 0xA between steps 1 and 2; a deadline just reached completes, one just ahead does not. -/
theorem test_blockUntil : next (execTimes (.blockUntil 5250#64) 2 (at_ 5 250 0 0)) (fun t => t.rctl = 0xA#4) = true ∧
    next (execTimes (.blockUntil 5250#64) 5 (at_ 5 250 0 0)) (fun t => t.rctl = 0#4 && t.responses = [none]) = true := by
  decide
theorem test_blockUntil_waits : next (execTimes (.blockUntil 5251#64) 5 (at_ 5 250 0 0))
    (fun t => t.rctl = 9#4 && t.nowval = 5250#64 && t.responses = []) = true := by decide
/-- E4. -/
theorem test_memRead : memRead (at_ 6 0 0 0) 0x00 8 = .ok 6#64 ∧ memRead State.reset 0x40 8 = .ok 100#64 ∧
    memRead { State.reset with actualSteps := -1 } 0x50 8 = .ok 0xFFFFFFFFFFFFFFFF#64 ∧
    memRead State.reset 0x04 8 = .error .badRegisterAccess ∧ memRead State.reset 0x00 4 = .error .badRegisterAccess ∧
    memRead State.reset 0x70 8 = .error .badRegisterAccess := by decide

/-! ## Unit SEQ (vectors L1 to L4) -/

theorem test_sched_due : next (exec .sched { State.reset with call := .schedNow, nowval := 5302#64, nextRun := 5300#64 })
    (fun t => t.nextRun = 5402#64 && phase t = some .poll) = true := by decide
theorem test_sched_not_due : next (exec .sched { State.reset with call := .schedNow, nowval := 5250#64, nextRun := 5300#64 })
    (fun t => t.nextRun = 5300#64 && phase t = some .wait) = true := by decide
/-- R131's example: (`en`, 1.0) claimed with (`en`, 1.0) in DCUR is verified. -/
theorem test_poll_verified : next (exec .poll { at_ 0 0 0 1 with
      slot := ⟨true, ⟨codeEn, 0x3FF0000000000000#64⟩⟩,
      dcur := some ⟨codeEn, 0x3FF0000000000000#64⟩ })
    (fun t => t.call = .handle ⟨codeEn, 0x3FF0000000000000#64⟩ && !t.slot.ready && t.dprev = t.dcur) = true := by decide
/-- Q, `en=0` then `en=-0`: the two zeros differ in bits, nothing is verified. -/
theorem test_poll_zeros_differ : next (exec .poll { at_ 0 0 0 1 with
      slot := ⟨true, ⟨codeEn, 0x8000000000000000#64⟩⟩,
      dcur := some ⟨codeEn, 0#64⟩ })
    (fun t => t.call = .idle && phase t = some .edge) = true := by decide
theorem test_edge_rising : next (exec .edge { at_ 0 0 0 2 with motion := { State.reset.motion with enabled := true } })
    (fun t => t.drives = [.enable] && t.sctl = 0xB#4) = true := by decide
theorem test_edge_falling : next (exec .edge (at_ 0 0 0 0xA)) (fun t => t.drives = [.disable] && t.sctl = 3#4) = true := by
  decide
theorem test_step_one : next (exec .step { at_ 0 0 0 4 with target := 1000000 })
    (fun t => t.actualSteps = 1 && t.drives = [.stepFwd] && phase t = some .wait) = true ∧
    next (exec .step { at_ 0 0 0 4 with target := -2 }) (fun t => t.actualSteps = -1 && t.drives = [.stepRev]) = true := by
  decide
theorem test_step_overflow :
    refuses (exec .step { at_ 0 0 0 4 with target := 2147483647, actualSteps := 2147483646 }) .stepOverflow = true ∧
    refuses (exec .step { at_ 0 0 0 4 with target := -2147483648, actualSteps := -2147483647 }) .stepOverflow = true := by
  decide
/-- L4: 15000 degrees a second for 250 µs is 3.75 degrees, 360 steps per revolution. -/
theorem test_eval : next (exec .eval { at_ 0 250 0 3 with
      call := .evalNow, nowval := 250#64,
      motion := { motionS2 with targetVelocity := 0x40CD4C0000000000#64, v0 := 0x40CD4C0000000000#64, stepsPerRev := 360 } })
    (fun t => t.tsample = 250#64 && t.target = 3 && phase t = some .step) = true := by decide +kernel
/-- R135 to R138: each is emitted where EDGE or STEP emits it. -/
theorem test_drive_commands :
    next (exec .enable (withEnabled true (at_ 0 0 0 2))) (fun t => t.drives = [.enable] && t.sctl = 2#4) = true ∧
    next (exec .disable (at_ 0 0 0 0xA)) (fun t => t.drives = [.disable] && t.sctl = 0xA#4) = true ∧
    next (exec .stepFwd { at_ 0 0 0 4 with target := 2 }) (fun t => t.drives = [.stepFwd] && t.actualSteps = 0) = true ∧
    next (exec .stepRev { at_ 0 0 0 4 with target := -2 }) (fun t => t.drives = [.stepRev] && t.actualSteps = 0) = true := by
  decide
/-- And nowhere else: at P_WAIT, with no edge, with the target the other way. -/
theorem test_drive_commands_elsewhere : faults (exec .enable (withEnabled true State.reset)) = true ∧
    faults (exec .disable (at_ 0 0 0 2)) = true ∧ faults (exec .stepFwd { at_ 0 0 0 4 with target := -1 }) = true ∧
    faults (exec .stepRev (at_ 0 0 0 4)) = true := by decide
/-- A DRIVE code in a trace is the whole STEP that emits it (R134's example: 5 against 3). -/
theorem test_drive_turn : next (Machine.step { at_ 0 0 0 4 with target := 5, actualSteps := 3, schedule := [.drive 4#3] })
    (fun t => t.drives = [.stepFwd] && t.actualSteps = 4 && phase t = some .wait && t.schedule = []) = true := by decide
theorem test_drive_turn_edge : next (Machine.step { withEnabled true (at_ 0 0 0 2) with schedule := [.drive 1#3] })
    (fun t => t.drives = [.enable] && t.sctl = 0xB#4) = true := by decide

/-! ## Who may use the reader (R26, R31, R139, R188) -/

/-- RSTATE or PHASE at 5 stops a TICK too. -/
theorem test_bad_state : refuses (Machine.step { at_ 0 999 5 0 with schedule := [.event 1#4 0#8] }) .badRstate = true ∧
    refuses (Machine.step { at_ 0 999 0 5 with schedule := [.event 1#4 0#8] }) .badPhase = true := by decide
/-- After EDGE has emitted, a host's RDT waits; the stepping collaborator's BLOCK_UNTIL is issued. -/
theorem test_host_waits :
    next (Machine.step { at_ 0 0 0 0xB with driveCall := true, schedule := [.host false 0x3#68] })
      (fun t => t.responses = [] && t.call = .evalNow && t.schedule = [.host false 0x3#68]) = true ∧
    next (Machine.step { at_ 0 0 0 0xB with driveCall := true, schedule := [.collaborator 7#64] })
      (fun t => t.rctl = 9#4 && t.deadline = 7#64 && t.sctl = 0xB#4 && t.schedule = []) = true := by decide
/-- The collaborator's completion is not one of the host port; a host's is. -/
theorem test_collaborator_completes :
    next (execTimes (.blockUntil 5250#64) 5 { at_ 5 250 0 0xB with driveCall := true })
      (fun t => t.rctl = 0#4 && t.responses = [] && t.driveCall) = true := by decide

/-! ## The parser (vectors W) -/

/-- `abc=1`: `c` resets and becomes letter 1, `=` resets; nothing is published. -/
theorem test_byte_reset : feed State.reset.parser [0x61#8, 0x62#8, 0x63#8, 0x3D#8, 0x31#8, 0x0A#8] =
    (⟨.expectLetter1, 0x63#8, 0x62#8, []⟩, []) := by decide
/-- `a1tp=5`: the `1` resets and is dropped, then the line publishes (`tp`, 5.0). -/
theorem test_byte_publish : (feed State.reset.parser [0x61#8, 0x31#8, 0x74#8, 0x70#8, 0x3D#8, 0x35#8, 0x0A#8]).2 =
    [⟨codeTp, 0x4014000000000000#64⟩] := by decide +kernel

/-! ## The planner (vectors S1, S2, M4, M6, M7, M9, M10) -/

theorem test_position_profile : sample motionS1 2000000#64 = some (0x4034000000000000#64, 0x4034000000000000#64) ∧
    sample motionS1 8485282#64 = some (0x4066800000000000#64, 0#64) := by decide +kernel
/-- S1: the last accelerating microsecond gives 49 steps, the first decelerating one 50. -/
theorem test_position_targets : target motionS1 4242640#64 = .ok 49 ∧ target motionS1 4242641#64 = .ok 50 := by
  decide +kernel
theorem test_velocity_branch : sample motionS2 2500000#64 = some (0x403F400000000000#64, 0x4039000000000000#64) ∧
    sample motionS2 6000000#64 = some (0x4065E00000000000#64, 0x4049000000000000#64) := by decide +kernel
/-- M6 at 3000000: the stop completes at 40 degrees. -/
theorem test_forced_stop : (match evaluate binary64 { motionS1 with
      mode := .position, t0 := 1000000#64,
      p0 := 0x4034000000000000#64, v0 := 0x4034000000000000#64, targetPosition := 0#64, stopNeeded := true } 3000000#64 with
    | .ok e => decide (e.pos = 0x4044000000000000#64 ∧ e.vel = 0#64 ∧ e.motion.stopNeeded = false ∧
        e.motion.t0 = 3000000#64 ∧ e.motion.p0 = 0x4044000000000000#64 ∧ e.motion.v0 = 0#64)
    | .error _ => false) = true := by decide +kernel
/-- M7: 359.99 degrees gives 199 steps and -539.9 gives -299. -/
theorem test_truncation : degreesToSteps binary64 0x40767FD70A3D70A4#64 200 = some 199 ∧
    degreesToSteps binary64 0xC080DF3333333333#64 200 = some (-299) := by decide +kernel
theorem test_en : next (exec (.en 0x8000000000000000#64) { State.reset with motion := { motionS1 with enabled := true } })
      (fun t => !t.motion.enabled) = true ∧
    next (exec (.en 0xBFE0000000000000#64) State.reset) (fun t => t.motion.enabled) = true := by decide
theorem test_mv : next (exec (.mv 0#64) State.reset) (fun t => t.motion.maxVelocity = 0#64) = true := by decide
theorem test_ma : next (exec (.ma 0x4004000000000000#64) State.reset)
    (fun t => t.motion.maxAcceleration = 0x4004000000000000#64) = true := by decide
/-- M10: a zero limit is refused by the evaluation that needs it and not by the command. -/
theorem test_bad_limit : sample { motionS1 with maxVelocity := 0#64 } 0#64 = none ∧
    sample { motionS2 with maxAcceleration := 0#64 } 0#64 = none ∧
    sample { motionS2 with maxVelocity := 0#64 } 0#64 = some (0#64, 0#64) := by decide +kernel
/-- R173: 200.9 stores 200, -0.5 stores 0; M10: 10^10 is refused. -/
theorem test_sr : next (exec (.sr 0x40691CCCCCCCCCCD#64) State.reset) (fun t => t.motion.stepsPerRev = 200) = true ∧
    next (exec (.sr 0xBFE0000000000000#64) State.reset) (fun t => t.motion.stepsPerRev = 0) = true := by decide +kernel
theorem test_sr_out_of_range : refuses (exec (.sr 0x4202A05F20000000#64) State.reset) .srOutOfRange = true := by
  decide +kernel
/-- S6: `tv=0` handled at 2000000 in S1 captures (20.0, 20.0). -/
theorem test_tv : next (exec (.tv 0#64) { at_ 2000 0 0 1 with
      motion := motionS1, nowval := 2000000#64,
      call := .handleNow ⟨codeTv, 0#64⟩ })
    (fun t => t.motion.p0 = 0x4034000000000000#64 && t.motion.v0 = 0x4034000000000000#64 &&
      t.motion.t0 = 2000000#64 && t.motion.mode = .velocity && !t.motion.stopNeeded) = true := by decide +kernel
/-- M6: `tp=0` handled at 1000000 while cruising at 20 degrees a second. -/
theorem test_tp : next (exec (.tp 0#64) { at_ 1000 0 0 1 with
      nowval := 1000000#64, call := .handleNow ⟨codeTp, 0#64⟩,
      motion := { motionS2 with v0 := 0x4034000000000000#64, targetVelocity := 0x4034000000000000#64 } })
    (fun t => t.motion.p0 = 0x4034000000000000#64 && t.motion.v0 = 0x4034000000000000#64 &&
      t.motion.mode = .position && t.motion.stopNeeded) = true := by decide +kernel

/-! ## Witnesses: states and operands that meet the hypotheses of the statements, clause by clause -/

/-- After `n` steps of the block. -/
def after (n : Nat) (s : State) : State :=
  match stepTimes n s with
  | .next t => t
  | .fault _ => s
  | .refused _ => s

theorem steps_after (n : Nat) : ∀ s : State, next (stepTimes n s) (fun _ => true) = true → Steps s (after n s) := by
  induction n with
  | zero => intro s _; exact Steps.refl s
  | succ n ih =>
    intro s h
    cases hs : Machine.step s with
    | next t =>
      have e : stepTimes (n + 1) s = stepTimes n t := by simp [stepTimes, hs]
      have ea : after (n + 1) s = after n t := by
        have hn : next (stepTimes n t) (fun _ => true) = true := by rw [← e]; exact h
        unfold after
        rw [e]
        cases hq : stepTimes n t with
        | next u => rfl
        | fault f => rw [hq] at hn; cases hn
        | refused r => rw [hq] at hn; cases hn
      rw [ea]
      exact Steps.next s t _ hs (ih t (by rw [← e]; exact h))
    | fault f => simp [stepTimes, hs, next] at h
    | refused r => simp [stepTimes, hs, next] at h

theorem step_after (s : State) (h : next (Machine.step s) (fun _ => true) = true) : Machine.step s = .next (after 1 s) := by
  cases hs : Machine.step s with
  | next t => simp [after, stepTimes, hs]
  | fault f => simp [hs, next] at h
  | refused r => simp [hs, next] at h

/-- One count a tick. -/
def cfg1 : Config := { Config.default with subMod := 1 }
/-- The loop about to start its first iteration, with a TICK to come. -/
def sStart : State := { State.reset with cfg := cfg1, call := .schedNow, schedule := [.main, .event 1#4 0#8] }
/-- A BLOCK_UNTIL at step 1. -/
def sBlock : State := { State.reset with rctl := 9#4, deadline := 5#64 }
/-- The state in which the second iteration starts. -/
def sSecond : State := after 16 sStart

theorem inv_sStart : Inv sStart where
  cfg := by decide
  clock := ⟨by decide, by decide⟩
  reader := show rwait sStart = false by decide
  loop := show phase sStart = some .wait ∧ rwait sStart = false by decide
  port := ⟨by decide, by decide⟩
  time := ⟨by decide, by decide, by decide, by decide⟩
  parser := ⟨by decide, by decide, fun _ => rfl⟩
  drive := ⟨by decide, by decide, by decide, by decide⟩
  motion := fun _ _ => by decide

theorem inv_sBlock : Inv sBlock where
  cfg := by decide
  clock := ⟨by decide, by decide⟩
  reader := show True by trivial
  loop := show phase sBlock ≠ none by decide
  port := ⟨by decide, by decide⟩
  time := ⟨by decide, by decide, by decide, by decide⟩
  parser := ⟨by decide, by decide, fun _ => rfl⟩
  drive := ⟨by decide, by decide, by decide, by decide⟩
  motion := fun _ _ => by decide

theorem witness_EncodedInstructionDecodesToItself : (Instr.tp 0xC05EDD3C07EE0B0B#64).wellFormed = true ∧
    (Instr.sr 0x465F8DEF8808B024#64).wellFormed = true ∧ (Instr.tp 0xC6293E5939A08CEA#64).wellFormed = true ∧ (Instr.en 0x8000000000000000#64).wellFormed = true ∧
    (Instr.blockUntil 0xFFFFFFFFFFFFFFFF#64).wellFormed = true := by decide +kernel

theorem witness_ForbiddenTurnsAreRefused : 5#3 ≤ (at_ 0 0 5 0).rctl.extractLsb' 0 3 ∧ 5#3 ≤ (at_ 0 0 0xF 0).rctl.extractLsb' 0 3 ∧
    ((at_ 0 0 4 5).rctl.extractLsb' 0 3 < 5#3 ∧ 5#3 ≤ (at_ 0 0 4 5).sctl.extractLsb' 0 3) ∧
    ((at_ 0 0 4 4).rctl.extractLsb' 0 3 < 5#3 ∧ (at_ 0 0 4 4).sctl.extractLsb' 0 3 < 5#3) ∧
    ((0x17D4F#68).extractLsb' 0 4 = 0#4 ∨ 5#4 ≤ (0x17D4F#68).extractLsb' 0 4) ∧
    ((0x5#68).extractLsb' 0 4 = 0#4 ∨ 5#4 ≤ (0x5#68).extractLsb' 0 4) ∧
    ((0x0#68).extractLsb' 0 4 = 0#4 ∨ 5#4 ≤ (0x0#68).extractLsb' 0 4) ∧ 8#4 ≤ 8#4 ∧ 8#4 ≤ 15#4 ∧
    ((0x1#68).extractLsb' 0 4 = 1#4 ∧ (0x17D42#68).extractLsb' 0 4 = 2#4) ∧
    ({ State.reset with schedule := [.host true 0x1#68] }).schedule = .host true 0x1#68 :: [] := by decide

theorem witness_OnlyTheListedCodesDecode : decodeHost 0xDEAD1#68 = .ok .now ∧ decodeHost 0x17D42#68 = .ok (.blockUntil 6100#64) ∧
    decodeDrive 5#3 = .ok .stepRev ∧ decodeEvent 2#4 0xFF#8 = .ok (.byte 0xFF#8) ∧ decodeEvent 7#4 9#8 = .ok .step := by decide

theorem witness_LineEndsAtItsTerminator : isLetter 0x61#8 = true ∧ isLetter 0x7A#8 = true ∧
    (List.replicate 32 0x39#8).all isNumChar = true ∧ ([] : List Byte).all isNumChar = true ∧
    isTerm 0x0D#8 = true ∧ isTerm 0x0A#8 = true := by decide

/-- `1-2` with no point, `.5.3`, and, with no prefix, `--1` and `..`. -/
theorem witness_LiteralTakesLongestPrefix : [0x31#8].all isDigit = true ∧ [0x35#8].all isDigit = true ∧
    (∀ c r, [0x2D#8, 0x32#8] = c :: r → isDigit c = false ∧ c ≠ 0x2E#8) ∧
    (∀ c r, [0x2E#8, 0x33#8] = c :: r → isDigit c = false) ∧
    (∀ c r, [0x2D#8, 0x31#8] = c :: r → isDigit c = false) ∧
    (∀ c r, [0x2E#8, 0x2E#8] = (0x2E#8 : Byte) :: c :: r → isDigit c = false) ∧
    (∀ r, [0x2E#8, 0x2E#8] ≠ (0x2D#8 : Byte) :: r) := by
  refine ⟨by decide, by decide, ?_, ?_, ?_, ?_, ?_⟩
  · rintro c r h; injection h with h1; subst h1; decide
  · rintro c r h; injection h with h1; subst h1; decide
  · rintro c r h; injection h with h1; subst h1; decide
  · rintro c r h; injection h with _ h; injection h with h1; subst h1; decide
  · rintro r h; injection h with h1; exact absurd h1 (by decide)

/-- A tie, 1/2, goes to the even 0. -/
theorem witness_QuotientRoundsToNearestEven : 0 < 2 ∧ 2 * 1 = 2 * (F64.roundDiv 1 2 * 2) + 2 := by decide

theorem witness_RoundedValueIsNearest : 0 < 3 ∧ F64.value (F64.roundQ false 3 3) = .fin false (2 ^ 1074) ∧
    F64.value 0x8000000000000000#64 = .fin true 0 := by decide +kernel

theorem witness_ResetLeavesItsTable : 0 < cfg1.subMod ∧ Config.default.defMode = .position ∧
    ({ Config.default with defMode := .velocity }).defMode = .velocity := by decide

theorem witness_ResetMeetsInvariant : Config.default.wf ∧ cfg1.wf ∧ ({ cfg1 with stepW := 2 }).wf := by decide

theorem witness_StepKeepsInvariant : ∃ s t, Inv s ∧ Machine.step s = .next t ∧ phase t = some .poll :=
  ⟨sStart, _, inv_sStart, rfl, by decide⟩

theorem witness_RegisterSpaceReadsWholeRegisters : (4 ≠ 8 ∨ 0 % 8 ≠ 0 ∨ 0x70 ≤ 0) ∧ (8 ≠ 8 ∨ 0x6C % 8 ≠ 0 ∨ 0x70 ≤ 0x6C) ∧
    (8 ≠ 8 ∨ 0x70 % 8 ≠ 0 ∨ 0x70 ≤ 0x70) := by decide

theorem witness_EachRegisterHasItsWriters :
    next (exec .tick (at_ 5 999 0 0)) (fun t => t.ticks ≠ 5 && t.sub ≠ 999) = true ∧
    next (exec .cnt (at_ 5 0 0 0)) (fun t => t.sub ≠ 0) = true ∧
    next (exec .now (at_ 5 0 1 0)) (fun t => t.t1 ≠ 0 && t.rctl ≠ 1#4) = true ∧
    next (exec (.blockUntil 0#64) (at_ 5 7 0xA 0)) (fun t => t.sLatch ≠ 0) = true ∧
    next (exec .now (at_ 5 7 3 0)) (fun t => t.t2 ≠ 0) = true ∧
    next (exec .now { at_ 5 7 4 0 with t1 := 5, t2 := 5 }) (fun t => t.nowval ≠ 0#64) = true ∧
    next (exec (.blockUntil 7#64) (at_ 5 7 0 0)) (fun t => t.deadline ≠ 0#64) = true ∧
    next (exec .sched { at_ 0 0 0 0 with call := .schedNow }) (fun t => t.nextRun ≠ 0#64 && t.sctl ≠ 0#4) = true ∧
    next (exec .step { at_ 0 0 0 4 with target := 1 }) (fun t => t.actualSteps ≠ 0 && t.drives ≠ []) = true ∧
    next (exec .eval { at_ 0 0 0 3 with call := .evalNow, nowval := 1#64, target := 1 })
      (fun t => t.target ≠ 1 && t.tsample ≠ 0#64) = true ∧
    next (exec (.byte 0x0A#8) { State.reset with parser := ⟨.expectValueOrEnd, 0x65#8, 0x6E#8, []⟩ })
      (fun t => t.slot.ready && t.parser ≠ ⟨.expectValueOrEnd, 0x65#8, 0x6E#8, []⟩) = true ∧
    next (exec .poll { at_ 0 0 0 1 with slot := ⟨true, ⟨codeTp, 0#64⟩⟩ }) (fun t => t.dcur ≠ none && !t.slot.ready) = true ∧
    next (exec (.mv 0#64) State.reset) (fun t => t.motion ≠ State.reset.motion) = true := by decide +kernel

theorem witness_StepRunsTheDecodedInstruction :
    (rstate State.reset = some .idle ∧ phase State.reset = some .wait ∧ State.reset.call = .idle ∧ State.reset.schedule = []) ∧
    decodeEvent 1#4 0#8 = .ok .tick ∧ decodeDrive 1#3 = .ok .enable ∧ decodeHost 3#68 = .ok .rdt ∧
    decodeHost 1#68 = .ok .now ∧
    ¬ (rstate (at_ 0 0 0 3) = some .idle ∧ (at_ 0 0 0 3).call = .idle ∧ phase (at_ 0 0 0 3) = some .wait) ∧
    ({ at_ 0 0 0 3 with driveCall := true }).driveCall = true ∧ (at_ 0 0 0 3).driveCall ≠ true ∧
    (phase (at_ 0 0 4 3) ≠ none ∧ rstate (at_ 0 0 4 3) = some .cmp) ∧
    (rstate sStart = some .idle ∧ phase sStart ≠ none ∧ sStart.call = .schedNow) ∧
    ({ State.reset with call := .evalNow }).call = .evalNow ∧
    decode (.wire [0x74#8, 0x70#8, 0x3D#8, 0x35#8, 0x0A#8]) = .ok (.tp 0x4014000000000000#64) ∧
    commandOf (.tp 0x4014000000000000#64) = some ⟨codeTp, 0x4014000000000000#64⟩ := by decide +kernel
/-- A DRIVE turn that runs. -/
theorem witness_StepRunsTheDecodedInstruction_drive :
    ∃ t, Machine.step { withEnabled true (at_ 0 0 0 2) with schedule := [.drive 1#3] } = .next t := ⟨_, rfl⟩

theorem witness_CntMovesTheSubCounterByOne : subPhase Config.default 998 < Config.default.subMod - 1 ∧
    subPhase Config.default 999 = Config.default.subMod - 1 ∧ subPhase cfg1 0 = cfg1.subMod - 1 ∧
    subPhase { Config.default with subDir := .down } 1 < 999 ∧
    subPhase { Config.default with subDir := .down } 0 = 999 := by decide

theorem witness_TickWrapsAndCountsInOneStep : ClockInv (at_ 18446744073709549 999 0 0) ∧
    18446744073709549 < min (2 ^ Config.default.tickW - 1) 18446744073709550 ∧
    ClockInv (at_ 18446744073709550 999 0 0) ∧ subPhase Config.default 999 = Config.default.subMod - 1 ∧
    ClockInv (at_ 0 998 0 0) ∧ subPhase Config.default 998 < Config.default.subMod - 1 :=
  ⟨⟨by decide, by decide⟩, by decide, ⟨by decide, by decide⟩, by decide, ⟨by decide, by decide⟩, by decide⟩

theorem witness_ClockEventsExcludeEachOther : ClockInv (at_ 5 999 0 0) ∧ ClockInv (at_ 18446744073709550 999 0 0) ∧
    ClockInv (at_ 5 998 0 0) := ⟨⟨by decide, by decide⟩, ⟨by decide, by decide⟩, ⟨by decide, by decide⟩⟩

theorem witness_ClockTimeNeverDecreases : 999 < Config.default.subMod ∧ subPhase Config.default 0 ≤ subPhase Config.default 999 ∧
    ClockInv (at_ 5 999 0 0) ∧ (∃ t, exec .tick (at_ 5 999 0 0) = .next t) ∧
    ∃ t, Machine.step { at_ 5 999 0 0 with schedule := [.event 1#4 0#8] } = .next t :=
  ⟨by decide, by decide, ⟨by decide, by decide⟩, ⟨_, rfl⟩, ⟨_, rfl⟩⟩

theorem witness_PrimitiveReadsAnswerTheRegister : rstate (at_ 5 7 0 0) = some .idle ∧ (at_ 5 7 0 0).call = .idle ∧
    phase (at_ 5 7 0 0) = some .wait ∧ (at_ 5 7 0 0).driveCall = false := by decide

theorem witness_NowStepsReadInOrder : rwait (at_ 5 7 0 0) = false ∧ rstate (at_ 5 7 0 0) = some .idle ∧
    rstate (at_ 5 7 1 0) = some .t1 ∧ rstate (at_ 5 7 2 0) = some .s ∧ rstate (at_ 5 7 3 0) = some .t2 ∧
    (rwait (at_ 5 7 4 0) = false ∧ rstate (at_ 5 7 4 0) = some .cmp ∧ (at_ 5 7 4 0).t1 = (at_ 5 7 4 0).t2) ∧
    ({ at_ 5 7 4 0 with t2 := 1 }).t1 ≠ ({ at_ 5 7 4 0 with t2 := 1 }).t2 := by decide

theorem witness_UninterruptedNowAnswersTheTime : ClockInv (at_ 18446744073709550 999 0 0) ∧
    rstate (at_ 18446744073709550 999 0 0) = some .idle ∧ rwait (at_ 18446744073709550 999 0 0) = false ∧
    (at_ 18446744073709550 999 0 0).call = .idle ∧ phase (at_ 18446744073709550 999 0 0) = some .wait ∧
    (at_ 18446744073709550 999 0 0).driveCall = false :=
  ⟨⟨by decide, by decide⟩, by decide⟩

/-- A CNT falls between steps 1 and 2. -/
theorem witness_CompletedNowIsExact : ∃ a b d, ClockInv a ∧ rstate a = some .t1 ∧ Attempt .now a b d ∧
    rstate d = some .idle ∧ a.sub ≠ b.sub :=
  ⟨at_ 5 250 1 0, _, _, ⟨by decide, by decide⟩, by decide,
    ⟨_, _, _, _, _, rfl, .next _ _ _ .cnt rfl rfl (.refl _), rfl, .refl _, rfl, .refl _, rfl⟩, by decide, by decide⟩

theorem witness_NowvalNeverDecreases : Inv sStart ∧ Steps sStart sSecond ∧ sStart.nowval ≠ sSecond.nowval :=
  ⟨inv_sStart, steps_after 16 sStart (by decide +kernel), by decide +kernel⟩

/-- The one TICK falls into the first attempt. -/
theorem witness_SecondAttemptCompletes : ∃ a b d e f g, ClockInv a ∧ rstate a = some .t1 ∧ rwait a = false ∧
    Attempt .now a b d ∧ EventRun d e ∧ Attempt .now e f g ∧ g.ticks ≤ a.ticks + 1 ∧ rstate d = some .t1 :=
  ⟨at_ 5 999 1 0, _, _, _, _, _, ⟨by decide, by decide⟩, by decide, by decide,
    ⟨_, _, _, _, _, rfl, .next _ _ _ .tick rfl rfl (.refl _), rfl, .refl _, rfl, .refl _, rfl⟩, .refl _,
    ⟨_, _, _, _, _, rfl, .refl _, rfl, .refl _, rfl, .refl _, rfl⟩, by decide, by decide⟩

theorem witness_RetriesAreUnbounded : ∃ s : State, ClockInv s ∧ s.cfg.subMod = 1 ∧ rstate s = some .t1 ∧ rwait s = false ∧
    s.ticks + 3 ≤ ticksMax s.cfg :=
  ⟨{ at_ 18446744073709547 0 1 0 with cfg := cfg1 }, ⟨by decide, by decide⟩, by decide⟩

theorem witness_BlockUntilStepsAndCompletion :
    (rstate (at_ 5 7 0 0) = some .idle ∧ phase (at_ 5 7 0 0) = some .wait ∧ (at_ 5 7 0 0).driveCall = false) ∧
    (phase { at_ 5 7 0 3 with driveCall := true } ≠ none ∧ ({ at_ 5 7 0 3 with driveCall := true }).driveCall = true) ∧
    rwait (at_ 5 7 9 0) = true ∧ rstate (at_ 5 7 9 0) = some .t1 ∧ rstate (at_ 5 7 0xA 0) = some .s ∧
    rstate (at_ 5 7 0xB 0) = some .t2 ∧ rwait (at_ 5 7 0xC 0) = true ∧ rstate (at_ 5 7 0xC 0) = some .cmp ∧
    (0#64 ≤ BitVec.ofNat 64 (0 * 1000 + subUs Config.default 0)) ∧
    ¬ (1#64 ≤ BitVec.ofNat 64 (0 * 1000 + subUs Config.default 0)) := by decide

theorem witness_UninterruptedBlockUntilTakesOneNow : ClockInv (at_ 5 250 0 0) ∧ rstate (at_ 5 250 0 0) = some .idle ∧
    (phase (at_ 5 250 0 0) = some .wait ∧ (at_ 5 250 0 0).driveCall = false) ∧ (5250#64).toNat ≤ clockUs (at_ 5 250 0 0) ∧
    clockUs (at_ 5 250 0 0) < (5251#64).toNat := ⟨⟨by decide, by decide⟩, by decide⟩

theorem witness_BlockUntilHoldsTheLoop : ∃ t, Inv sBlock ∧ rwait sBlock = true ∧ Machine.step sBlock = .next t :=
  ⟨_, inv_sBlock, by decide, rfl⟩

theorem witness_SchedTestsAndRearms : (phase State.reset = some .wait ∧ rstate State.reset = some .idle ∧ rwait State.reset = false) ∧
    ({ State.reset with call := .schedNow }).call = .schedNow ∧ (5300#64 ≤ 5300#64) ∧ (5299#64 < 5300#64) := by decide

theorem witness_IterationsStartOnePeriodApart : ∃ s₁ t₁ s₂ t₂, Inv s₁ ∧ StartsIteration s₁ t₁ ∧ Steps t₁ s₂ ∧
    StartsIteration s₂ t₂ :=
  ⟨sStart, after 1 sStart, after 15 (after 1 sStart), after 1 (after 15 (after 1 sStart)), inv_sStart,
    ⟨step_after _ (by decide +kernel), by decide +kernel, by decide +kernel⟩, steps_after 15 _ (by decide +kernel),
    ⟨step_after _ (by decide +kernel), by decide +kernel, by decide +kernel⟩⟩

theorem witness_NextRunWrittenOnlyBySched : (∃ t, exec .sched { State.reset with call := .schedNow } = .next t ∧ t.nextRun ≠ 0#64) ∧
    ∃ t, Machine.step sStart = .next t ∧ t.nextRun ≠ sStart.nextRun := ⟨⟨_, rfl, by decide⟩, ⟨_, rfl, by decide⟩⟩

theorem witness_PollClaimsShiftsAndVerifies : phase (at_ 0 0 0 1) = some .poll ∧ rstate (at_ 0 0 0 1) = some .idle ∧
    (at_ 0 0 0 1).slot.ready = false ∧
    (({ at_ 0 0 0 1 with slot := ⟨true, ⟨codeTp, 0#64⟩⟩ }).slot.ready = true ∧ (at_ 0 0 0 1).dcur ≠ some ⟨codeTp, 0#64⟩) ∧
    ({ at_ 0 0 0 1 with dcur := some ⟨codeTp, 0#64⟩ }).dcur = some ⟨codeTp, 0#64⟩ := by decide

theorem witness_ClaimDeliversOnceAndVerifiesIdenticalCopies :
    pollResult { State.reset with slot := ⟨true, ⟨codeTp, 0#64⟩⟩, dcur := some ⟨codeTp, 0#64⟩ } = some ⟨codeTp, 0#64⟩ ∧
    ({ State.reset with dcur := some ⟨codeTp, 0#64⟩, slot := ⟨true, ⟨codeTp, 0#64⟩⟩ }).dcur =
      (afterPoll { State.reset with slot := ⟨true, ⟨codeTp, 0#64⟩⟩ }).dcur := by decide

theorem witness_EdgeSwitchesPowerOnAnEdge : phase (at_ 0 0 0 2) = some .edge ∧ phase (at_ 0 0 0 0xA) = some .edge ∧
    rstate (at_ 0 0 0 2) = some .idle ∧ enPrev (at_ 0 0 0 2) = false ∧ enPrev (at_ 0 0 0 0xA) = true ∧
    (at_ 0 0 0 2).motion.enabled = false ∧ (withEnabled true (at_ 0 0 0 2)).motion.enabled = true := by decide

/-- One revolution of 2147483647 steps fits STEP_W; one of 2147483648 steps does not. -/
theorem witness_EvalLatchesSampleAndTarget : phase (at_ 0 0 0 3) = some .eval ∧ rstate (at_ 0 0 0 3) = some .idle ∧
    (∃ e, evaluate binary64 (at_ 0 0 0 3).motion 0#64 = .ok e) ∧
    degreesToSteps binary64 0x4076800000000000#64 2147483647 = some 2147483647 ∧
    degreesToSteps binary64 0x4076800000000000#64 2147483648 = some 2147483648 ∧
    badLimitAt { motionS1 with maxVelocity := 0#64 } ∧ badLimitAt { motionS2 with maxAcceleration := 0#64 } :=
  ⟨by decide, by decide, ⟨_, rfl⟩, by decide +kernel, by decide +kernel, .inr ⟨rfl, rfl, rfl⟩, .inl rfl⟩

theorem witness_DriveCommandsAppendThemselves :
    (phase (at_ 0 0 0 2) = some .edge ∧ rstate (at_ 0 0 0 2) = some .idle ∧ enPrev (at_ 0 0 0 2) = false) ∧
    enPrev (at_ 0 0 0 0xA) = true ∧ phase (at_ 0 0 0 4) = some .step ∧
    (stepsAdmitted Config.default 2147483646 = true ∧ (2147483645 : Int) < 2147483646) ∧
    stepsAdmitted Config.default (-2147483647) = true := by decide

/-- The boundary values of the admitted range, with `STEP_W` 32. -/
theorem witness_StepMovesOneTowardTarget : phase (at_ 0 0 0 4) = some .step ∧ rstate (at_ 0 0 0 4) = some .idle ∧
    ((2147483645 : Int) < 2147483646 ∧ (2147483645 : Int) + 1 ≤ 2 ^ (32 - 1) - 2) ∧
    ((-2147483647 : Int) < -2147483646 ∧ -(2 ^ (32 - 1) : Int) + 1 ≤ -2147483646 - 1) ∧
    (at_ 0 0 0 4).actualSteps = (at_ 0 0 0 4).target ∧
    ((2147483646 : Int) < 2147483647 ∧ (2 ^ (32 - 1) - 2 : Int) ≤ 2147483646) ∧
    ((-2147483648 : Int) < -2147483647 ∧ (-2147483647 : Int) ≤ -(2 ^ (32 - 1) : Int) + 1) := by decide

theorem witness_ActualStepsCountsEmittedSteps :
    (∃ t, exec .step { at_ 0 0 0 4 with target := 1 } = .next t ∧ t.actualSteps ≠ 0) ∧ Inv sStart ∧ Steps sStart sSecond :=
  ⟨⟨_, rfl, by decide⟩, inv_sStart, steps_after 16 sStart (by decide +kernel)⟩

theorem witness_StepRateIsCapped : Inv sStart ∧ phase sStart = some .wait ∧ Steps sStart sSecond :=
  ⟨inv_sStart, by decide, steps_after 16 sStart (by decide +kernel)⟩

theorem witness_DriveStreamGrowsAndPowerAlternates : ∃ t, Inv sStart ∧ PowerAlternates sStart.drives ∧
    Machine.step sStart = .next t :=
  ⟨_, inv_sStart, fun l h => by
    have e : l = [] := List.prefix_nil.mp h
    subst e; decide, rfl⟩

theorem witness_PhasesFollowInOrder : ∃ t, Inv sStart ∧ Machine.step sStart = .next t ∧ phase sStart = some .wait :=
  ⟨_, inv_sStart, rfl, by decide⟩

theorem witness_ByteFollowsTheTransitionTable : isLetter 0x61#8 = true ∧ isLetter 0x60#8 = false ∧ isLetter 0x7B#8 = false ∧
    isNumChar 0x2E#8 = true ∧ isNumChar 0x2F#8 = false ∧ isNumChar 0x39#8 = true ∧
    (Parser.mk .expectValueOrEnd 0#8 0#8 (List.replicate 30 0x31#8)).numlen < 31 ∧
    31 ≤ (Parser.mk .expectValueOrEnd 0#8 0#8 (List.replicate 31 0x31#8)).numlen := by decide

theorem witness_ParserPublishesTheDecodedLine : awaitsLine State.reset.parser ∧ awaitsLine ⟨.expectLetter1, 1#8, 2#8, []⟩ ∧
    decodeLine [0x74#8, 0x70#8, 0x3D#8, 0x35#8, 0x0A#8, 0x61#8] = .ok (⟨codeTp, 0x4014000000000000#64⟩, [0x61#8]) :=
  ⟨⟨.inl rfl, rfl⟩, ⟨.inr rfl, rfl⟩, by decide +kernel⟩

theorem witness_EnWritesEnabled : (0x8000000000000000#64 : F64) = 0x0000000000000000#64 ∨
      (0x8000000000000000#64 : F64) = 0x8000000000000000#64 := by decide
theorem witness_EnWritesEnabled_nonzero : (0x0000000000000001#64 : F64) ≠ 0x0000000000000000#64 ∧
    (0x0000000000000001#64 : F64) ≠ 0x8000000000000000#64 := by decide
/-- `en=.` has no number. -/
theorem witness_EnWritesEnabled_noNumber : (∀ c r, [0x2E#8] = c :: r → isDigit c = false) ∧
    (∀ c r, [0x2E#8] = (0x2E#8 : Byte) :: c :: r → isDigit c = false) ∧ (∀ r, [0x2E#8] ≠ (0x2D#8 : Byte) :: r) := by
  refine ⟨?_, ?_, ?_⟩
  · rintro c r h; injection h with h1; subst h1; decide
  · rintro c r h; injection h with _ h; cases h
  · rintro r h; injection h with h1; exact absurd h1 (by decide)

theorem witness_MvWritesTheVelocityLimit : motionS1.stopNeeded = false ∧ motionS1.mode = .position ∧
    binary64.lt F64.zero 0x8000000000000000#64 = false ∧ binary64.lt F64.zero 0xBFF0000000000000#64 = false := by
  decide +kernel

theorem witness_MaWritesTheAccelerationLimit : binary64.lt F64.zero 0#64 = false := by decide +kernel

/-- The last value that fits 32 bits and the first that does not, and an infinity, which truncates to nothing. -/
theorem witness_SrStoresTheTruncation : F64.value 0x3FF0000000000000#64 = .fin false (2 ^ 1074) ∧
    F64.trunc 0x41DFFFFFFFC00000#64 = some 2147483647 ∧ F64.trunc 0x41E0000000000000#64 = some 2147483648 ∧
    F64.trunc 0xC1E0000000000000#64 = some (-2147483648) ∧ F64.trunc 0x7FF0000000000000#64 = none := by decide +kernel

/-- A state in which `tp` or `tv` has its NOW complete. -/
def sHandle (c : LoopCall) (m : Motion) : State := { at_ 2000 0 0 1 with call := c, motion := m, nowval := 2000000#64 }

theorem good_motionS1 : ¬ badLimitAt motionS1 := fun h => h.elim (by decide +kernel) fun h => absurd h.2.2 (by decide +kernel)
theorem good_motionS2 : ¬ badLimitAt motionS2 := fun h => h.elim (by decide +kernel) fun h => absurd h.2.2 (by decide +kernel)

theorem witness_TpCapturesAndForcesAStop :
    (rstate (sHandle (.handle ⟨codeTp, 0#64⟩) motionS1) = some .idle ∧
      rwait (sHandle (.handle ⟨codeTp, 0#64⟩) motionS1) = false) ∧
    ¬ badLimitAt (sHandle (.handleNow ⟨codeTp, 0#64⟩) motionS1).motion ∧
    badLimitAt (sHandle (.handleNow ⟨codeTp, 0#64⟩) { motionS1 with maxVelocity := 0#64 }).motion :=
  ⟨by decide, good_motionS1, .inr ⟨rfl, rfl, rfl⟩⟩

theorem witness_TvCapturesAndClearsTheStop :
    (rstate (sHandle (.handle ⟨codeTv, 0#64⟩) motionS2) = some .idle ∧
      rwait (sHandle (.handle ⟨codeTv, 0#64⟩) motionS2) = false) ∧
    ¬ badLimitAt (sHandle (.handleNow ⟨codeTv, 0#64⟩) motionS2).motion ∧
    badLimitAt (sHandle (.handleNow ⟨codeTv, 0#64⟩) { motionS2 with maxAcceleration := 0#64 }).motion :=
  ⟨by decide, good_motionS2, .inl rfl⟩

/-- A verified command at POLL. -/
def sVerified (c : Command) : State := { at_ 2000 0 0 1 with slot := ⟨true, c⟩, dcur := some c, motion := motionS1 }

theorem witness_VerifiedTargetRunsThroughItsOwnNow : ClockInv (sVerified ⟨codeTp, 0#64⟩) ∧
    (sVerified ⟨codeTp, 0#64⟩).schedule = [] ∧ phase (sVerified ⟨codeTp, 0#64⟩) = some .poll ∧
    rstate (sVerified ⟨codeTp, 0#64⟩) = some .idle ∧ rwait (sVerified ⟨codeTp, 0#64⟩) = false ∧
    (sVerified ⟨codeTv, 0#64⟩).call = .idle ∧ ¬ badLimitAt (sVerified ⟨codeTv, 0#64⟩).motion :=
  ⟨⟨by decide, by decide⟩, by decide, by decide, by decide, by decide, by decide, good_motionS1⟩

theorem witness_VerifiedCommandTakesEffect : (sVerified ⟨codeEn, 0#64⟩).schedule = [] ∧
    phase (sVerified ⟨codeEn, 0#64⟩) = some .poll ∧ rstate (sVerified ⟨codeEn, 0#64⟩) = some .idle ∧
    (sVerified ⟨codeEn, 0#64⟩).call = .idle ∧ (sVerified ⟨codeEn, 0#64⟩).slot = ⟨true, ⟨codeEn, 0#64⟩⟩ ∧
    (sVerified ⟨codeEn, 0#64⟩).dcur = some ⟨codeEn, 0#64⟩ := by decide
/-- `sr` at the last value that fits 32 bits and at the first that does not. -/
theorem witness_VerifiedCommandTakesEffect_sr : (sVerified ⟨codeSr, 0x41DFFFFFFFC00000#64⟩).call = .idle ∧
    F64.trunc 0x41DFFFFFFFC00000#64 = some 2147483647 ∧ F64.trunc 0x41E0000000000000#64 = some 2147483648 := by decide +kernel

theorem witness_UnknownCodeChangesNothing : (sVerified ⟨⟨0x7A#8, 0x7A#8⟩, 0#64⟩).call = .idle ∧
    (⟨0x7A#8, 0x7A#8⟩ : Code) ≠ codeEn ∧ (⟨0x7A#8, 0x7A#8⟩ : Code) ≠ codeMv ∧ (⟨0x7A#8, 0x7A#8⟩ : Code) ≠ codeMa ∧
    (⟨0x7A#8, 0x7A#8⟩ : Code) ≠ codeSr ∧ (⟨0x7A#8, 0x7A#8⟩ : Code) ≠ codeTp ∧ (⟨0x7A#8, 0x7A#8⟩ : Code) ≠ codeTv := by decide

theorem witness_OnlyEnWritesEnabled : (∃ e, evaluate binary64 motionS1 0#64 = .ok e) ∧
    ∃ t, exec (.en 0x3FF0000000000000#64) State.reset = .next t ∧ t.motion.enabled ≠ State.reset.motion.enabled :=
  ⟨⟨_, rfl⟩, ⟨_, rfl, by decide⟩⟩

theorem witness_EvaluationWritesOnlyTheForcedStop : ∃ e, ({ motionS1 with stopNeeded := true }).stopNeeded = true ∧
    evaluate binary64 { motionS1 with stopNeeded := true } 0#64 = .ok e := ⟨_, rfl, rfl⟩

/-- A stop that has completed: the motion of vector M6, stopping from 20 degrees a second, evaluated after its stop. -/
def motionStop : Motion := { motionS1 with
  t0 := 1000000#64, p0 := 0x4034000000000000#64, v0 := 0x4034000000000000#64, targetPosition := 0#64, stopNeeded := true }

theorem witness_TargetSwitchesDoNotJump : ∃ e, evaluate binary64 motionStop 3000000#64 = .ok e ∧ F64.finite e.pos ∧
    F64.finite e.vel ∧ F64.finite motionStop.maxAcceleration ∧ velocityChangeTakesTime motionStop.maxAcceleration F64.zero e.vel ∧
    F64.finite motionStop.targetPosition ∧ F64.lt F64.zero motionStop.maxVelocity = true ∧
    F64.lt F64.zero (positionProfile binary64 e.motion).t01 = true ∧ e.motion ≠ motionStop := by
  refine ⟨⟨0x4044000000000000#64, 0#64, completeStop motionStop 3000000#64 0x4044000000000000#64⟩, ?_, ?_, ?_, ?_, ?_, ?_, ?_,
    ?_, ?_⟩
  · decide +kernel
  · exact ⟨_, _, rfl⟩
  · exact ⟨_, _, rfl⟩
  · exact ⟨_, _, rfl⟩
  · exact .inr ⟨⟨_, _, rfl⟩, ⟨_, _, rfl⟩, rfl, rfl⟩
  · exact ⟨_, _, rfl⟩
  · rfl
  · decide +kernel
  · decide +kernel

/-- `tv=50` at 2000000 in S1, moving at 20 degrees a second, takes time. -/
theorem witness_TargetSwitchesDoNotJump_tv : F64.finite 0x4049000000000000#64 ∧
    velocityChangeTakesTime motionS1.maxAcceleration 0x4049000000000000#64 0x4034000000000000#64 ∧
    evaluate binary64 motionS1 2000000#64 = .ok ⟨0x4034000000000000#64, 0x4034000000000000#64, motionS1⟩ :=
  ⟨⟨_, _, rfl⟩, .inl (by decide +kernel), by decide +kernel⟩

/-- Vector S2: accelerating at 2500000, cruising at 6000000; and a pending stop. -/
theorem witness_VelocityBranchFormulas : motionS2.mode = .velocity ∧
    binary64.lt F64.zero motionS2.maxAcceleration = true ∧
    binary64.lt (elapsed binary64 motionS2.t0 2500000#64) 0x4014000000000000#64 = true ∧
    binary64.lt (elapsed binary64 motionS2.t0 6000000#64) 0x4014000000000000#64 = false ∧
    binary64.div (F64.abs (binary64.sub motionS2.targetVelocity motionS2.v0)) motionS2.maxAcceleration = 0x4014000000000000#64 ∧
    ({ motionS1 with stopNeeded := true }).stopNeeded = true := by decide +kernel

/-- Vector S1 is triangular; a move of 1800 degrees is trapezoidal and cruises. -/
theorem witness_PositionBranchPhases : motionS1.stopNeeded = false ∧ motionS1.mode = .position ∧
    binary64.lt F64.zero motionS1.maxVelocity = true ∧ binary64.lt F64.zero motionS1.maxAcceleration = true ∧
    (positionProfile binary64 motionS1).t12 = F64.zero ∧
    binary64.lt 0#64 (positionProfile binary64 { motionS1 with targetPosition := 0x409C200000000000#64 }).t12 = true ∧
    binary64.lt (elapsed binary64 0#64 4242640#64) (positionProfile binary64 motionS1).t01 = true ∧
    binary64.lt (elapsed binary64 0#64 4242641#64) (positionProfile binary64 motionS1).t01 = false ∧
    binary64.lt (elapsed binary64 0#64 4242641#64)
      (binary64.mul F64.two (positionProfile binary64 motionS1).t01) = true ∧
    binary64.lt (elapsed binary64 0#64 8485282#64)
      (binary64.mul F64.two (positionProfile binary64 motionS1).t01) = false := by decide +kernel

theorem witness_TargetStepsTruncatesTheScaledPosition : (∃ e, evaluate binary64 motionS1 0#64 = .ok e) ∧
    binary64.trunc (binary64.mul (binary64.div 0x4076800000000000#64 F64.c360) (binary64.ofInt 2147483647)) = some 2147483647 ∧
    binary64.trunc (binary64.mul (binary64.div 0x4076800000000000#64 F64.c360) (binary64.ofInt 2147483648)) = some 2147483648 :=
  ⟨⟨_, rfl⟩, by decide +kernel, by decide +kernel⟩

end Sys2Proof.Tests
end

