-- ==== Sys2Proof/Proofs/Reset.lean ====
section
/-! The state after reset (R41, R230): the derived readings of its registers, and the reset table. -/

namespace Sys2Proof.Machine

/-! ## SUB and the control registers -/

/-- SUB starts at phase 0 whichever way it counts (R22, D17). -/
theorem resetOf_sub (c : Config) : (State.resetOf c).sub = subAt c 0 := by
  cases h : c.subDir with
  | up => simp [State.resetOf, subAt, h]
  | down => simp [State.resetOf, subAt, h]

theorem subPhase_resetOf {c : Config} (h : 0 < c.subMod) : subPhase c (State.resetOf c).sub = 0 := by
  rw [resetOf_sub, subPhase_subAt h]

@[simp] theorem rstate_resetOf (c : Config) : rstate (State.resetOf c) = some .idle := rfl
@[simp] theorem rwait_resetOf (c : Config) : rwait (State.resetOf c) = false := BitVec.getLsbD_zero
@[simp] theorem phase_resetOf (c : Config) : phase (State.resetOf c) = some .wait := rfl
@[simp] theorem enPrev_resetOf (c : Config) : enPrev (State.resetOf c) = false := BitVec.getLsbD_zero

/-! ## MotionState -/

/-- The target of the default mode is the compiled-in one (D18). -/
theorem resetOf_targetPosition {c : Config} (h : c.defMode = .position) :
    (Motion.resetOf c).targetPosition = c.defTarget := if_pos h

theorem resetOf_targetVelocity {c : Config} (h : c.defMode = .velocity) :
    (Motion.resetOf c).targetVelocity = c.defTarget := if_pos h

/-! ## LOOP_PERIOD -/

/-- LOOP_PERIOD reads as its constant in every state (R27, R61). -/
@[simp] theorem memRead_loopPeriod (s : State) : memRead s 0x40 8 = .ok Config.loopPeriod := rfl

/-! ## The reset table -/

/-- Settles O9: the plain fields are what `State.resetOf` and `Motion.resetOf` write; the phase of SUB, the control fields,
the target of the default mode and LOOP_PERIOD by the lemmas above. -/
theorem resetLeavesItsTable : Obligations.ResetLeavesItsTable := by
  intro c
  -- the parameters and the clock
  refine ⟨rfl, rfl, subPhase_resetOf, ?_⟩
  -- the reader and the loop sequencer
  refine ⟨rstate_resetOf c, rwait_resetOf c, rfl, rfl, phase_resetOf c, enPrev_resetOf c, ?_⟩
  -- the parser, the ready slot and the deduplicator
  refine ⟨rfl, rfl, rfl, rfl, rfl, ?_⟩
  -- MotionState
  refine ⟨rfl, resetOf_targetPosition, resetOf_targetVelocity, rfl, rfl, rfl, rfl, rfl, rfl, rfl, rfl, ?_⟩
  -- the drive stream and LOOP_PERIOD
  exact ⟨rfl, memRead_loopPeriod _⟩

end Sys2Proof.Machine
end

