-- ==== Sys2Proof/Proofs/Clock.lean ====
section
/-! Unit CLK (R100 to R108): the two clock events, what any operation and any step can do to the unit, the clock's advance,
the exact attempt, and the order of NOWVAL. -/

namespace Sys2Proof.Machine

/-! ## CNT and TICK where they are enabled -/

theorem execCnt_enabled {s : State} (h : subPhase s.cfg s.sub + 1 < s.cfg.subMod) :
    execCnt s = .next { s with sub := subCount s.cfg s.sub } := if_pos h

theorem execTick_enabled {s : State} (h : subPhase s.cfg s.sub + 1 = s.cfg.subMod) (ht : s.ticks < ticksMax s.cfg) :
    execTick s = .next { s with ticks := s.ticks + 1, sub := subAt s.cfg 0 } := by
  unfold execTick
  rw [if_pos h, if_pos ht]

theorem execTick_overflow {s : State} (h : subPhase s.cfg s.sub + 1 = s.cfg.subMod) (ht : s.ticks = ticksMax s.cfg) :
    execTick s = .refused .tickOverflow := by
  unfold execTick
  rw [if_pos h, if_neg (by omega)]

theorem subCount_up {c : Config} {sub : Nat} (h : c.subDir = .up) : subCount c sub = sub + 1 := by simp [subCount, h]

/-- Counting down, SUB is not 0 while CNT is enabled. -/
theorem subCount_down {c : Config} {sub : Nat} (h : c.subDir = .down) (hp : subPhase c sub + 1 < c.subMod) :
    subCount c sub + 1 = sub := by
  simp only [subPhase, h] at hp
  simp only [subCount, h]
  omega

/-- Settles O15: where CNT is enabled the phase grows by one, so the clock time does not fall. -/
theorem cntMovesTheSubCounterByOne : Obligations.CntMovesTheSubCounterByOne := by
  unfold Obligations.CntMovesTheSubCounterByOne
  refine ⟨fun c => rfl, fun s hs => ⟨fun hp => ?_, fun hp t ht => ?_⟩⟩
  · have he : subPhase s.cfg s.sub + 1 < s.cfg.subMod := by omega
    have hgrow := subPhase_cnt hs he
    exact ⟨_, execCnt_enabled he, rfl, subCount_up, fun hd => subCount_down hd he, hgrow,
      us_mono (hgrow ▸ Nat.le_succ _)⟩
  · have he := (execCnt_next ht).1
    omega

/-- Settles O16: the three clauses are the branches of TICK. -/
theorem tickWrapsAndCountsInOneStep : Obligations.TickWrapsAndCountsInOneStep := by
  unfold Obligations.TickWrapsAndCountsInOneStep
  refine ⟨fun c => rfl, fun s hs => ?_⟩
  have hpos : 0 < s.cfg.subMod := Nat.zero_lt_of_lt hs.sub_lt
  refine ⟨fun hp ht => ?_, fun hp ht => execTick_overflow (by omega) ht, fun hp t ht => ?_⟩
  · exact ⟨_, execTick_enabled (by omega) ht, rfl, fun hd => by simp [subAt, hd], fun hd => by simp [subAt, hd],
      subPhase_subAt hpos, us_tick hs.sub_lt⟩
  · have he := (execTick_next ht).1
    omega

/-! ## What an operation does to unit CLK -/

/-- The two states have the same unit CLK: parameters, clock registers and reader registers. -/
def SameUnitClk (s t : State) : Prop := t.cfg = s.cfg ∧ SameClock s t ∧ SameReader s t

theorem SameUnitClk.cfg {s t : State} (h : SameUnitClk s t) : t.cfg = s.cfg := h.1
theorem SameUnitClk.clock {s t : State} (h : SameUnitClk s t) : SameClock s t := h.2.1
theorem SameUnitClk.reader {s t : State} (h : SameUnitClk s t) : SameReader s t := h.2.2

theorem SameReader.refl (s : State) : SameReader s s := ⟨rfl, rfl, rfl, rfl, rfl, rfl⟩

/-- It holds by computation of a state and the same state with registers outside the unit updated. -/
theorem SameUnitClk.refl (s : State) : SameUnitClk s s := ⟨rfl, ⟨rfl, rfl⟩, .refl s⟩

theorem sameUnitClk_endPoll (s : State) : SameUnitClk s (endPoll s) := .refl s

theorem sameUnitClk_afterPoll (s : State) : SameUnitClk s (afterPoll s) := by
  rw [afterPoll_eq]
  split <;> exact SameUnitClk.refl s

theorem sameUnitClk_schedTest (s : State) : SameUnitClk s (schedTest s) := by
  unfold schedTest
  split <;> exact SameUnitClk.refl s

/-- What an operation can do to unit CLK: count, tick, take the reader's next step, issue a reader's operation, or leave the
unit alone. -/
inductive ClkEffect (s t : State) : Instr → Prop where
  | cnt : execCnt s = .next t → ClkEffect s t .cnt
  | tick : execTick s = .next t → ClkEffect s t .tick
  | read (i : Instr) (r : RState) : rstate s = some r → r ≠ .idle → t = readerStep r s → ClkEffect s t i
  | issue (i : Instr) : t.cfg = s.cfg → SameClock s t → t.nowval = s.nowval → rstate t = some .t1 → ClkEffect s t i
  | keep (i : Instr) : SameUnitClk s t → ClkEffect s t i

theorem clkEffect_issueNow (i : Instr) (c : LoopCall) (s : State) : ClkEffect s (issueNow c s) i :=
  .issue i rfl ⟨rfl, rfl⟩ rfl (rstate_issueNow c s)

/-- Every operation does one of the five (the "written by" column of R20 for unit CLK). -/
theorem exec_clkEffect {i : Instr} {s t : State} (h : exec i s = .next t) : ClkEffect s t i := by
  cases i with
  | cnt => exact .cnt h
  | tick => exact .tick h
  | now =>
    obtain ⟨-, rfl⟩ | ⟨r, hr, hne, -, ht⟩ := execNow_next h
    · exact .issue _ rfl ⟨rfl, rfl⟩ rfl (rstate_setRState .t1 s)
    · exact .read _ r hr hne ht
  | blockUntil d =>
    obtain ⟨-, -, rfl⟩ | ⟨r, hr, hne, -, -, ht⟩ := execBlockUntil_next h
    · exact .issue _ rfl ⟨rfl, rfl⟩ rfl (rstate_setRCtl ..)
    · exact .read _ r hr hne ht
  | sched =>
    obtain ⟨-, -, ⟨-, rfl⟩ | ⟨-, rfl⟩⟩ := execSched_next h
    · exact .keep _ (sameUnitClk_schedTest { s with call := .idle })
    · exact clkEffect_issueNow ..
  | eval =>
    obtain ⟨-, -, ⟨-, n, m, -, rfl⟩ | ⟨-, rfl⟩⟩ := execEval_next h
    · exact .keep _ (.refl s)
    · exact clkEffect_issueNow ..
  | tp v =>
    obtain ⟨-, ⟨-, m, -, rfl⟩ | ⟨-, rfl⟩⟩ := execTp_next h
    · exact .keep _ (.refl s)
    · exact clkEffect_issueNow ..
  | tv v =>
    obtain ⟨-, ⟨-, m, -, rfl⟩ | ⟨-, rfl⟩⟩ := execTv_next h
    · exact .keep _ (.refl s)
    · exact clkEffect_issueNow ..
  | poll =>
    obtain ⟨-, -, -, ⟨c, -, rfl⟩ | ⟨-, rfl⟩⟩ := execPoll_next h
    · exact .keep _ (sameUnitClk_afterPoll s)
    · exact .keep _ (sameUnitClk_afterPoll s)
  | edge =>
    obtain ⟨-, -, -, ⟨d, -, rfl⟩ | ⟨-, rfl⟩⟩ := execEdge_next h
    · exact .keep _ (.refl s)
    · exact .keep _ (.refl s)
  | step =>
    obtain ⟨-, -, -, ⟨-, -, rfl⟩ | ⟨-, -, rfl⟩ | ⟨-, rfl⟩⟩ := execStep_next h
    · exact .keep _ (.refl s)
    · exact .keep _ (.refl s)
    · exact .keep _ (.refl s)
  | enable => obtain ⟨-, -, -, -, -, rfl⟩ := execEnable_next h; exact .keep _ (.refl s)
  | disable => obtain ⟨-, -, -, -, -, rfl⟩ := execDisable_next h; exact .keep _ (.refl s)
  | stepFwd => obtain ⟨-, -, -, -, -, rfl⟩ := execStepFwd_next h; exact .keep _ (.refl s)
  | stepRev => obtain ⟨-, -, -, -, -, rfl⟩ := execStepRev_next h; exact .keep _ (.refl s)
  | rdt => obtain ⟨-, rfl⟩ := execRdt_next h; exact .keep _ (.refl s)
  | rds => obtain ⟨-, rfl⟩ := execRds_next h; exact .keep _ (.refl s)
  | byte c => cases execByte_next h; exact .keep _ (.refl s)
  | sr v => obtain ⟨n, -, rfl⟩ := execSr_next h; exact .keep _ (.refl s)
  | en v => cases h; exact .keep _ (.refl s)
  | mv v => cases h; exact .keep _ (.refl s)
  | ma v => cases h; exact .keep _ (.refl s)

/-- For unit CLK, `s` to `t` is at most one operation, as every step of the block is: around it only the schedule, the
loop's call and phase and the mark of a drive call move. -/
inductive AtMostOneExec (s t : State) : Prop where
  | none : SameUnitClk s t → AtMostOneExec s t
  | one {i : Instr} {s₁ u : State} : exec i s₁ = .next u → SameUnitClk s s₁ → SameUnitClk u t → AtMostOneExec s t

theorem mainStep_atMostOneExec {s t : State} (h : mainStep s = .next t) : AtMostOneExec s t := by
  obtain ⟨i, u, -, hu, rfl⟩ | ⟨-, rfl⟩ := mainStep_next h
  · refine .one hu (.refl s) ?_
    split
    · exact sameUnitClk_endPoll u
    · exact .refl u
  · exact .none (sameUnitClk_endPoll s)

theorem step_atMostOneExec {s t : State} (h : step s = .next t) : AtMostOneExec s t := by
  obtain ⟨-, -, h⟩ := takeTurn_next h
  obtain h | ⟨rest, -, h⟩ | ⟨ev, c, rest, i, -, -, h⟩ | ⟨hl, w, rest, i, -, -, -, h⟩ | ⟨d, rest, -, -, h⟩ |
    ⟨d, rest, -, h | h⟩ := nextTurn_next h
  · exact mainStep_atMostOneExec h
  · cases mainStep_atMostOneExec h with
    | none hk => exact .none hk
    | one hu hk hk' => exact .one hu hk hk'
  · exact .one h (.refl s) (.refl t)
  · exact .one h (.refl s) (.refl t)
  · exact .one h (.refl s) (.refl t)
  · exact .one (i := .edge) h (.refl s) (.refl t)
  · exact .one (i := .step) h (.refl s) (.refl t)

/-! ## The reader's steps -/

/-- The end of an attempt changes NOWVAL, RCTL and the host port's completions only. -/
theorem finishAttempt_frame (s : State) : ∃ rc rs,
    finishAttempt s = { s with nowval := nowSample s, rctl := rc, responses := rs } := by
  obtain ⟨-, -, h⟩ | ⟨rs, -, h⟩ := finishAttempt_spec s
  · exact ⟨_, _, h⟩
  · exact ⟨_, _, h⟩

theorem finishAttempt_nowval (s : State) : (finishAttempt s).nowval = nowSample s := by
  obtain ⟨rc, rs, h⟩ := finishAttempt_frame s
  rw [h]

theorem readerStep_cmp_of_eq {s : State} (h : s.t1 = s.t2) : readerStep .cmp s = finishAttempt s := if_pos h

theorem readerStep_cmp_of_ne {s : State} (h : s.t1 ≠ s.t2) : readerStep .cmp s = setRState .t1 s := if_neg h

/-- No step of the reader moves the clock. -/
theorem readerStep_clock (r : RState) (s : State) : (readerStep r s).cfg = s.cfg ∧ SameClock s (readerStep r s) := by
  cases r with
  | idle => exact ⟨rfl, rfl, rfl⟩
  | t1 => exact ⟨rfl, rfl, rfl⟩
  | s => exact ⟨rfl, rfl, rfl⟩
  | t2 => exact ⟨rfl, rfl, rfl⟩
  | cmp =>
    by_cases heq : s.t1 = s.t2
    · obtain ⟨rc, rs, h⟩ := finishAttempt_frame s
      rw [readerStep_cmp_of_eq heq, h]
      exact ⟨rfl, rfl, rfl⟩
    · rw [readerStep_cmp_of_ne heq]
      exact ⟨rfl, rfl, rfl⟩

/-- An attempt that leaves the reader idle read the same tick count twice (R105). -/
theorem readerStep_cmp_idle {s : State} (h : rstate (readerStep .cmp s) = some .idle) :
    s.t1 = s.t2 ∧ (readerStep .cmp s).nowval = nowSample s := by
  by_cases heq : s.t1 = s.t2
  · exact ⟨heq, by rw [readerStep_cmp_of_eq heq, finishAttempt_nowval]⟩
  · simp [readerStep_cmp_of_ne heq] at h

/-- NOW or BLOCK_UNTIL in progress takes the step that RSTATE names. -/
theorem exec_eq_readerStep {i : Instr} {r : RState} {s t : State} (hi : i = .now ∨ ∃ dl, i = .blockUntil dl)
    (hr : rstate s = some r) (hne : r ≠ .idle) (h : exec i s = .next t) : t = readerStep r s := by
  have busy : rstate s ≠ some .idle := hr ▸ fun h => hne (Option.some.inj h)
  have read (r' : RState) (hr' : rstate s = some r') (ht : t = readerStep r' s) : t = readerStep r s := by
    rwa [Option.some.inj (hr.symm.trans hr')]
  obtain rfl | ⟨dl, rfl⟩ := hi
  · obtain ⟨ho, -⟩ | ⟨r', hr', -, -, ht⟩ := execNow_next h
    · exact absurd (hostPortOpen_iff.mp ho).1 busy
    · exact read r' hr' ht
  · obtain ⟨ho | ho, -⟩ | ⟨r', hr', -, -, -, ht⟩ := execBlockUntil_next h
    · exact absurd (hostPortOpen_iff.mp ho).1 busy
    · exact absurd (driveCallOpen_iff.mp ho).1 busy
    · exact read r' hr' ht

/-! ## The clock only advances (R104) -/

/-- From `s` to `t` the clock stays admitted and does not go back. -/
structure ClockAdvances (s t : State) : Prop where
  cfg : t.cfg = s.cfg
  inv : ClockInv t
  ticks_le : s.ticks ≤ t.ticks
  clockUs_le : clockUs s ≤ clockUs t

theorem ClockAdvances.of_sameClock {s t : State} (hs : ClockInv s) (hcfg : t.cfg = s.cfg) (hc : SameClock s t) :
    ClockAdvances s t := by
  obtain ⟨ht, hsub⟩ := hc
  exact ⟨hcfg, ⟨by rw [ht, hcfg]; exact hs.ticks_le, by rw [hsub, hcfg]; exact hs.sub_lt⟩, ht.ge,
    (clockUs_congr hcfg ht hsub).ge⟩

theorem ClockAdvances.trans {s t u : State} (h₁ : ClockAdvances s t) (h₂ : ClockAdvances t u) : ClockAdvances s u :=
  ⟨h₂.cfg.trans h₁.cfg, h₂.inv, h₁.ticks_le.trans h₂.ticks_le, h₁.clockUs_le.trans h₂.clockUs_le⟩

theorem execCnt_clockAdvances {s t : State} (hs : ClockInv s) (h : execCnt s = .next t) : ClockAdvances s t := by
  obtain ⟨he, rfl⟩ := execCnt_next h
  exact ⟨rfl, ⟨hs.ticks_le, subCount_lt hs.sub_lt he⟩, le_rfl, us_mono (by simp [subPhase_cnt hs.sub_lt he])⟩

theorem execTick_clockAdvances {s t : State} (hs : ClockInv s) (h : execTick s = .next t) : ClockAdvances s t := by
  obtain ⟨-, hlt, rfl⟩ := execTick_next h
  exact ⟨rfl, ⟨hlt, subAt_lt (Nat.zero_lt_of_lt hs.sub_lt)⟩, Nat.le_succ _, (us_tick hs.sub_lt).le⟩

theorem exec_clockAdvances {i : Instr} {s t : State} (hs : ClockInv s) (h : exec i s = .next t) : ClockAdvances s t := by
  cases exec_clkEffect h with
  | cnt h => exact execCnt_clockAdvances hs h
  | tick h => exact execTick_clockAdvances hs h
  | read _ r _ _ ht =>
    obtain ⟨hcfg, hc⟩ := readerStep_clock r s
    exact ht ▸ .of_sameClock hs hcfg hc
  | issue _ hcfg hc => exact .of_sameClock hs hcfg hc
  | keep _ hk => exact .of_sameClock hs hk.cfg hk.clock

theorem step_clockAdvances {s t : State} (hs : ClockInv s) (h : step s = .next t) : ClockAdvances s t := by
  cases step_atMostOneExec h with
  | none hk => exact .of_sameClock hs hk.cfg hk.clock
  | one he hk hk' =>
    have h₁ := ClockAdvances.of_sameClock hs hk.cfg hk.clock
    have h₂ := exec_clockAdvances h₁.inv he
    exact (h₁.trans h₂).trans (.of_sameClock h₂.inv hk'.cfg hk'.clock)

/-- Only CNT and TICK move the clock. -/
theorem exec_sameClock {i : Instr} {s t : State} (h : exec i s = .next t) (hcnt : i ≠ .cnt) (htick : i ≠ .tick) :
    SameClock s t := by
  cases exec_clkEffect h with
  | cnt => exact absurd rfl hcnt
  | tick => exact absurd rfl htick
  | read _ r _ _ ht => exact ht ▸ (readerStep_clock r s).2
  | issue _ _ hc => exact hc
  | keep _ hk => exact hk.clock

/-- Settles O18: the range of `sub_us` is the model's law, and the clock advances with every operation and step. -/
theorem clockTimeNeverDecreases : Obligations.ClockTimeNeverDecreases := by
  unfold Obligations.ClockTimeNeverDecreases
  refine ⟨fun c a b ha _ => ⟨rfl, subUs_le ha, subUs_mono⟩, fun sub => Nat.mul_div_cancel sub (by decide),
    fun s hs => ⟨rfl, ?_, ?_⟩, fun i s t hs h => ⟨(exec_clockAdvances hs h).clockUs_le, exec_sameClock h⟩,
    fun s t hs h => ⟨(step_clockAdvances hs h).clockUs_le, (step_clockAdvances hs h).ticks_le⟩⟩
  · have hsub := subUs_le hs.sub_lt
    have hticks := hs.ticks_le
    unfold clockUs us Config.usPerTick
    omega
  · have := ticksMax_le s.cfg
    omega

/-! ## The exact attempt (R107) -/

/-- An asynchronous event leaves the reader alone. -/
theorem exec_async_sameReader {i : Instr} {s t : State} (hi : asyncEvent i = true) (h : exec i s = .next t) :
    SameReader s t := by
  cases i with
  | cnt => obtain ⟨-, rfl⟩ := execCnt_next h; exact .refl s
  | tick => obtain ⟨-, -, rfl⟩ := execTick_next h; exact .refl s
  | byte c => cases execByte_next h; exact .refl s
  | _ => cases hi

theorem EventRun.sameReader {s t : State} (h : EventRun s t) : SameReader s t := by
  induction h with
  | refl s => exact .refl s
  | next s t u i hi he _ ih =>
    obtain ⟨h1, h2, h3, h4, h5, h6⟩ := exec_async_sameReader hi he
    obtain ⟨g1, g2, g3, g4, g5, g6⟩ := ih
    exact ⟨g1.trans h1, g2.trans h2, g3.trans h3, g4.trans h4, g5.trans h5, g6.trans h6⟩

theorem EventRun.clockAdvances {s t : State} (h : EventRun s t) (hs : ClockInv s) : ClockAdvances s t := by
  induction h with
  | refl s => exact .of_sameClock hs rfl ⟨rfl, rfl⟩
  | next s t u i _ he _ ih =>
    have h₁ := exec_clockAdvances hs he
    exact h₁.trans (ih h₁.inv)

/-- An operation and the events behind it. -/
theorem EventRun.clockAdvances_after {i : Instr} {s t u : State} (h : EventRun t u) (hs : ClockInv s)
    (he : exec i s = .next t) : ClockAdvances s u :=
  have h₁ := exec_clockAdvances hs he
  h₁.trans (h.clockAdvances h₁.inv)

theorem EventRun.rstate_eq {s t : State} (h : EventRun s t) : rstate t = rstate s := by
  obtain ⟨-, -, -, -, -, hr⟩ := h.sameReader
  exact rstate_congr hr

/-- What an attempt has latched when its comparison is next, at `e`: T1 at its first state, S at the state step 2 met, T2 in
between; and the clock advanced throughout. -/
theorem Attempt.latches {i : Instr} {a b d : State} (hi : i = .now ∨ ∃ dl, i = .blockUntil dl) (ha : ClockInv a)
    (hr : rstate a = some .t1) (h : Attempt i a b d) :
    ∃ e, ClockAdvances a b ∧ ClockAdvances b e ∧ d = readerStep .cmp e ∧ e.t1 = a.ticks ∧ e.sLatch = b.sub ∧
      b.ticks ≤ e.t2 := by
  obtain ⟨a', b', c, c', e, hexec₁, hrun₁, hexec₂, hrun₂, hexec₃, hrun₃, hexec₄⟩ := h
  -- the clock
  have hab := hrun₁.clockAdvances_after ha hexec₁
  have hbc := hrun₂.clockAdvances_after hab.inv hexec₂
  have hce := hrun₃.clockAdvances_after hbc.inv hexec₃
  -- the reader
  obtain rfl := exec_eq_readerStep hi hr (by decide) hexec₁
  have hrb := hrun₁.rstate_eq.trans (rstate_setRState ..)
  obtain rfl := exec_eq_readerStep hi hrb (by decide) hexec₂
  have hrc := hrun₂.rstate_eq.trans (rstate_setRState ..)
  obtain rfl := exec_eq_readerStep hi hrc (by decide) hexec₃
  have hre := hrun₃.rstate_eq.trans (rstate_setRState ..)
  obtain ⟨ht1b, -⟩ := hrun₁.sameReader
  obtain ⟨ht1c, hsc, -⟩ := hrun₂.sameReader
  obtain ⟨ht1e, hse, ht2e, -⟩ := hrun₃.sameReader
  exact ⟨e, hab, hbc.trans hce, exec_eq_readerStep hi hre (by decide) hexec₄, ht1e.trans (ht1c.trans ht1b),
    hse.trans hsc, ht2e ▸ hbc.ticks_le⟩

/-- Settles O22: T1 and T2 bracket the tick count that step 2 met, and a completed attempt found them equal. -/
theorem completedNowIsExact : Obligations.CompletedNowIsExact := by
  unfold Obligations.CompletedNowIsExact
  intro i a b d hi ha hr h hidle
  obtain ⟨e, hab, hbe, rfl, ht1, hs, ht2⟩ := h.latches hi ha hr
  obtain ⟨heq, hnow⟩ := readerStep_cmp_idle hidle
  have hticks : e.t1 = b.ticks := by
    have := hab.ticks_le
    omega
  have hsample : (nowSample e).toNat = clockUs b := by
    rw [nowSample_toNat (by rw [hticks, hbe.cfg]; exact hab.inv.ticks_le) (by rw [hs, hbe.cfg]; exact hab.inv.sub_lt),
      hticks, hs, hbe.cfg, clockUs]
  obtain ⟨hcfg, htk, hsub⟩ := readerStep_clock .cmp e
  exact ⟨hnow ▸ hsample, hab.clockUs_le, hbe.clockUs_le.trans (clockUs_congr hcfg htk hsub).ge⟩

/-! ## NOWVAL never decreases (R108) -/

/-- The invariant of unit CLK: the part of `Inv` that speaks of the clock and the reader. -/
structure ClkInv (s : State) : Prop where
  clock : ClockInv s
  reader : ReaderInv s
  nowval_le : s.nowval.toNat ≤ clockUs s

theorem Inv.clkInv {s : State} (h : Inv s) : ClkInv s := ⟨h.clock, h.reader, h.time.nowval_le⟩

theorem ReaderInv.of_t1 {s : State} (h : rstate s = some .t1) : ReaderInv s := by simp [ReaderInv, h]

theorem readerInv_s {s : State} (h : rstate s = some .s) : ReaderInv s ↔ s.t1 ≤ s.ticks := by simp [ReaderInv, h]

theorem readerInv_t2 {s : State} (h : rstate s = some .t2) : ReaderInv s ↔
    s.t1 ≤ s.ticks ∧ s.sLatch < s.cfg.subMod ∧ (s.t1 = s.ticks → pairBounds s) := by simp [ReaderInv, h]

theorem readerInv_cmp {s : State} (h : rstate s = some .cmp) : ReaderInv s ↔
    s.t1 ≤ s.t2 ∧ s.t2 ≤ s.ticks ∧ s.sLatch < s.cfg.subMod ∧ (s.t1 = s.t2 → pairBounds s) := by
  simp [ReaderInv, h]

/-- The end of an attempt leaves the reader idle with RWAIT clear, or starting over. -/
theorem finishAttempt_readerInv (s : State) : ReaderInv (finishAttempt s) := by
  obtain ⟨-, -, h⟩ | ⟨rs, -, h⟩ := finishAttempt_spec s
  · exact h ▸ .of_t1 (rstate_setRState ..)
  · exact h ▸ .of_idle (by simp [rstate]) (by simp [rwait])

/-- While the clock advances, latches that no tick has passed stay a time between NOWVAL and the clock's. -/
theorem pairBounds.of_clockAdvances {s t : State} (h : pairBounds s) (ha : ClockAdvances s t) (hr : SameReader s t) :
    pairBounds t := by
  obtain ⟨h1, h2, -, h4, -, -⟩ := hr
  obtain ⟨hlow, hhigh⟩ := h
  unfold pairBounds
  rw [h1, h2, h4, ha.cfg]
  exact ⟨hlow, hhigh.trans ha.clockUs_le⟩

/-- The clock's advance keeps the reader's invariant: T1 and T2 stay behind TICKS. -/
theorem ReaderInv.of_clockAdvances {s t : State} (h : ReaderInv s) (ha : ClockAdvances s t) (hr : SameReader s t) :
    ReaderInv t := by
  have hpair := fun hp : pairBounds s => hp.of_clockAdvances ha hr
  have hticks := ha.ticks_le
  obtain ⟨h1, h2, h3, -, -, h6⟩ := hr
  have hrt := rstate_congr h6
  cases hrs : rstate s with
  | none => simp [ReaderInv, hrs] at h
  | some r =>
    rw [hrs] at hrt
    cases r with
    | idle => exact .of_idle hrt ((rwait_congr h6).trans (h.rwait_idle hrs))
    | t1 => exact .of_t1 hrt
    | s =>
      have hle := (readerInv_s hrs).mp h
      rw [readerInv_s hrt, h1]
      exact hle.trans hticks
    | t2 =>
      obtain ⟨hle, hs, hp⟩ := (readerInv_t2 hrs).mp h
      rw [readerInv_t2 hrt, h1, h2, ha.cfg]
      exact ⟨hle.trans hticks, hs, fun heq => hpair (hp (by omega))⟩
    | cmp =>
      obtain ⟨hle, hle', hs, hp⟩ := (readerInv_cmp hrs).mp h
      rw [readerInv_cmp hrt, h1, h2, h3, ha.cfg]
      exact ⟨hle, hle'.trans hticks, hs, fun heq => hpair (hp heq)⟩

/-- The unit's invariant and the order of NOWVAL, from one state to the next. -/
structure ClkKept (s t : State) : Prop where
  inv : ClkInv t
  nowval_le : s.nowval.toNat ≤ t.nowval.toNat

theorem ClkKept.trans {s t u : State} (h₁ : ClkKept s t) (h₂ : ClkKept t u) : ClkKept s u :=
  ⟨h₂.inv, h₁.nowval_le.trans h₂.nowval_le⟩

theorem ClkInv.kept_of_clockAdvances {s t : State} (h : ClkInv s) (ha : ClockAdvances s t) (hr : SameReader s t) :
    ClkKept s t := by
  have hreader := h.reader.of_clockAdvances ha hr
  obtain ⟨-, -, -, hn, -, -⟩ := hr
  exact ⟨⟨ha.inv, hreader, hn ▸ h.nowval_le.trans ha.clockUs_le⟩, by rw [hn]⟩

theorem ClkInv.kept_of_same {s t : State} (h : ClkInv s) (hk : SameUnitClk s t) : ClkKept s t :=
  h.kept_of_clockAdvances (.of_sameClock h.clock hk.cfg hk.clock) hk.reader

/-- A step of the reader keeps the unit's invariant: the pair latched is bounded where step 2 reads SUB, and NOWVAL takes
the pair's time only where T1 and T2 agree (R105, R107). -/
theorem ClkInv.kept_of_readerStep {s : State} {r : RState} (h : ClkInv s) (hr : rstate s = some r) :
    ClkKept s (readerStep r s) := by
  have hclock := ClockAdvances.of_sameClock h.clock (readerStep_clock r s).1 (readerStep_clock r s).2
  have hnow := h.nowval_le
  cases r with
  | idle => exact ⟨h, le_rfl⟩
  | t1 => exact ⟨⟨hclock.inv, (readerInv_s (rstate_setRState ..)).mpr le_rfl, hnow⟩, le_rfl⟩
  | s =>
    have hle := (readerInv_s hr).mp h.reader
    have hpair (heq : s.t1 = s.ticks) : us s.cfg s.t1 s.sub = clockUs s := by rw [heq, clockUs]
    exact ⟨⟨hclock.inv, (readerInv_t2 (rstate_setRState ..)).mpr
      ⟨hle, h.clock.sub_lt, fun heq => ⟨hnow.trans (hpair heq).ge, (hpair heq).le⟩⟩, hnow⟩, le_rfl⟩
  | t2 =>
    obtain ⟨hle, hs, hp⟩ := (readerInv_t2 hr).mp h.reader
    exact ⟨⟨hclock.inv, (readerInv_cmp (rstate_setRState ..)).mpr ⟨hle, le_rfl, hs, hp⟩, hnow⟩, le_rfl⟩
  | cmp =>
    obtain ⟨hle, hle', hs, hp⟩ := (readerInv_cmp hr).mp h.reader
    by_cases heq : s.t1 = s.t2
    · rw [readerStep_cmp_of_eq heq] at hclock ⊢
      have hsample := nowSample_toNat ((hle.trans hle').trans h.clock.ticks_le) hs
      obtain ⟨hlow, hhigh⟩ := hp heq
      rw [← hsample, ← finishAttempt_nowval] at hlow hhigh
      exact ⟨⟨hclock.inv, finishAttempt_readerInv s, hhigh.trans hclock.clockUs_le⟩, hlow⟩
    · rw [readerStep_cmp_of_ne heq] at hclock ⊢
      exact ⟨⟨hclock.inv, .of_t1 (rstate_setRState .t1 s), hnow⟩, le_rfl⟩

theorem ClkInv.kept_of_exec {i : Instr} {s t : State} (h : ClkInv s) (he : exec i s = .next t) : ClkKept s t := by
  have ha := exec_clockAdvances h.clock he
  cases exec_clkEffect he with
  | cnt _ => exact h.kept_of_clockAdvances ha (exec_async_sameReader rfl he)
  | tick _ => exact h.kept_of_clockAdvances ha (exec_async_sameReader rfl he)
  | read _ r hr _ ht => exact ht ▸ h.kept_of_readerStep hr
  | issue _ _ _ hn ht1 => exact ⟨⟨ha.inv, .of_t1 ht1, hn ▸ h.nowval_le.trans ha.clockUs_le⟩, by rw [hn]⟩
  | keep _ hk => exact h.kept_of_same hk

theorem ClkInv.kept_of_step {s t : State} (h : ClkInv s) (hst : step s = .next t) : ClkKept s t := by
  cases step_atMostOneExec hst with
  | none hk => exact h.kept_of_same hk
  | one he hk hk' =>
    have h₁ := h.kept_of_same hk
    have h₂ := h₁.inv.kept_of_exec he
    exact (h₁.trans h₂).trans (h₂.inv.kept_of_same hk')

theorem ClkInv.kept_of_steps {s t : State} (h : ClkInv s) (hst : Steps s t) : ClkKept s t := by
  induction hst with
  | refl s => exact ⟨h, le_rfl⟩
  | next s t u hst _ ih =>
    have h₁ := h.kept_of_step hst
    exact h₁.trans (ih h₁.inv)

/-- Settles O23: unit CLK's part of the invariant is kept by every step, and with it the order of NOWVAL. -/
theorem nowvalNeverDecreases : Obligations.NowvalNeverDecreases := by
  unfold Obligations.NowvalNeverDecreases
  exact fun s t h hst => (h.clkInv.kept_of_steps hst).nowval_le

end Sys2Proof.Machine
end

