-- ==== Sys2Proof/Proofs/ControlLoop.lean ====
section
/-! Unit SEQ (R130 to R145): the start of an iteration, with NEXT_RUN, over any operation and any step, and the spacing of
two starts; EVAL and STEP beside `enabled`. -/

namespace Sys2Proof.Machine

/-! ## The step of the block, with its turn set aside -/

/-- The state a turn is taken in: the turn gone from the schedule, a drive call's mark as the turn finds it. -/
def atTurn (schedule : List Turn) (driveCall : Bool) (s : State) : State :=
  { s with schedule := schedule, driveCall := driveCall }

/-- A step is one of the main context or one operation, in the state its turn is taken in. -/
theorem step_mainStep_or_exec {s t : State} (h : step s = .next t) :
    ∃ sch dc, mainStep (atTurn sch dc s) = .next t ∨ ∃ i, exec i (atTurn sch dc s) = .next t := by
  obtain ⟨-, -, h⟩ := takeTurn_next h
  obtain h | ⟨rest, -, h⟩ | ⟨-, -, rest, i, -, -, h⟩ | ⟨-, -, rest, i, -, -, -, h⟩ | ⟨d, rest, -, -, h⟩ |
    ⟨-, rest, -, h | h⟩ := nextTurn_next h
  · exact ⟨s.schedule, s.driveCall, .inl h⟩
  · exact ⟨rest, s.driveCall, .inl h⟩
  · exact ⟨rest, s.driveCall, .inr ⟨i, h⟩⟩
  · exact ⟨rest, false, .inr ⟨i, h⟩⟩
  · exact ⟨rest, s.driveCall, .inr ⟨.blockUntil d, h⟩⟩
  · exact ⟨rest, s.driveCall, .inr ⟨.edge, h⟩⟩
  · exact ⟨rest, s.driveCall, .inr ⟨.step, h⟩⟩

/-! ## The start of an iteration -/

/-- No iteration starts: NEXT_RUN stays, and the loop is at P_POLL only if it was there. -/
structure NoStart (s t : State) : Prop where
  nextRun : t.nextRun = s.nextRun
  poll : phase t = some .poll → phase s = some .poll

/-- SCHED, its NOW complete, starts an iteration that is due, and sets NEXT_RUN one period after NOWVAL (R28, R130). -/
structure Start (s t : State) : Prop where
  call : s.call = .schedNow
  due : s.nextRun ≤ s.nowval
  nowval : t.nowval = s.nowval
  nextRun : t.nextRun = s.nowval + Config.loopPeriod
  phase_wait : phase s = some .wait
  phase_poll : phase t = some .poll

/-- It holds by computation of a state and the same state with registers other than NEXT_RUN and SCTL updated. -/
theorem NoStart.of_sctl {s t : State} (hn : t.nextRun = s.nextRun) (hs : t.sctl = s.sctl) : NoStart s t :=
  ⟨hn, fun h => phase_congr hs ▸ h⟩

theorem NoStart.of_phase {s t : State} {p : Phase} (hn : t.nextRun = s.nextRun) (hp : phase t = some p) (hne : p ≠ .poll) :
    NoStart s t :=
  ⟨hn, fun h => absurd (Option.some.inj (hp.symm.trans h)) hne⟩

theorem NoStart.trans {s t u : State} (h₁ : NoStart s t) (h₂ : NoStart t u) : NoStart s u :=
  ⟨h₂.nextRun.trans h₁.nextRun, fun h => h₁.poll (h₂.poll h)⟩

theorem noStart_endPoll (s : State) : NoStart s (endPoll s) := .of_phase rfl (phase_endPoll s) (by decide)

theorem noStart_afterPoll (s : State) : NoStart s (afterPoll s) := by
  rw [afterPoll_eq]
  split <;> exact .of_sctl rfl rfl

/-- The reader never starts an iteration. -/
theorem noStart_readerStep (r : RState) (s : State) : NoStart s (readerStep r s) := by
  cases r with
  | idle => exact .of_sctl rfl rfl
  | t1 => exact .of_sctl rfl rfl
  | s => exact .of_sctl rfl rfl
  | t2 => exact .of_sctl rfl rfl
  | cmp =>
    by_cases heq : s.t1 = s.t2
    · obtain ⟨rc, rs, h⟩ := finishAttempt_frame s
      rw [readerStep_cmp_of_eq heq, h]
      exact .of_sctl rfl rfl
    · rw [readerStep_cmp_of_ne heq]
      exact .of_sctl rfl rfl

/-- Only SCHED starts an iteration (R139). -/
theorem exec_noStart {i : Instr} {s t : State} (h : exec i s = .next t) (hi : i ≠ .sched) : NoStart s t := by
  cases i with
  | sched => exact absurd rfl hi
  | now =>
    obtain ⟨-, rfl⟩ | ⟨r, -, -, -, rfl⟩ := execNow_next h
    · exact .of_sctl rfl rfl
    · exact noStart_readerStep r s
  | blockUntil d =>
    obtain ⟨-, -, rfl⟩ | ⟨r, -, -, -, -, rfl⟩ := execBlockUntil_next h
    · exact .of_sctl rfl rfl
    · exact noStart_readerStep r s
  | poll =>
    have hpoll := noStart_afterPoll s
    obtain ⟨-, -, -, ⟨c, -, rfl⟩ | ⟨-, rfl⟩⟩ := execPoll_next h
    · exact hpoll.trans (.of_sctl rfl rfl)
    · exact .of_phase hpoll.nextRun (phase_endPoll _) (by decide)
  | edge =>
    obtain ⟨-, -, -, ⟨d, -, rfl⟩ | ⟨-, rfl⟩⟩ := execEdge_next h
    · exact .of_phase rfl (phase_endEdge _) (by decide)
    · exact .of_phase rfl (phase_endEdge _) (by decide)
  | eval =>
    obtain ⟨-, -, ⟨-, n, m, -, rfl⟩ | ⟨-, rfl⟩⟩ := execEval_next h
    · exact .of_phase rfl (phase_setPhase ..) (by decide)
    · exact .of_sctl rfl rfl
  | step =>
    obtain ⟨-, -, -, ⟨-, -, rfl⟩ | ⟨-, -, rfl⟩ | ⟨-, rfl⟩⟩ := execStep_next h
    · exact .of_phase rfl (phase_endStep ..) (by decide)
    · exact .of_phase rfl (phase_endStep ..) (by decide)
    · exact .of_phase rfl (phase_endStep ..) (by decide)
  | tp v => obtain ⟨-, ⟨-, m, -, rfl⟩ | ⟨-, rfl⟩⟩ := execTp_next h <;> exact .of_sctl rfl rfl
  | tv v => obtain ⟨-, ⟨-, m, -, rfl⟩ | ⟨-, rfl⟩⟩ := execTv_next h <;> exact .of_sctl rfl rfl
  | enable => obtain ⟨-, -, -, -, -, rfl⟩ := execEnable_next h; exact .of_sctl rfl rfl
  | disable => obtain ⟨-, -, -, -, -, rfl⟩ := execDisable_next h; exact .of_sctl rfl rfl
  | stepFwd => obtain ⟨-, -, -, -, -, rfl⟩ := execStepFwd_next h; exact .of_sctl rfl rfl
  | stepRev => obtain ⟨-, -, -, -, -, rfl⟩ := execStepRev_next h; exact .of_sctl rfl rfl
  | cnt => obtain ⟨-, rfl⟩ := execCnt_next h; exact .of_sctl rfl rfl
  | tick => obtain ⟨-, -, rfl⟩ := execTick_next h; exact .of_sctl rfl rfl
  | rdt => obtain ⟨-, rfl⟩ := execRdt_next h; exact .of_sctl rfl rfl
  | rds => obtain ⟨-, rfl⟩ := execRds_next h; exact .of_sctl rfl rfl
  | byte c => cases execByte_next h; exact .of_sctl rfl rfl
  | sr v => obtain ⟨n, -, rfl⟩ := execSr_next h; exact .of_sctl rfl rfl
  | en v => cases h; exact .of_sctl rfl rfl
  | mv v => cases h; exact .of_sctl rfl rfl
  | ma v => cases h; exact .of_sctl rfl rfl

/-- SCHED starts an iteration where its due test succeeds (R130). -/
theorem execSched_noStart_or_start {s t : State} (h : execSched s = .next t) : NoStart s t ∨ Start s t := by
  obtain ⟨hp, -, ⟨hc, rfl⟩ | ⟨-, rfl⟩⟩ := execSched_next h
  · by_cases hdue : s.nextRun ≤ s.nowval
    · rw [schedTest, if_pos hdue]
      exact .inr ⟨hc, hdue, rfl, rfl, hp, phase_setPhase ..⟩
    · rw [schedTest, if_neg hdue]
      exact .inl (.of_sctl rfl rfl)
  · exact .inl (.of_sctl rfl rfl)

theorem exec_noStart_or_start {i : Instr} {s t : State} (h : exec i s = .next t) : NoStart s t ∨ Start s t := by
  by_cases hi : i = .sched
  · subst hi
    exact execSched_noStart_or_start h
  · exact .inl (exec_noStart h hi)

/-- The end of POLL that may follow an operation of the main context starts nothing, and does not follow a start: SCHED is
no command. -/
theorem mainStep_noStart_or_start {s t : State} (h : mainStep s = .next t) : NoStart s t ∨ Start s t := by
  obtain ⟨i, u, -, hu, rfl⟩ | ⟨-, rfl⟩ := mainStep_next h
  · obtain hno | hstart := exec_noStart_or_start hu
    · split
      · exact .inl (hno.trans (noStart_endPoll u))
      · exact .inl hno
    · rw [if_neg (by simp [hstart.call, LoopCall.handling])]
      exact .inr hstart
  · exact .inl (noStart_endPoll s)

theorem step_noStart_or_start {s t : State} (h : step s = .next t) : NoStart s t ∨ Start s t := by
  obtain ⟨sch, dc, hstep⟩ := step_mainStep_or_exec h
  have heffect : NoStart (atTurn sch dc s) t ∨ Start (atTurn sch dc s) t := by
    obtain h | ⟨i, h⟩ := hstep
    · exact mainStep_noStart_or_start h
    · exact exec_noStart_or_start h
  obtain ⟨hn, hp⟩ | ⟨hc, hdue, hv, hn, hw, hp⟩ := heffect
  · exact .inl ⟨hn, hp⟩
  · exact .inr ⟨hc, hdue, hv, hn, hw, hp⟩

theorem StartsIteration.start {s t : State} (h : StartsIteration s t) : Start s t := by
  obtain ⟨hstep, hw, hp⟩ := h
  obtain hno | hstart := step_noStart_or_start hstep
  · rw [hno.poll hp] at hw
    cases hw
  · exact hstart

/-! ## The spacing of iterations (R145) -/

/-- One period after NOWVAL still fits 64 bits, since NOWVAL is not later than the clock (R112). -/
theorem ClkInv.nowval_add_loopPeriod {s : State} (h : ClkInv s) :
    (s.nowval + Config.loopPeriod).toNat = s.nowval.toNat + 100 := by
  have hnow := h.nowval_le.trans (clockUs_le h.clock)
  exact BitVec.toNat_add_of_lt (show s.nowval.toNat + 100 < 2 ^ 64 by omega)

/-- NEXT_RUN after a start is one period after the iteration's sample. -/
theorem Start.nextRun_toNat {s t : State} (h : Start s t) (hs : ClkInv s) : t.nextRun.toNat = t.nowval.toNat + 100 := by
  rw [h.nextRun, h.nowval, hs.nowval_add_loopPeriod]

/-- A start needs NEXT_RUN reached. -/
theorem Start.nextRun_le_nowval {s t : State} (h : Start s t) : s.nextRun.toNat ≤ t.nowval.toNat := by
  rw [h.nowval]
  exact h.due

theorem ClkInv.nextRun_le_of_step {s t : State} (hs : ClkInv s) (h : step s = .next t) :
    s.nextRun.toNat ≤ t.nextRun.toNat := by
  obtain hno | hstart := step_noStart_or_start h
  · rw [hno.nextRun]
  · have hle := hstart.nextRun_le_nowval
    have heq := hstart.nextRun_toNat hs
    omega

/-- NEXT_RUN never decreases over a run. -/
theorem ClkInv.nextRun_le_of_steps {s t : State} (hs : ClkInv s) (h : Steps s t) : s.nextRun.toNat ≤ t.nextRun.toNat := by
  induction h with
  | refl s => exact le_rfl
  | next s t u hst _ ih => exact (hs.nextRun_le_of_step hst).trans (ih (hs.kept_of_step hst).inv)

/-- Settles O31: the first start sets NEXT_RUN one period after its sample, NEXT_RUN never decreases, and the second start
needs it reached. -/
theorem iterationsStartOnePeriodApart : Obligations.IterationsStartOnePeriodApart := by
  unfold Obligations.IterationsStartOnePeriodApart
  intro s₁ t₁ s₂ t₂ hinv h₁ hrun h₂
  have hs₁ := hinv.clkInv
  have ⟨hstep, _, _⟩ := h₁
  calc t₁.nowval.toNat + 100 = t₁.nextRun.toNat := (h₁.start.nextRun_toNat hs₁).symm
    _ ≤ s₂.nextRun.toNat := (hs₁.kept_of_step hstep).inv.nextRun_le_of_steps hrun
    _ ≤ t₂.nowval.toNat := h₂.start.nextRun_le_nowval

/-! ## EVAL and STEP beside `enabled` (R142) -/

@[simp] theorem withEnabled_cfg (b : Bool) (s : State) : (withEnabled b s).cfg = s.cfg := rfl
@[simp] theorem withEnabled_call (b : Bool) (s : State) : (withEnabled b s).call = s.call := rfl
@[simp] theorem withEnabled_actualSteps (b : Bool) (s : State) : (withEnabled b s).actualSteps = s.actualSteps := rfl
@[simp] theorem withEnabled_target (b : Bool) (s : State) : (withEnabled b s).target = s.target := rfl
@[simp] theorem phase_withEnabled (b : Bool) (s : State) : phase (withEnabled b s) = phase s := rfl
@[simp] theorem rstate_withEnabled (b : Bool) (s : State) : rstate (withEnabled b s) = rstate s := rfl
@[simp] theorem readerIdle_withEnabled (b : Bool) (s : State) : readerIdle (withEnabled b s) = readerIdle s := rfl

/-- The operation does the same whatever `enabled` is: it commutes with a change of `enabled`. -/
def IgnoresEnabled (k : State → Result) : Prop :=
  ∀ (b : Bool) (s : State), k (withEnabled b s) = mapNext (withEnabled b) (k s)

theorem IgnoresEnabled.atPhase {p : Phase} {k : State → Result} (hk : IgnoresEnabled k) :
    IgnoresEnabled fun s => Machine.atPhase p s k := by
  intro b s
  dsimp only [Machine.atPhase]
  rw [phase_withEnabled]
  cases phase s with
  | none => rfl
  | some q =>
    dsimp only
    split
    · exact hk b s
    · rfl

theorem IgnoresEnabled.betweenCalls {k : State → Result} (hk : IgnoresEnabled k) :
    IgnoresEnabled fun s => Machine.betweenCalls s k := by
  intro b s
  dsimp only [Machine.betweenCalls]
  rw [rstate_withEnabled, readerIdle_withEnabled, withEnabled_call]
  cases rstate s with
  | none => rfl
  | some r =>
    dsimp only
    split
    · exact hk b s
    · rfl

/-- Whether a NOW is issued or complete does not depend on `enabled`. -/
theorem IgnoresEnabled.withNow {c : LoopCall} {k : State → Result} (hk : IgnoresEnabled k) :
    IgnoresEnabled (Machine.withNow c k) := by
  intro b s
  unfold Machine.withNow
  rw [rstate_withEnabled, readerIdle_withEnabled, withEnabled_call]
  cases rstate s with
  | none => rfl
  | some r =>
    dsimp only
    split
    · split
      · exact hk b { s with call := .idle }
      · split <;> rfl
    · rfl

/-- The evaluation neither reads nor writes `enabled`. -/
theorem evaluate_withEnabled (A : Arith) (m : Motion) (b : Bool) (now : Word) :
    evaluate A { m with enabled := b } now =
      (evaluate A m now).map fun e => { e with motion := { e.motion with enabled := b } } := by
  have hvel (vt t : F64) : velocityBranch A { m with enabled := b } vt t = velocityBranch A m vt t := rfl
  have hpos (t : F64) : positionBranch A { m with enabled := b } t = positionBranch A m t := rfl
  unfold evaluate
  simp only [hvel, hpos]
  split
  · generalize velocityBranch A m _ _ = r
    split
    · cases m.stopNeeded && r.cruise <;> rfl
    · rfl
  · split <;> rfl

theorem targetSteps_withEnabled (A : Arith) (c : Config) (m : Motion) (b : Bool) (now : Word) :
    targetSteps A c { m with enabled := b } now =
      (targetSteps A c m now).map fun r => (r.1, { r.2 with enabled := b }) := by
  unfold targetSteps
  rw [evaluate_withEnabled]
  cases evaluate A m now with
  | error r => rfl
  | ok e =>
    simp only [Except.map]
    cases degreesToSteps A e.pos m.stepsPerRev with
    | none => rfl
    | some n => dsimp only; split <;> rfl

theorem evalTarget_ignoresEnabled : IgnoresEnabled evalTarget := by
  intro b s
  have htarget : targetSteps binary64 (withEnabled b s).cfg (withEnabled b s).motion (withEnabled b s).nowval =
      (targetSteps binary64 s.cfg s.motion s.nowval).map fun r => (r.1, { r.2 with enabled := b }) :=
    targetSteps_withEnabled ..
  unfold evalTarget
  rw [htarget]
  cases targetSteps binary64 s.cfg s.motion s.nowval with
  | error r => rfl
  | ok r => rfl

theorem stepTo_ignoresEnabled (d : Drive) (n : Int) : IgnoresEnabled (stepTo d n) := by
  intro b s
  unfold stepTo emitStep
  rw [withEnabled_cfg]
  split <;> rfl

theorem execEval_ignoresEnabled : IgnoresEnabled execEval := evalTarget_ignoresEnabled.withNow.atPhase

/-- STEP compares ACTUAL_STEPS with TARGET and takes one step or none, beside `enabled`. -/
theorem execStep_ignoresEnabled : IgnoresEnabled execStep := by
  refine IgnoresEnabled.atPhase (IgnoresEnabled.betweenCalls fun b s => ?_)
  dsimp only
  rw [withEnabled_actualSteps, withEnabled_target]
  split
  · exact stepTo_ignoresEnabled _ _ b (endDriveCall s)
  · split
    · exact stepTo_ignoresEnabled _ _ b (endDriveCall s)
    · rfl

/-- Settles O43: EVAL and STEP each commute with a change of `enabled`. -/
theorem stepsAreNotGatedByEnabled : Obligations.StepsAreNotGatedByEnabled := by
  unfold Obligations.StepsAreNotGatedByEnabled
  exact fun b s => ⟨execEval_ignoresEnabled b s, execStep_ignoresEnabled b s⟩

end Sys2Proof.Machine
end

