-- ==== Sys2Proof/Proofs/PlannerCommands.lean ====
section
/-! The planner's commands (R170 to R172, R186): `en`, `mv` and `ma` write one field unchecked, a bad limit is refused by the
evaluation, and nothing but `en` writes `enabled`. -/

namespace Sys2Proof.Machine

/-! ## Who writes `enabled` (R186) -/

theorem evaluate_enabled {A : Arith} {m : Motion} {now : Word} {e : Evaluation} (h : evaluate A m now = .ok e) :
    e.motion.enabled = m.enabled := by
  obtain hm | ⟨-, hm⟩ := evaluate_motion h
  · rw [hm]
  · rw [hm, completeStop]

theorem targetSteps_enabled {A : Arith} {c : Config} {m m' : Motion} {now : Word} {n : Int}
    (h : targetSteps A c m now = .ok (n, m')) : m'.enabled = m.enabled := by
  obtain ⟨e, he, -, -, rfl⟩ := targetSteps_ok h
  exact evaluate_enabled he

theorem capture_enabled {m m' : Motion} {n : Word} (h : capture m n = .ok m') : m'.enabled = m.enabled := by
  obtain ⟨e, -, rfl⟩ := capture_ok h
  rfl

@[simp] theorem afterPoll_motion (s : State) : (afterPoll s).motion = s.motion := by
  rw [afterPoll_eq]
  split <;> rfl

@[simp] theorem schedTest_motion (s : State) : (schedTest s).motion = s.motion := by
  unfold schedTest
  split <;> rfl

@[simp] theorem readerStep_motion (r : RState) (s : State) : (readerStep r s).motion = s.motion := by
  cases r with
  | idle => rfl
  | t1 => rfl
  | s => rfl
  | t2 => rfl
  | cmp =>
    by_cases heq : s.t1 = s.t2
    · obtain ⟨rc, rs, h⟩ := finishAttempt_frame s
      rw [readerStep_cmp_of_eq heq, h]
    · rw [readerStep_cmp_of_ne heq, setRState_motion]

/-- EVAL, `tp` and `tv` write MotionState and leave `enabled` in it; the other operations write other fields or none. -/
theorem exec_enabled {i : Instr} {s t : State} (h : exec i s = .next t) (hi : ∀ v, i ≠ .en v) :
    t.motion.enabled = s.motion.enabled := by
  cases i with
  | en v => exact absurd rfl (hi v)
  | mv v => cases h; rfl
  | ma v => cases h; rfl
  | sr v => obtain ⟨n, -, rfl⟩ := execSr_next h; rfl
  | tp v =>
    obtain ⟨-, ⟨-, m, hm, rfl⟩ | ⟨-, rfl⟩⟩ := execTp_next h
    · exact (capture_enabled hm :)
    · rfl
  | tv v =>
    obtain ⟨-, ⟨-, m, hm, rfl⟩ | ⟨-, rfl⟩⟩ := execTv_next h
    · exact (capture_enabled hm :)
    · rfl
  | eval =>
    obtain ⟨-, -, ⟨-, n, m, hm, rfl⟩ | ⟨-, rfl⟩⟩ := execEval_next h
    · exact targetSteps_enabled hm
    · rfl
  | now =>
    obtain ⟨-, rfl⟩ | ⟨r, -, -, -, rfl⟩ := execNow_next h
    · rfl
    · rw [readerStep_motion]
  | blockUntil d =>
    obtain ⟨-, -, rfl⟩ | ⟨r, -, -, -, -, rfl⟩ := execBlockUntil_next h
    · rfl
    · rw [readerStep_motion]
  | sched =>
    obtain ⟨-, -, ⟨-, rfl⟩ | ⟨-, rfl⟩⟩ := execSched_next h
    · rw [schedTest_motion]
    · rfl
  | poll =>
    obtain ⟨-, -, -, ⟨c, -, rfl⟩ | ⟨-, rfl⟩⟩ := execPoll_next h
    · rw [endDriveCall_motion, afterPoll_motion]
    · rw [endPoll_motion, endDriveCall_motion, afterPoll_motion]
  | edge => obtain ⟨-, -, -, ⟨d, -, rfl⟩ | ⟨-, rfl⟩⟩ := execEdge_next h <;> rfl
  | step => obtain ⟨-, -, -, ⟨-, -, rfl⟩ | ⟨-, -, rfl⟩ | ⟨-, rfl⟩⟩ := execStep_next h <;> rfl
  | enable => obtain ⟨-, -, -, -, -, rfl⟩ := execEnable_next h; rfl
  | disable => obtain ⟨-, -, -, -, -, rfl⟩ := execDisable_next h; rfl
  | stepFwd => obtain ⟨-, -, -, -, -, rfl⟩ := execStepFwd_next h; rfl
  | stepRev => obtain ⟨-, -, -, -, -, rfl⟩ := execStepRev_next h; rfl
  | cnt => obtain ⟨-, rfl⟩ := execCnt_next h; rfl
  | tick => obtain ⟨-, -, rfl⟩ := execTick_next h; rfl
  | rdt => obtain ⟨-, rfl⟩ := execRdt_next h; rfl
  | rds => obtain ⟨-, rfl⟩ := execRds_next h; rfl
  | byte c => cases execByte_next h; rfl

/-- Settles O55: an operation that changes `enabled` is an `en`, since every other keeps it. -/
theorem onlyEnWritesEnabled : Obligations.OnlyEnWritesEnabled := by
  unfold Obligations.OnlyEnWritesEnabled
  refine ⟨fun _ => rfl, fun _ _ _ _ => evaluate_enabled, fun i s t h hne => ?_⟩
  by_contra hen
  exact hne (exec_enabled h fun v hv => hen ⟨v, hv⟩)

/-! ## `en` (R170) -/

/-- `enabled` becomes the truth value of the operand, and nothing else changes. -/
theorem exec_en (v : F64) (s : State) :
    exec (.en v) s = .next { s with motion := { s.motion with enabled := truthValue v } } := rfl

theorem truthValue_eq_false_iff {v : F64} :
    truthValue v = false ↔ v = 0x0000000000000000#64 ∨ v = 0x8000000000000000#64 := by
  simp only [truthValue, Bool.not_eq_false', isZero_iff]

theorem decimalValue_nil (neg : Bool) : decimalValue neg [] [] = F64.zero := rfl

/-- Text that begins neither with a digit nor with a point and a digit has no number at its head (R84). -/
theorem unsignedLiteral_eq_zero (neg : Bool) {b : List Byte} (hdigit : ∀ c r, b = c :: r → isDigit c = false)
    (hpoint : ∀ c r, b = chPoint :: c :: r → isDigit c = false) : unsignedLiteral neg b = F64.zero := by
  cases b with
  | nil => exact decimalValue_nil neg
  | cons c r =>
    have hc : isDigit c = false := hdigit c r rfl
    have hfrac : (if c == chPoint then r.takeWhile isDigit else []) = [] := by
      split
      · rename_i hp
        cases r with
        | nil => rfl
        | cons d r =>
          have hd : isDigit d = false := hpoint d r (by rw [beq_iff_eq.mp hp])
          exact List.takeWhile_cons_of_neg (by simp [hd])
      · rfl
    simp only [unsignedLiteral, List.takeWhile_cons, List.dropWhile_cons, hc, Bool.false_eq_true, if_false, hfrac,
      decimalValue_nil]

theorem literal_minus (b : List Byte) : literal (chMinus :: b) = unsignedLiteral true b := rfl

theorem literal_unsigned {b : List Byte} (h : ∀ r, b ≠ chMinus :: r) : literal b = unsignedLiteral false b := by
  cases b with
  | nil => rfl
  | cons c r =>
    have hc : (c == chMinus) = false := beq_false_of_ne fun hc => h r (hc ▸ rfl)
    simp only [literal, hc, Bool.false_eq_true, if_false]

/-- Settles O46: only the two zeros are false, and a text with no number at its head is `+0.0`. -/
theorem enWritesEnabled : Obligations.EnWritesEnabled := by
  unfold Obligations.EnWritesEnabled
  refine ⟨fun _ => rfl, fun v s hv => ?_, fun v s hpos hneg => ?_, rfl, fun neg b hdigit hpoint hminus => ?_⟩
  · rw [exec_en, truthValue_eq_false_iff.mpr hv]
  · have htrue : truthValue v = true := eq_true_of_ne_false fun h => (truthValue_eq_false_iff.mp h).elim hpos hneg
    rw [exec_en, htrue]
  · cases neg with
    | true => exact (literal_minus b).trans (unsignedLiteral_eq_zero true hdigit hpoint)
    | false => exact (literal_unsigned (hminus rfl)).trans (unsignedLiteral_eq_zero false hdigit hpoint)

/-! ## `mv` and `ma`, and the limits in the evaluation (R171, R172) -/

/-- Both branches divide by the acceleration limit. -/
theorem evaluate_of_bad_maxAcceleration {A : Arith} {m : Motion} (now : Word)
    (h : limitOk A m.maxAcceleration = false) : evaluate A m now = .error .badLimit := by
  unfold evaluate
  rw [h]
  split <;> rfl

/-- The Position branch divides by the velocity limit as well. -/
theorem evaluate_position_of_bad_maxVelocity {A : Arith} {m : Motion} (now : Word) (hstop : m.stopNeeded = false)
    (hmode : m.mode = .position) (h : limitOk A m.maxVelocity = false) : evaluate A m now = .error .badLimit := by
  unfold evaluate
  rw [hstop, hmode, h, Bool.and_false]
  rfl

/-- Settles O47: `mv` stores its operand, and the Position branch refuses a bad velocity limit. -/
theorem mvWritesTheVelocityLimit : Obligations.MvWritesTheVelocityLimit := by
  unfold Obligations.MvWritesTheVelocityLimit
  exact ⟨fun _ => rfl, fun _ _ => rfl, fun _ _ now => evaluate_position_of_bad_maxVelocity now⟩

/-- Settles O48: `ma` stores its operand, and either branch refuses a bad acceleration limit. -/
theorem maWritesTheAccelerationLimit : Obligations.MaWritesTheAccelerationLimit := by
  unfold Obligations.MaWritesTheAccelerationLimit
  exact ⟨fun _ => rfl, fun _ _ => rfl, fun _ _ now => evaluate_of_bad_maxAcceleration now⟩

end Sys2Proof.Machine
end

