-- ==== Sys2Proof/Proofs/Invariant.lean ====
section
/-! The invariant of the block (R8 to R41): it holds after reset, and every step keeps it. -/

namespace Sys2Proof.Machine

/-! ## What a step can be -/

/-- The operations that run by themselves; a wire command runs inside `handle` only, and a drive command as a part of EDGE
or STEP. -/
def runsAlone : Instr → Bool
  | .en _ => false
  | .mv _ => false
  | .ma _ => false
  | .sr _ => false
  | .tp _ => false
  | .tv _ => false
  | .enable => false
  | .disable => false
  | .stepFwd => false
  | .stepRev => false
  | _ => true

/-- The loop is inside `handle` of `c`, with the reader idle. -/
structure Handling (c : Command) (s : State) : Prop where
  call : s.call = .handle c ∨ s.call = .handleNow c
  idle : rstate s = some .idle

/-- What a step can be, its turn set aside: an operation by itself, or the handling of a verified command, which ends POLL
unless it waits for a NOW. -/
inductive Move (s t : State) : Prop where
  | op {i : Instr} : runsAlone i = true → exec i s = .next t → Move s t
  | handle {c : Command} {i : Instr} {u : State} : Handling c s → instrOfCommand c = some i → exec i s = .next u →
      t = (if u.call.awaitsNow then u else endPoll u) → Move s t
  | unknown {c : Command} : Handling c s → t = endPoll s → Move s t

theorem phaseInstr_runsAlone (p : Phase) : runsAlone (phaseInstr p) = true := by cases p <;> rfl

theorem decodeEvent_runsAlone {ev : BitVec 4} {c : Byte} {i : Instr} (h : decodeEvent ev c = .ok i) :
    runsAlone i = true := by
  rcases decodeEvent_ok h with rfl | rfl | rfl | rfl | rfl | rfl | rfl | rfl <;> rfl

theorem decodeHost_runsAlone {w : BitVec 68} {i : Instr} (h : decodeHost w = .ok i) : runsAlone i = true := by
  rcases decodeHost_ok h with rfl | rfl | rfl | rfl <;> rfl

/-- A step of the reader writes T1, S, T2 or NOWVAL, each in its own state and NOWVAL only where T1 and T2 agree, RCTL and
the host port's completions (R105). -/
theorem readerStep_frame (r : RState) (s : State) : ∃ t1 sLatch t2 nowval rctl responses,
    readerStep r s =
        { s with t1 := t1, sLatch := sLatch, t2 := t2, nowval := nowval, rctl := rctl, responses := responses } ∧
      (t1 ≠ s.t1 → r = .t1) ∧ (sLatch ≠ s.sLatch → r = .s) ∧ (t2 ≠ s.t2 → r = .t2) ∧
      (nowval ≠ s.nowval → r = .cmp ∧ s.t1 = s.t2) := by
  cases r with
  | idle => exact ⟨_, _, _, _, _, _, rfl, by simp⟩
  | t1 => exact ⟨_, _, _, _, _, _, rfl, by simp⟩
  | s => exact ⟨_, _, _, _, _, _, rfl, by simp⟩
  | t2 => exact ⟨_, _, _, _, _, _, rfl, by simp⟩
  | cmp =>
    by_cases heq : s.t1 = s.t2
    · obtain ⟨rc, rs, h⟩ := finishAttempt_frame s
      exact ⟨_, _, _, _, _, _, (readerStep_cmp_of_eq heq).trans h, by simp [heq]⟩
    · exact ⟨_, _, _, _, _, _, readerStep_cmp_of_ne heq, by simp⟩

@[simp] theorem readerStep_call (r : RState) (s : State) : (readerStep r s).call = s.call := by
  obtain ⟨_, _, _, _, _, _, h, -⟩ := readerStep_frame r s
  rw [h]

@[simp] theorem readerStep_driveCall (r : RState) (s : State) : (readerStep r s).driveCall = s.driveCall := by
  obtain ⟨_, _, _, _, _, _, h, -⟩ := readerStep_frame r s
  rw [h]

@[simp] theorem readerStep_parser (r : RState) (s : State) : (readerStep r s).parser = s.parser := by
  obtain ⟨_, _, _, _, _, _, h, -⟩ := readerStep_frame r s
  rw [h]

theorem execNow_call {s t : State} (h : execNow s = .next t) : t.call = s.call := by
  obtain ⟨-, rfl⟩ | ⟨r, -, -, -, rfl⟩ := execNow_next h
  · rfl
  · exact readerStep_call r s

theorem execBlockUntil_call {d : Word} {s t : State} (h : execBlockUntil d s = .next t) :
    t.call = s.call := by
  obtain ⟨-, -, rfl⟩ | ⟨r, -, -, -, -, rfl⟩ := execBlockUntil_next h
  · rfl
  · exact readerStep_call r s

/-- With the reader busy the loop handles no command but waits for a NOW, so the step does not end POLL. -/
theorem LoopInv.busy_not_closing {s u : State} (hl : LoopInv s) (hr : rstate s ≠ some .idle) (hc : u.call = s.call) :
    (s.call.handling && !u.call.awaitsNow) = false := by
  rw [hc]
  unfold LoopInv at hl
  cases h : s.call with
  | handle c => rw [h] at hl; exact absurd hl.2 hr
  | _ => rfl

/-- A step of the main context is a move. -/
theorem mainStep_move {s t : State} (hl : LoopInv s) (h : mainStep s = .next t) : Move s t := by
  obtain ⟨i, u, hi, hu, rfl⟩ | ⟨hc, rfl⟩ := mainStep_next h
  · obtain ⟨r, p, hr, hp, hcase⟩ := mainChoice_run hi
    obtain ⟨hne, -, rfl⟩ | ⟨hne, -, rfl⟩ | ⟨-, hc, rfl⟩ | ⟨-, hc, rfl⟩ | ⟨-, hc, rfl⟩ | ⟨rfl, c, hc, hci⟩ := hcase
    · have hb : rstate s ≠ some .idle := by simpa [hr] using hne
      rw [hl.busy_not_closing hb (execBlockUntil_call hu)]
      exact .op rfl hu
    · have hb : rstate s ≠ some .idle := by simpa [hr] using hne
      rw [hl.busy_not_closing hb (execNow_call hu)]
      exact .op rfl hu
    · rw [hc]; exact .op (phaseInstr_runsAlone p) hu
    · rw [hc]; exact .op rfl hu
    · rw [hc]; exact .op rfl hu
    · have hh : s.call.handling = true := by obtain hc | hc := hc <;> rw [hc] <;> rfl
      refine .handle ⟨hc, hr⟩ hci hu ?_
      rw [hh]
      cases u.call.awaitsNow <;> rfl
  · obtain ⟨hr, c, hc, -⟩ := mainChoice_endOfPoll hc
    exact .unknown ⟨hc, hr⟩ rfl

/-- How a turn finds the mark of a drive call: as it is, or, for a host operation, gone, the reader being idle. -/
def TurnMark (dc : Bool) (s : State) : Prop := dc = s.driveCall ∨ (dc = false ∧ rstate s = some .idle)

@[simp] theorem rstate_atTurn (sch : List Turn) (dc : Bool) (s : State) : rstate (atTurn sch dc s) = rstate s := rfl
@[simp] theorem rwait_atTurn (sch : List Turn) (dc : Bool) (s : State) : rwait (atTurn sch dc s) = rwait s := rfl
@[simp] theorem phase_atTurn (sch : List Turn) (dc : Bool) (s : State) : phase (atTurn sch dc s) = phase s := rfl
@[simp] theorem enPrev_atTurn (sch : List Turn) (dc : Bool) (s : State) : enPrev (atTurn sch dc s) = enPrev s := rfl

/-- A step is a move in the state its turn is taken in. -/
theorem step_move {s t : State} (hl : LoopInv s) (h : step s = .next t) :
    ∃ sch dc, TurnMark dc s ∧ Move (atTurn sch dc s) t := by
  obtain ⟨-, -, h⟩ := takeTurn_next h
  obtain h | ⟨rest, -, h⟩ | ⟨ev, c, rest, i, -, hd, h⟩ | ⟨hl, w, rest, i, -, hd, ho, h⟩ | ⟨d, rest, -, -, h⟩ |
    ⟨-, rest, -, h | h⟩ := nextTurn_next h
  · exact ⟨s.schedule, s.driveCall, .inl rfl, mainStep_move hl h⟩
  · exact ⟨rest, s.driveCall, .inl rfl, mainStep_move (s := atTurn rest s.driveCall s) hl h⟩
  · exact ⟨rest, s.driveCall, .inl rfl, .op (decodeEvent_runsAlone hd) h⟩
  · exact ⟨rest, false, .inr ⟨rfl, (hostPortOpen_iff.mp ho).1⟩, .op (decodeHost_runsAlone hd) h⟩
  · exact ⟨rest, s.driveCall, .inl rfl, .op (i := .blockUntil d) rfl h⟩
  · exact ⟨rest, s.driveCall, .inl rfl, .op (i := .edge) rfl h⟩
  · exact ⟨rest, s.driveCall, .inl rfl, .op (i := .step) rfl h⟩

/-! ## The parts of the invariant, from one state to the next -/

theorem LoopInv.congr {s t : State} (h : LoopInv s) (hc : t.call = s.call) (hs : t.sctl = s.sctl) (hr : t.rctl = s.rctl) :
    LoopInv t := by
  simpa only [LoopInv, hc, phase_congr hs, rwait_congr hr, rstate_congr hr] using h

theorem LoopInv.of_idle {s : State} {p : Phase} (hc : s.call = .idle) (hp : phase s = some p) : LoopInv s := by
  simp [LoopInv, hc, hp]

theorem PortInv.congr {s t : State} (h : PortInv s) (hc : t.call = s.call) (hd : t.driveCall = s.driveCall)
    (hs : t.sctl = s.sctl) (hr : t.rctl = s.rctl) : PortInv t := by
  obtain ⟨h1, h2⟩ := h
  constructor
  · rwa [hc, hd, phase_congr hs]
  · rwa [hc, hd, phase_congr hs, rstate_congr hr, rwait_congr hr]

/-- No drive call runs, and the loop waits for the reader or the reader is idle. -/
theorem PortInv.of_noDriveCall {s : State} (hd : s.driveCall = false) (hc : s.call = .idle → rstate s = some .idle) :
    PortInv s :=
  ⟨fun h => absurd (hd.symm.trans h) (by decide), fun hi hb => absurd (hc hi) hb⟩

/-- A drive call just made, at the end of EDGE or STEP. -/
theorem PortInv.of_driveCall {s : State} (hr : rstate s = some .idle) (hc : s.call = .idle)
    (hp : phase s = some .eval ∨ phase s = some .wait) : PortInv s :=
  ⟨fun _ => ⟨hc, hp⟩, fun _ hb => absurd hr hb⟩

/-- A drive call runs only with the loop in no call. -/
theorem PortInv.noDriveCall {s : State} (h : PortInv s) (hc : s.call ≠ .idle) : s.driveCall = false :=
  eq_false_of_ne_true fun hd => hc (h.driveCall hd).1

/-- A drive call that runs leaves the loop at P_EVAL or P_WAIT. -/
theorem PortInv.noDriveCall_at {s : State} {p : Phase} (h : PortInv s) (hp : phase s = some p) (he : p ≠ .eval)
    (hw : p ≠ .wait) : s.driveCall = false := by
  refine eq_false_of_ne_true fun hd => ?_
  obtain h' | h' := (h.driveCall hd).2
  · exact he (Option.some.inj (hp.symm.trans h'))
  · exact hw (Option.some.inj (hp.symm.trans h'))

/-- Time goes on, NOWVAL with it, and the times held do not change. -/
theorem TimeInv.of_kept {s t : State} (h : TimeInv s) (hk : ClkKept s t) (hm : t.motion.t0 = s.motion.t0)
    (hts : phase t = some .step → phase s = some .step ∧ t.tsample = s.tsample) (hn : t.nextRun = s.nextRun) :
    TimeInv t := by
  have hle := hk.nowval_le
  refine ⟨hk.inv.nowval_le, hm ▸ h.t0_le.trans hle, fun hst => ?_, hn ▸ h.nextRun_le.trans (by omega)⟩
  obtain ⟨hp, hts⟩ := hts hst
  exact hts ▸ (h.tsample_le hp).trans hle

/-- Nothing is emitted and no step counted. -/
theorem DriveInv.of_same {s t : State} (h : DriveInv s) (hc : t.cfg = s.cfg) (ha : t.actualSteps = s.actualSteps)
    (ht : phase t = some .step → phase s = some .step ∧ t.target = s.target) (hd : t.drives = s.drives)
    (he : enPrev t = enPrev s) : DriveInv t := by
  obtain ⟨h1, h2, h3, h4⟩ := h
  refine ⟨by rwa [hc, ha], fun hst => ?_, by rwa [ha, hd], by rwa [hd, he]⟩
  obtain ⟨hp, ht⟩ := ht hst
  rw [hc, ht]
  exact h2 hp

/-- Unit SEQ, the planner and the drive stream are as they were. -/
def LoopHeld (s t : State) : Prop := SameSeq s t ∧ t.sctl = s.sctl ∧ SamePlanner s t ∧ t.drives = s.drives

/-- It holds by computation of a state and the same state with other registers updated. -/
theorem LoopHeld.refl (s : State) : LoopHeld s s := ⟨⟨rfl, rfl, rfl, rfl⟩, rfl, ⟨rfl, rfl, rfl⟩, rfl⟩

theorem LoopHeld.phase {s t : State} (h : LoopHeld s t) : Machine.phase t = Machine.phase s := phase_congr h.2.1
theorem LoopHeld.sctl {s t : State} (h : LoopHeld s t) : t.sctl = s.sctl := h.2.1

/-- The reader's steps hold the loop: they write the reader's registers and the host port's completions only. -/
theorem loopHeld_readerStep (r : RState) (s : State) : LoopHeld s (readerStep r s) := by
  obtain ⟨_, _, _, _, _, _, h, -⟩ := readerStep_frame r s
  rw [h]
  exact .refl s

/-- The invariant again, where the loop is held: what remains is the loop's call, the port and the parser. -/
theorem Inv.of_loopHeld {i : Instr} {s t : State} (h : Inv s) (he : exec i s = .next t) (hh : LoopHeld s t)
    (hl : LoopInv t) (hp : PortInv t) (hparser : ParserInv t.parser) : Inv t := by
  have hk := h.clkInv.kept_of_exec he
  have hcfg := (exec_clockAdvances h.clock he).cfg
  obtain ⟨⟨hn, ha, ht, hts⟩, hs, ⟨-, -, hm⟩, hd⟩ := hh
  have hphase := phase_congr hs
  exact ⟨hcfg ▸ h.cfg, hk.inv.clock, hk.inv.reader, hl, hp,
    h.time.of_kept hk (by rw [hm]) (fun hst => ⟨hphase ▸ hst, hts⟩) hn, hparser,
    h.drive.of_same hcfg ha (fun hst => ⟨hphase ▸ hst, ht⟩) hd (enPrev_congr hs), hm ▸ h.motion⟩

/-! ## Unit CLK, the parser and the host port -/

/-- CNT, TICK, BYTE, RDT and RDS leave the control registers alone. -/
theorem Inv.of_sameControl {i : Instr} {s t : State} (h : Inv s) (he : exec i s = .next t) (hh : LoopHeld s t)
    (hc : t.call = s.call) (hd : t.driveCall = s.driveCall) (hr : t.rctl = s.rctl) (hparser : ParserInv t.parser) :
    Inv t :=
  h.of_loopHeld he hh (h.loop.congr hc hh.sctl hr) (h.port.congr hc hd hh.sctl hr) hparser

/-- What a step of the reader does to RCTL: RWAIT stays while the reader is busy, and is never set. -/
theorem readerStep_rwait {r : RState} (hne : r ≠ .idle) (s : State) :
    (rstate (readerStep r s) ≠ some .idle → rwait (readerStep r s) = rwait s) ∧
      (rwait s = false → rwait (readerStep r s) = false) := by
  cases r with
  | idle => exact absurd rfl hne
  | cmp =>
    by_cases heq : s.t1 = s.t2
    · rw [readerStep_cmp_of_eq heq]
      obtain ⟨hw, -, h⟩ | ⟨rs, -, h⟩ := finishAttempt_spec s
      · rw [h, rwait_setRState]
        exact ⟨fun _ => rfl, fun h => h⟩
      · rw [h]
        exact ⟨fun hb => absurd (by simp [rstate]) hb, fun _ => by simp [rwait]⟩
    · rw [readerStep_cmp_of_ne heq, rwait_setRState]
      exact ⟨fun _ => rfl, fun h => h⟩
  | _ => exact ⟨fun _ => rwait_setRState .., fun h => (rwait_setRState ..).trans h⟩

/-- A BLOCK_UNTIL in progress is not the loop's: the loop is in no call. -/
theorem LoopInv.call_of_rwait {s : State} (h : LoopInv s) (hr : rstate s ≠ some .idle) (hw : rwait s = true) :
    s.call = .idle := by
  unfold LoopInv at h
  cases hc : s.call <;> simp_all

theorem LoopInv.of_readerStep {r : RState} {s : State} (h : LoopInv s) (hr : rstate s = some r) (hne : r ≠ .idle) :
    LoopInv (readerStep r s) := by
  have hphase := (loopHeld_readerStep r s).phase
  obtain ⟨-, hw⟩ := readerStep_rwait hne s
  unfold LoopInv at h ⊢
  rw [readerStep_call, hphase]
  cases hc : s.call <;> simp_all

theorem PortInv.of_readerStep {r : RState} {s : State} (h : PortInv s) (hr : rstate s = some r) (hne : r ≠ .idle) :
    PortInv (readerStep r s) := by
  have hphase := (loopHeld_readerStep r s).phase
  obtain ⟨hw, -⟩ := readerStep_rwait hne s
  refine ⟨by rw [readerStep_driveCall, readerStep_call, hphase]; exact h.driveCall, fun hc hb => ?_⟩
  rw [readerStep_driveCall, hphase, hw hb]
  exact h.owner (readerStep_call r s ▸ hc) (by simpa [hr] using hne)

theorem Inv.of_readerStep {i : Instr} {r : RState} {s : State} (h : Inv s) (hr : rstate s = some r) (hne : r ≠ .idle)
    (he : exec i s = .next (readerStep r s)) : Inv (readerStep r s) :=
  h.of_loopHeld he (loopHeld_readerStep r s) (h.loop.of_readerStep hr hne) (h.port.of_readerStep hr hne)
    (by rw [readerStep_parser]; exact h.parser)

theorem Inv.of_now {s t : State} (h : Inv s) (he : execNow s = .next t) : Inv t := by
  obtain ⟨ho, rfl⟩ | ⟨r, hr, hne, -, rfl⟩ := execNow_next he
  · obtain ⟨-, hc, hp, hd⟩ := hostPortOpen_iff.mp ho
    exact h.of_loopHeld (i := .now) he (.refl s) (.of_idle hc hp)
      ⟨fun h' => absurd (hd.symm.trans h') (by decide), fun _ _ => .inr ⟨hd, hp⟩⟩ h.parser
  · exact h.of_readerStep (i := .now) hr hne he

theorem Inv.of_blockUntil {d : Word} {s t : State} (h : Inv s) (he : execBlockUntil d s = .next t) : Inv t := by
  obtain ⟨ho, hp, rfl⟩ | ⟨r, hr, hne, -, -, rfl⟩ := execBlockUntil_next he
  · obtain ⟨p, hp⟩ := Option.ne_none_iff_exists'.mp hp
    have hw : rwait (setRCtl true .t1 { s with deadline := d }) = true := rwait_setRCtl ..
    obtain ho | ho := ho
    · obtain ⟨-, hc, hpw, hd⟩ := hostPortOpen_iff.mp ho
      exact h.of_loopHeld (i := .blockUntil d) he (.refl s) (.of_idle hc hp)
        ⟨fun h' => absurd (hd.symm.trans h') (by decide), fun _ _ => .inr ⟨hd, hpw⟩⟩ h.parser
    · obtain ⟨-, hc, hd⟩ := driveCallOpen_iff.mp ho
      exact h.of_loopHeld (i := .blockUntil d) he (.refl s) (.of_idle hc hp)
        ⟨h.port.driveCall, fun _ _ => .inl ⟨hd, hw⟩⟩ h.parser
  · exact h.of_readerStep (i := .blockUntil d) hr hne he

/-- The loop issues a NOW and waits for it as `c`. -/
theorem Inv.of_issueNow {i : Instr} {c : LoopCall} {s : State} (h : Inv s) (he : exec i s = .next (issueNow c s))
    (hc : c ≠ .idle) (hl : LoopInv (issueNow c s)) : Inv (issueNow c s) :=
  h.of_loopHeld he (.refl s) hl (.of_noDriveCall rfl fun hi => absurd hi hc) h.parser

/-! ## Unit SEQ -/

/-- The invariant again behind a step of the loop, which leaves the reader idle: the clock's part is kept by every
operation. -/
theorem Inv.of_exec {i : Instr} {s t : State} (h : Inv s) (he : exec i s = .next t) (hl : LoopInv t) (hp : PortInv t)
    (ht : ClkKept s t → TimeInv t) (hparser : ParserInv t.parser) (hd : DriveInv t) (hm : MotionInv t.motion) :
    Inv t := by
  have hk := h.clkInv.kept_of_exec he
  exact ⟨(exec_clockAdvances h.clock he).cfg ▸ h.cfg, hk.inv.clock, hk.inv.reader, hl, hp, ht hk, hparser, hd, hm⟩

theorem phase_ne {s : State} {p q : Phase} (hp : phase s = some p) (hne : p ≠ q) : phase s ≠ some q :=
  fun hq => hne (Option.some.inj (hp.symm.trans hq))

/-- A call of the loop that is none of a NOW's at P_WAIT or P_EVAL is none at all: a command is handled at P_POLL. -/
theorem LoopInv.call_idle {s : State} {p : Phase} (h : LoopInv s) (hp : phase s = some p) (hne : p ≠ .poll)
    (hc : s.call.awaitsNow = false) : s.call = .idle := by
  unfold LoopInv at h
  cases hs : s.call with
  | handle c => rw [hs] at h; exact absurd h.1 (phase_ne hp hne)
  | idle => rfl
  | _ => rw [hs] at hc; cases hc

theorem schedTest_due {s : State} (h : s.nextRun ≤ s.nowval) :
    schedTest s = setPhase .poll { s with nextRun := s.nowval + Config.loopPeriod } := if_pos h

theorem schedTest_early {s : State} (h : ¬ s.nextRun ≤ s.nowval) : schedTest s = s := if_neg h

/-- SCHED's due test fails or starts an iteration, its NOW complete; or SCHED issues its NOW (R130). -/
theorem execSched_cases {s t : State} (h : execSched s = .next t) :
    phase s = some .wait ∧ rstate s = some .idle ∧
      ((s.call = .schedNow ∧ t = { s with call := .idle }) ∨
        (s.call = .schedNow ∧ s.nextRun ≤ s.nowval ∧
          t = setPhase .poll { s with call := .idle, nextRun := s.nowval + Config.loopPeriod }) ∨
        (s.call.awaitsNow = false ∧ t = issueNow .schedNow s)) := by
  obtain ⟨hp, hr, ⟨hc, ht⟩ | h⟩ := execSched_next h
  · by_cases hdue : s.nextRun ≤ s.nowval
    · exact ⟨hp, hr, .inr (.inl ⟨hc, hdue, ht.trans (schedTest_due hdue)⟩)⟩
    · exact ⟨hp, hr, .inl ⟨hc, ht.trans (schedTest_early hdue)⟩⟩
  · exact ⟨hp, hr, .inr (.inr h)⟩

/-- With its NOW complete, NEXT_RUN is at most one period after NOWVAL, whether the iteration starts or not. -/
theorem Inv.of_sched {s t : State} (h : Inv s) (he : execSched s = .next t) : Inv t := by
  obtain ⟨hp, hr, ⟨hc, rfl⟩ | ⟨hc, -, rfl⟩ | ⟨-, rfl⟩⟩ := execSched_cases he
  · exact h.of_exec (i := .sched) he (.of_idle rfl hp)
      (.of_noDriveCall (h.port.noDriveCall (by simp [hc])) fun _ => hr)
      (fun hk => h.time.of_kept hk rfl (fun hst => ⟨hst, rfl⟩) rfl) h.parser
      (h.drive.of_same rfl rfl (fun hst => ⟨hst, rfl⟩) rfl rfl) h.motion
  · have hp' := phase_setPhase .poll { s with call := .idle, nextRun := s.nowval + Config.loopPeriod }
    exact h.of_exec (i := .sched) he (.of_idle rfl hp')
      (.of_noDriveCall (h.port.noDriveCall (by simp [hc])) fun _ => hr)
      (fun _ => ⟨h.time.nowval_le, h.time.t0_le, fun hst => absurd hst (phase_ne hp' (by decide)),
        h.clkInv.nowval_add_loopPeriod.le⟩)
      h.parser (h.drive.of_same rfl rfl (fun hst => absurd hst (phase_ne hp' (by decide))) rfl (enPrev_setPhase ..))
      h.motion
  · exact h.of_issueNow (i := .sched) he (by decide)
      ⟨hp, (rwait_issueNow ..).trans (h.reader.rwait_idle hr)⟩

/-- What POLL's `poll()` leaves alone: everything but the slot and the deduplicator. -/
theorem afterPoll_frame (s : State) :
    ∃ r p c, afterPoll s = { s with slot := r, dprev := p, dcur := c } := by
  rw [afterPoll_eq]
  split
  · exact ⟨_, _, _, rfl⟩
  · exact ⟨_, _, _, rfl⟩

theorem Inv.of_poll {s t : State} (h : Inv s) (he : execPoll s = .next t) : Inv t := by
  obtain ⟨hp, hr, hc, ht⟩ := execPoll_next he
  obtain ⟨r, p, c, hpoll⟩ := afterPoll_frame s
  rw [hpoll] at ht
  obtain ⟨cmd, -, rfl⟩ | ⟨-, rfl⟩ := ht
  · exact h.of_exec (i := .poll) he ⟨hp, hr⟩ (.of_noDriveCall rfl fun hi => nomatch hi)
      (fun hk => h.time.of_kept hk rfl (fun hst => ⟨hst, rfl⟩) rfl) h.parser
      (h.drive.of_same rfl rfl (fun hst => ⟨hst, rfl⟩) rfl rfl) h.motion
  · have hp' := phase_endPoll (endDriveCall { s with slot := r, dprev := p, dcur := c })
    exact h.of_exec (i := .poll) he (.of_idle rfl hp') (.of_noDriveCall rfl fun _ => hr)
      (fun hk => h.time.of_kept hk rfl (fun hst => absurd hst (phase_ne hp' (by decide))) rfl) h.parser
      (h.drive.of_same rfl rfl (fun hst => absurd hst (phase_ne hp' (by decide))) rfl (enPrev_endPoll ..)) h.motion

/-- EDGE's command keeps the ENABLEs ahead of the DISABLEs by `enabled`, which EN_PREV becomes (R132). -/
theorem DriveInv.of_edgeCommand {s : State} {d : Drive} (h : DriveInv s) (hd : edgeCommand s = some d) :
    DriveInv (endEdge (emit d s)) := by
  have hp := phase_endEdge (emit d s)
  have hpower := h.power
  have hsteps := h.steps
  obtain ⟨hen, hprev, rfl⟩ | ⟨hen, hprev, rfl⟩ := edgeCommand_eq_some.mp hd
  · refine ⟨h.admitted, fun hst => absurd hst (phase_ne hp (by decide)), by simpa using hsteps, ?_⟩
    simp [hen, hpower, hprev]
  · refine ⟨h.admitted, fun hst => absurd hst (phase_ne hp (by decide)), by simpa using hsteps, ?_⟩
    simp [hen, hpower, hprev]

theorem Inv.of_edge {s t : State} (h : Inv s) (he : execEdge s = .next t) : Inv t := by
  obtain ⟨hp, hr, hc, ⟨d, hd, rfl⟩ | ⟨heq, rfl⟩⟩ := execEdge_next he
  · have hp' := phase_endEdge (emit d s)
    exact h.of_exec (i := .edge) he (.of_idle hc hp') (.of_driveCall hr hc (.inl hp'))
      (fun hk => h.time.of_kept hk rfl (fun hst => absurd hst (phase_ne hp' (by decide))) rfl) h.parser
      (h.drive.of_edgeCommand hd) h.motion
  · have hp' := phase_endEdge (endDriveCall s)
    exact h.of_exec (i := .edge) he (.of_idle hc hp') (.of_noDriveCall rfl fun _ => hr)
      (fun hk => h.time.of_kept hk rfl (fun hst => absurd hst (phase_ne hp' (by decide))) rfl) h.parser
      (h.drive.of_same rfl rfl (fun hst => absurd hst (phase_ne hp' (by decide))) rfl ((enPrev_endEdge _).trans heq))
      h.motion

theorem isZero_zero : F64.isZero F64.zero = true := by decide

/-- A MotionState that may stand with NOWVAL at `now`: its segment has started, at rest where R38 says so. -/
structure MotionAt (now : Word) (m : Motion) : Prop where
  t0_le : m.t0.toNat ≤ now.toNat
  rest : MotionInv m

/-- The evaluation at NOWVAL keeps R38: it writes only the completed stop, which is at rest (R177). -/
theorem MotionAt.evaluate {now : Word} {m : Motion} {e : Evaluation} (h : MotionAt now m)
    (he : Machine.evaluate binary64 m now = .ok e) : MotionAt now e.motion := by
  obtain hm | ⟨-, hm⟩ := evaluate_motion he
  · rwa [hm]
  · rw [hm]
    exact ⟨le_rfl, fun _ _ => isZero_zero⟩

theorem Inv.motionAt {s : State} (h : Inv s) : MotionAt s.nowval s.motion := ⟨h.time.t0_le, h.motion⟩

theorem Inv.of_eval {s t : State} (h : Inv s) (he : execEval s = .next t) : Inv t := by
  obtain ⟨hp, hr, ⟨hc, n, m, hn, rfl⟩ | ⟨hc, rfl⟩⟩ := execEval_next he
  · obtain ⟨e, hev, -, hfits, rfl⟩ := targetSteps_ok hn
    obtain ⟨ht0, hrest⟩ := h.motionAt.evaluate hev
    have hp' := phase_setPhase .step
      { s with call := .idle, tsample := s.nowval, target := n, motion := e.motion }
    exact h.of_exec (i := .eval) he (.of_idle rfl hp')
      (.of_noDriveCall (h.port.noDriveCall (by simp [hc])) fun _ => hr)
      (fun _ => ⟨h.time.nowval_le, ht0, fun _ => le_rfl, h.time.nextRun_le⟩) h.parser
      ⟨h.drive.admitted, fun _ => hfits, h.drive.steps, by rw [enPrev_setPhase]; exact h.drive.power⟩ hrest
  · exact h.of_issueNow (i := .eval) he (by decide)
      ⟨hp, (rwait_issueNow ..).trans (h.reader.rwait_idle hr)⟩

/-- One step emitted is one count of ACTUAL_STEPS (R134). -/
theorem DriveInv.of_step {s : State} {d : Drive} {n : Int} (h : DriveInv s) (ha : stepsAdmitted s.cfg n = true)
    (hd : (d = .stepFwd ∧ n = s.actualSteps + 1) ∨ (d = .stepRev ∧ n = s.actualSteps - 1)) :
    DriveInv (endStep n (emit d s)) := by
  have hp := phase_endStep n (emit d s)
  have hsteps := h.steps
  have hpower := h.power
  refine ⟨ha, fun hst => absurd hst (phase_ne hp (by decide)), ?_, ?_⟩
  · obtain ⟨rfl, rfl⟩ | ⟨rfl, rfl⟩ := hd <;> simp [hsteps] <;> omega
  · obtain ⟨rfl, rfl⟩ | ⟨rfl, rfl⟩ := hd <;> simpa using hpower

theorem Inv.of_step {s t : State} (h : Inv s) (he : execStep s = .next t) : Inv t := by
  obtain ⟨hp, hr, hc, ht⟩ := execStep_next he
  have moved (d : Drive) (n : Int) (ha : stepsAdmitted s.cfg n = true)
      (hd : (d = .stepFwd ∧ n = s.actualSteps + 1) ∨ (d = .stepRev ∧ n = s.actualSteps - 1))
      (he : execStep s = .next (endStep n (emit d s))) : Inv (endStep n (emit d s)) := by
    have hp' := phase_endStep n (emit d s)
    exact h.of_exec (i := .step) he (.of_idle hc hp') (.of_driveCall hr hc (.inr hp'))
      (fun hk => h.time.of_kept hk rfl (fun hst => absurd hst (phase_ne hp' (by decide))) rfl) h.parser
      (h.drive.of_step ha hd) h.motion
  obtain ⟨-, ha, rfl⟩ | ⟨-, ha, rfl⟩ | ⟨-, rfl⟩ := ht
  · exact moved .stepFwd _ ha (.inl ⟨rfl, rfl⟩) he
  · exact moved .stepRev _ ha (.inr ⟨rfl, rfl⟩) he
  · have hp' := phase_endStep s.actualSteps (endDriveCall s)
    exact h.of_exec (i := .step) he (.of_idle hc hp') (.of_noDriveCall rfl fun _ => hr)
      (fun hk => h.time.of_kept hk rfl (fun hst => absurd hst (phase_ne hp' (by decide))) rfl) h.parser
      (h.drive.of_same rfl rfl (fun hst => absurd hst (phase_ne hp' (by decide))) rfl (enPrev_endStep ..)) h.motion

/-- An operation that runs by itself keeps the invariant. -/
theorem Inv.of_runsAlone {i : Instr} {s t : State} (h : Inv s) (hi : runsAlone i = true) (he : exec i s = .next t) :
    Inv t := by
  cases i with
  | cnt =>
    obtain ⟨-, rfl⟩ := execCnt_next he
    exact h.of_sameControl he (.refl s) rfl rfl rfl h.parser
  | tick =>
    obtain ⟨-, -, rfl⟩ := execTick_next he
    exact h.of_sameControl he (.refl s) rfl rfl rfl h.parser
  | byte c =>
    cases execByte_next he
    exact h.of_sameControl he (.refl s) rfl rfl rfl (parserInv_consumeByte h.parser)
  | rdt =>
    obtain ⟨-, rfl⟩ := execRdt_next he
    exact h.of_sameControl he (.refl s) rfl rfl rfl h.parser
  | rds =>
    obtain ⟨-, rfl⟩ := execRds_next he
    exact h.of_sameControl he (.refl s) rfl rfl rfl h.parser
  | now => exact h.of_now he
  | blockUntil d => exact h.of_blockUntil he
  | sched => exact h.of_sched he
  | poll => exact h.of_poll he
  | edge => exact h.of_edge he
  | eval => exact h.of_eval he
  | step => exact h.of_step he
  | _ => cases hi

/-! ## The handling of a command -/

/-- While a command is handled the loop is at P_POLL and no drive call runs. -/
theorem Handling.call_ne_idle {c : Command} {s : State} (h : Handling c s) : s.call ≠ .idle := by
  obtain hc | hc := h.call <;> simp [hc]

theorem Handling.phase {c : Command} {s : State} (h : Handling c s) (hl : LoopInv s) : phase s = some .poll := by
  unfold LoopInv at hl
  obtain hc | hc := h.call <;> rw [hc] at hl <;> exact hl.1

/-- POLL ends (R131). -/
theorem Inv.of_endPoll {c : Command} {s : State} (h : Inv s) (hh : Handling c s) : Inv (endPoll s) := by
  have hk := h.clkInv.kept_of_same (sameUnitClk_endPoll s)
  have hp' := phase_endPoll s
  exact ⟨h.cfg, hk.inv.clock, hk.inv.reader, .of_idle rfl hp',
    .of_noDriveCall (h.port.noDriveCall hh.call_ne_idle) fun _ => hh.idle,
    h.time.of_kept hk rfl (fun hst => absurd hst (phase_ne hp' (by decide))) rfl, h.parser,
    h.drive.of_same rfl rfl (fun hst => absurd hst (phase_ne hp' (by decide))) rfl (enPrev_endPoll s), h.motion⟩

/-- A command writes MotionState. -/
theorem Inv.with_motion {s : State} {m : Motion} (h : Inv s) (hm : MotionAt s.nowval m) : Inv { s with motion := m } := by
  have hk := h.clkInv.kept_of_same (t := { s with motion := m }) (.refl s)
  exact ⟨h.cfg, hk.inv.clock, hk.inv.reader, h.loop, ⟨h.port.driveCall, h.port.owner⟩,
    ⟨h.time.nowval_le, hm.t0_le, h.time.tsample_le, h.time.nextRun_le⟩, h.parser,
    ⟨h.drive.admitted, h.drive.targetFits, h.drive.steps, h.drive.power⟩, hm.rest⟩

/-- A handled command issues its NOW, or writes MotionState, its call then ended or as it was. -/
theorem exec_handled_cases {c : Command} {i : Instr} {s u : State} (h : Inv s) (hc : instrOfCommand c = some i)
    (he : exec i s = .next u) :
    (∃ d, u = issueNow (.handleNow d) s) ∨
      (∃ m k, MotionAt s.nowval m ∧ (k = .idle ∨ k = s.call) ∧ u = { s with motion := m, call := k }) := by
  obtain ⟨ht0, hrest⟩ := h.motionAt
  obtain rfl | rfl | rfl | rfl | rfl | rfl := instrOfCommand_some hc
  · cases he
    exact .inr ⟨{ s.motion with enabled := truthValue c.value }, s.call, ⟨ht0, hrest⟩, .inr rfl, rfl⟩
  · cases he
    exact .inr ⟨{ s.motion with maxVelocity := c.value }, s.call, ⟨ht0, hrest⟩, .inr rfl, rfl⟩
  · cases he
    exact .inr ⟨{ s.motion with maxAcceleration := c.value }, s.call, ⟨ht0, hrest⟩, .inr rfl, rfl⟩
  · obtain ⟨n, -, rfl⟩ := execSr_next he
    exact .inr ⟨{ s.motion with stepsPerRev := n }, s.call, ⟨ht0, hrest⟩, .inr rfl, rfl⟩
  · obtain ⟨-, ⟨-, m, hm, rfl⟩ | ⟨-, rfl⟩⟩ := execTp_next he
    · obtain ⟨e, -, rfl⟩ := capture_ok hm
      exact .inr ⟨_, .idle, ⟨le_rfl, fun _ hs => by cases hs⟩, .inl rfl, rfl⟩
    · exact .inl ⟨_, rfl⟩
  · obtain ⟨-, ⟨-, m, hm, rfl⟩ | ⟨-, rfl⟩⟩ := execTv_next he
    · obtain ⟨e, -, rfl⟩ := capture_ok hm
      exact .inr ⟨_, .idle, ⟨le_rfl, fun hm => by cases hm⟩, .inl rfl, rfl⟩
    · exact .inl ⟨_, rfl⟩

/-- What the handling of a command leaves: its NOW issued; or MotionState written and POLL ended; or, where the call is
already behind the NOW of another command, MotionState written only. -/
theorem handled_move_cases {c : Command} {i : Instr} {s t u : State} (h : Inv s) (hc : instrOfCommand c = some i)
    (he : exec i s = .next u) (ht : t = if u.call.awaitsNow then u else endPoll u) :
    (∃ d, exec i s = .next t ∧ t = issueNow (.handleNow d) s) ∨
      (∃ m, MotionAt s.nowval m ∧ (t = endPoll { s with motion := m } ∨ t = { s with motion := m })) := by
  obtain ⟨d, rfl⟩ | ⟨m, k, hm, hk, rfl⟩ := exec_handled_cases h hc he
  · obtain rfl : t = issueNow (.handleNow d) s := ht
    exact .inl ⟨d, he, rfl⟩
  · refine .inr ⟨m, hm, ?_⟩
    split at ht
    · rename_i hw
      obtain rfl | rfl := hk
      · cases hw
      · exact .inr ht
    · exact .inl ht

/-- The handling of a command keeps the invariant. -/
theorem Inv.of_handle {c : Command} {i : Instr} {s t u : State} (h : Inv s) (hh : Handling c s)
    (hc : instrOfCommand c = some i) (he : exec i s = .next u) (ht : t = if u.call.awaitsNow then u else endPoll u) :
    Inv t := by
  obtain ⟨d, he, rfl⟩ | ⟨m, hm, rfl | rfl⟩ := handled_move_cases h hc he ht
  · exact h.of_issueNow he (fun hi => nomatch hi)
      ⟨hh.phase h.loop, (rwait_issueNow ..).trans (h.reader.rwait_idle hh.idle)⟩
  · exact (h.with_motion hm).of_endPoll ⟨hh.call, hh.idle⟩
  · exact h.with_motion hm

/-! ## Every step -/

theorem Inv.of_move {s t : State} (h : Inv s) (hm : Move s t) : Inv t := by
  cases hm with
  | op hi he => exact h.of_runsAlone hi he
  | handle hh hc he ht => exact h.of_handle hh hc he ht
  | unknown hh ht => exact ht ▸ h.of_endPoll hh

/-- The turn does not matter to the invariant, nor that a drive call has returned. -/
theorem Inv.atTurn {sch : List Turn} {dc : Bool} {s : State} (h : Inv s) (hd : TurnMark dc s) :
    Inv (Machine.atTurn sch dc s) := by
  have hk := h.clkInv.kept_of_same (t := Machine.atTurn sch dc s) (.refl s)
  have hport : PortInv (Machine.atTurn sch dc s) := by
    obtain rfl | ⟨rfl, hr⟩ := hd
    · exact h.port.congr rfl rfl rfl rfl
    · exact .of_noDriveCall rfl fun _ => hr
  exact ⟨h.cfg, hk.inv.clock, hk.inv.reader, h.loop.congr rfl rfl rfl, hport,
    h.time.of_kept hk rfl (fun hst => ⟨hst, rfl⟩) rfl, h.parser,
    h.drive.of_same rfl rfl (fun hst => ⟨hst, rfl⟩) rfl rfl, h.motion⟩

/-- Settles O11: a step is a move in the state its turn is taken in, and every move keeps the invariant. -/
theorem stepKeepsInvariant : Obligations.StepKeepsInvariant := by
  unfold Obligations.StepKeepsInvariant
  intro s t h hst
  obtain ⟨sch, dc, hd, hm⟩ := step_move h.loop hst
  exact (h.atTurn hd).of_move hm

theorem Inv.of_steps {s t : State} (h : Inv s) (hst : Steps s t) : Inv t := by
  induction hst with
  | refl s => exact h
  | next s t u hst _ ih => exact ih (stepKeepsInvariant s t h hst)

/-- Settles O10: the clock and the times are 0, the reader is idle, and nothing has been received or emitted. -/
theorem resetMeetsInvariant : Obligations.ResetMeetsInvariant := by
  unfold Obligations.ResetMeetsInvariant
  intro c hc
  obtain ⟨hmod, hw⟩ := hc
  have hsub : (State.resetOf c).sub < c.subMod := by
    rw [resetOf_sub]
    exact subAt_lt hmod
  have hpow : (2 : Int) ≤ 2 ^ (c.stepW - 1) :=
    le_self_pow₀ (by norm_num) (by omega)
  refine ⟨⟨hmod, hw⟩, ⟨Nat.zero_le _, hsub⟩, .of_idle (rstate_resetOf c) (rwait_resetOf c),
    .of_idle rfl (phase_resetOf c), .of_noDriveCall rfl fun _ => rstate_resetOf c,
    ⟨Nat.zero_le _, le_rfl, fun _ => le_rfl, Nat.zero_le _⟩, ⟨Nat.zero_le _, rfl, fun _ => rfl⟩, ?_,
    fun _ _ => isZero_zero⟩
  have hprev := enPrev_resetOf c
  refine ⟨?_, fun hst => absurd hst (phase_ne (phase_resetOf c) (by decide)), rfl, ?_⟩
  · show stepsAdmitted c 0 = true
    simp only [stepsAdmitted, decide_eq_true_eq]
    omega
  · rw [hprev]; rfl

end Sys2Proof.Machine
end

