-- ==== Sys2Proof/Proofs/Writers.lean ====
section
/-! Who writes what (R20, R71 d, R208), and the register space (R61). -/

namespace Sys2Proof.Machine

/-- A published command sets READY, so the slot changes only where it is ready then (R163). -/
theorem publish_ne {r : ReadySlot} {o : Option Command} (h : publish r o ≠ r) : (publish r o).ready = true := by
  cases o with
  | none => exact absurd rfl h
  | some c => rfl

/-- Settles O13: the next state of each operation, written out by its inversion lemma, changes the registers named. -/
theorem eachRegisterHasItsWriters : Obligations.EachRegisterHasItsWriters := by
  unfold Obligations.EachRegisterHasItsWriters
  intro i s t h
  cases i with
  | en v => cases h; simp
  | mv v => cases h; simp
  | ma v => cases h; simp
  | sr v => obtain ⟨n, -, rfl⟩ := execSr_next h; simp
  | tp v => obtain ⟨-, ⟨-, m, -, rfl⟩ | ⟨-, rfl⟩⟩ := execTp_next h <;> simp
  | tv v => obtain ⟨-, ⟨-, m, -, rfl⟩ | ⟨-, rfl⟩⟩ := execTv_next h <;> simp
  | now =>
    obtain ⟨-, rfl⟩ | ⟨r, hr, -, -, rfl⟩ := execNow_next h
    · simp
    · obtain ⟨_, _, _, _, _, _, ht, hw⟩ := readerStep_frame r s
      simpa [ht, hr] using hw
  | blockUntil d =>
    obtain ⟨ho, -, rfl⟩ | ⟨r, hr, -, -, -, rfl⟩ := execBlockUntil_next h
    · have hidle : rstate s = some .idle := 
        ho.elim (fun ho => (hostPortOpen_iff.mp ho).1) fun ho => (driveCallOpen_iff.mp ho).1
      simp [hidle]
    · obtain ⟨_, _, _, _, _, _, ht, hw⟩ := readerStep_frame r s
      simpa [ht, hr] using hw
  | rdt => obtain ⟨-, rfl⟩ := execRdt_next h; simp
  | rds => obtain ⟨-, rfl⟩ := execRds_next h; simp
  | enable => obtain ⟨-, -, -, -, -, rfl⟩ := execEnable_next h; simp
  | disable => obtain ⟨-, -, -, -, -, rfl⟩ := execDisable_next h; simp
  | stepFwd => obtain ⟨-, -, -, -, -, rfl⟩ := execStepFwd_next h; simp
  | stepRev => obtain ⟨-, -, -, -, -, rfl⟩ := execStepRev_next h; simp
  | cnt => obtain ⟨-, rfl⟩ := execCnt_next h; simp
  | tick => obtain ⟨-, -, rfl⟩ := execTick_next h; simp
  | byte c => cases execByte_next h; simpa using publish_ne
  | sched =>
    obtain ⟨-, -, ⟨-, rfl⟩ | ⟨-, rfl⟩⟩ := execSched_next h
    · unfold schedTest
      split <;> simp
    · simp
  | poll =>
    obtain ⟨-, -, -, ⟨c, -, rfl⟩ | ⟨-, rfl⟩⟩ := execPoll_next h <;> rw [afterPoll_eq] <;> split <;> simp [*]
  | edge => obtain ⟨-, -, -, ⟨d, -, rfl⟩ | ⟨-, rfl⟩⟩ := execEdge_next h <;> simp
  | eval => obtain ⟨-, -, ⟨-, n, m, -, rfl⟩ | ⟨-, rfl⟩⟩ := execEval_next h <;> simp
  | step => obtain ⟨-, -, -, ⟨-, -, rfl⟩ | ⟨-, -, rfl⟩ | ⟨-, rfl⟩⟩ := execStep_next h <;> simp

/-- Settles O12: each offset selects its register, and the rest is refused. -/
theorem registerSpaceReadsWholeRegisters : Obligations.RegisterSpaceReadsWholeRegisters := by
  unfold Obligations.RegisterSpaceReadsWholeRegisters
  intro s
  refine ⟨rfl, rfl, rfl, rfl, rfl, rfl, rfl, rfl, memRead_loopPeriod s, rfl, rfl, rfl, rfl, rfl,
    fun _ _ => memRead_refused, memWrite_refused s⟩

end Sys2Proof.Machine
end

