-- ==== Sys2Proof/Proofs/LoopSafety.lean ====
section
/-! Unit SEQ over any step and any run (R28, R29, R65, R106 f, R139, R140): the loop held by a BLOCK_UNTIL, NEXT_RUN and
ACTUAL_STEPS with their one writer, the order of the phases, the drive stream, and the step-rate cap. -/

namespace Sys2Proof.Machine

/-! ## Operations that hold the loop -/

/-- The events of unit SEQ. -/
def isLoopEvent (i : Instr) : Prop := i = .sched ∨ i = .poll ∨ i = .edge ∨ i = .eval ∨ i = .step

/-- An operation that runs by itself holds the loop, the slot READY if it was, or is an event of the loop. -/
theorem runsAlone_loopHeld {i : Instr} {s t : State} (hi : runsAlone i = true) (h : exec i s = .next t) :
    (LoopHeld s t ∧ (s.slot.ready = true → t.slot.ready = true)) ∨ isLoopEvent i := by
  cases i with
  | cnt => obtain ⟨-, rfl⟩ := execCnt_next h; exact .inl ⟨.refl s, id⟩
  | tick => obtain ⟨-, -, rfl⟩ := execTick_next h; exact .inl ⟨.refl s, id⟩
  | byte c =>
    cases execByte_next h
    refine .inl ⟨.refl s, fun hready => ?_⟩
    by_cases hslot : publish s.slot (consumeByte c s.parser).2 = s.slot
    · rwa [hslot]
    · exact publish_ne hslot
  | rdt => obtain ⟨-, rfl⟩ := execRdt_next h; exact .inl ⟨.refl s, id⟩
  | rds => obtain ⟨-, rfl⟩ := execRds_next h; exact .inl ⟨.refl s, id⟩
  | now =>
    obtain ⟨-, rfl⟩ | ⟨r, -, -, -, rfl⟩ := execNow_next h
    · exact .inl ⟨.refl s, id⟩
    · obtain ⟨_, _, _, _, _, _, ht, -⟩ := readerStep_frame r s
      exact .inl (ht ▸ ⟨.refl s, id⟩)
  | blockUntil d =>
    obtain ⟨-, -, rfl⟩ | ⟨r, -, -, -, -, rfl⟩ := execBlockUntil_next h
    · exact .inl ⟨.refl s, id⟩
    · obtain ⟨_, _, _, _, _, _, ht, -⟩ := readerStep_frame r s
      exact .inl (ht ▸ ⟨.refl s, id⟩)
  | sched => exact .inr (.inl rfl)
  | poll => exact .inr (.inr (.inl rfl))
  | edge => exact .inr (.inr (.inr (.inl rfl)))
  | eval => exact .inr (.inr (.inr (.inr (.inl rfl))))
  | step => exact .inr (.inr (.inr (.inr (.inr rfl))))
  | _ => cases hi

/-- The loop's events are taken with the reader idle. -/
theorem loopEvent_idle {i : Instr} {s t : State} (hi : isLoopEvent i) (h : exec i s = .next t) :
    rstate s = some .idle := by
  obtain rfl | rfl | rfl | rfl | rfl := hi
  · obtain ⟨-, hr, -⟩ := execSched_next h; exact hr
  · obtain ⟨-, hr, -⟩ := execPoll_next h; exact hr
  · obtain ⟨-, hr, -⟩ := execEdge_next h; exact hr
  · obtain ⟨-, hr, -⟩ := execEval_next h; exact hr
  · obtain ⟨-, hr, -⟩ := execStep_next h; exact hr

/-- While the reader is busy every move holds the loop. -/
theorem Move.loopHeld_of_busy {s t : State} (h : Move s t) (hr : rstate s ≠ some .idle) :
    LoopHeld s t ∧ (s.slot.ready = true → t.slot.ready = true) := by
  cases h with
  | op hi he => exact (runsAlone_loopHeld hi he).resolve_right fun hl => hr (loopEvent_idle hl he)
  | handle hh => exact absurd hh.idle hr
  | unknown hh => exact absurd hh.idle hr

/-- Settles O28: with RWAIT set the reader is busy, and then every step holds the loop. -/
theorem blockUntilHoldsTheLoop : Obligations.BlockUntilHoldsTheLoop := by
  unfold Obligations.BlockUntilHoldsTheLoop
  intro s t h hw hst
  have hbusy : rstate s ≠ some .idle := fun hr => by simp [h.reader.rwait_idle hr] at hw
  obtain ⟨sch, dc, -, hm⟩ := step_move h.loop hst
  obtain ⟨⟨hseq, hs, hplan, hd⟩, hready⟩ := hm.loopHeld_of_busy hbusy
  exact ⟨hseq, hs, hplan, hd, hready⟩

/-! ## NEXT_RUN (R28) -/

/-- Settles O32: only SCHED writes NEXT_RUN, where it starts an iteration. -/
theorem nextRunWrittenOnlyBySched : Obligations.NextRunWrittenOnlyBySched := by
  unfold Obligations.NextRunWrittenOnlyBySched
  refine ⟨fun c => rfl, fun i s t h hne => ?_, fun s t h hne => ?_⟩
  · have hi : i = .sched := by
      by_contra hi
      exact hne (exec_noStart h hi).nextRun
    obtain hno | hstart := exec_noStart_or_start h
    · exact absurd hno.nextRun hne
    · exact ⟨hi, hstart.due, hstart.nextRun, hstart.phase_poll⟩
  · obtain hno | hstart := step_noStart_or_start h
    · exact absurd hno.nextRun hne
    · exact ⟨h, hstart.phase_wait, hstart.phase_poll⟩

/-! ## ACTUAL_STEPS (R29) -/

/-- Settles O38: STEP is the one writer, its change the step it emits; along a run the invariant has the count. -/
theorem actualStepsCountsEmittedSteps : Obligations.ActualStepsCountsEmittedSteps := by
  unfold Obligations.ActualStepsCountsEmittedSteps
  refine ⟨fun c => rfl, fun i s t h hne => ?_, fun s t hinv hrun => ?_⟩
  · obtain ⟨-, -, -, -, -, -, -, -, -, -, -, hsteps, -⟩ := eachRegisterHasItsWriters i s t h
    obtain rfl := hsteps hne
    obtain ⟨-, -, -, ⟨-, ha, rfl⟩ | ⟨-, ha, rfl⟩ | ⟨-, rfl⟩⟩ := execStep_next h
    · exact ⟨rfl, ha, .inl ⟨rfl, rfl⟩⟩
    · exact ⟨rfl, ha, .inr ⟨rfl, rfl⟩⟩
    · exact absurd rfl hne
  · have ht := hinv.of_steps hrun
    exact ⟨ht.drive.admitted, by rw [ht.drive.steps, hinv.drive.steps]⟩

/-! ## The progress of the loop (R139) -/

/-- What a move does to the loop: it holds it, starts an iteration, or ends a phase of the running iteration, of which
only STEP emits a physical step, and at most one. -/
inductive Progress (s t : State) : Prop where
  | hold : phase t = phase s → t.nextRun = s.nextRun → stepsEmitted t = stepsEmitted s → Progress s t
  | start : Start s t → stepsEmitted t = stepsEmitted s → Progress s t
  | pass {p : Phase} : p ≠ .wait → phase s = some p → phase t = some p.after → t.nextRun = s.nextRun →
      stepsEmitted t ≤ stepsEmitted s + (if p = .step then 1 else 0) → Progress s t

theorem LoopHeld.progress {s t : State} (h : LoopHeld s t) : Progress s t := by
  have hp := h.phase
  obtain ⟨⟨hn, -⟩, -, -, hd⟩ := h
  exact .hold hp hn (by rw [stepsEmitted, stepsEmitted, hd])

theorem stepsEmitted_emit (d : Drive) (s : State) : stepsEmitted (emit d s) ≤ stepsEmitted s + 1 := by
  cases d <;> simp [stepsEmitted] <;> omega

/-- EDGE's command is no physical step. -/
theorem stepsEmitted_emit_of_edgeCommand {d : Drive} {s : State} (h : edgeCommand s = some d) :
    stepsEmitted (emit d s) = stepsEmitted s := by
  obtain ⟨-, -, rfl⟩ | ⟨-, -, rfl⟩ := edgeCommand_eq_some.mp h <;> simp [stepsEmitted]

theorem execPoll_progress {s t : State} (h : execPoll s = .next t) : Progress s t := by
  obtain ⟨hp, -, -, ht⟩ := execPoll_next h
  obtain ⟨_, _, _, hf⟩ := afterPoll_frame s
  rw [hf] at ht
  obtain ⟨c, -, rfl⟩ | ⟨-, rfl⟩ := ht
  · exact .hold rfl rfl rfl
  · exact .pass (by decide) hp (phase_endPoll _) rfl le_rfl

theorem loopEvent_progress {i : Instr} {s t : State} (hi : isLoopEvent i) (h : exec i s = .next t) : Progress s t := by
  obtain rfl | rfl | rfl | rfl | rfl := hi
  · obtain ⟨hp, -, ⟨-, rfl⟩ | ⟨hc, hdue, rfl⟩ | ⟨-, rfl⟩⟩ := execSched_cases h
    · exact .hold rfl rfl rfl
    · exact .start ⟨hc, hdue, rfl, rfl, hp, phase_setPhase ..⟩ rfl
    · exact .hold (phase_issueNow ..) rfl rfl
  · exact execPoll_progress h
  · obtain ⟨hp, -, -, ⟨d, hd, rfl⟩ | ⟨-, rfl⟩⟩ := execEdge_next h
    · exact .pass (by decide) hp (phase_endEdge _) rfl (stepsEmitted_emit_of_edgeCommand hd).le
    · exact .pass (by decide) hp (phase_endEdge _) rfl le_rfl
  · obtain ⟨hp, -, ⟨-, n, m, -, rfl⟩ | ⟨-, rfl⟩⟩ := execEval_next h
    · exact .pass (by decide) hp (phase_setPhase ..) rfl le_rfl
    · exact .hold (phase_issueNow ..) rfl rfl
  · obtain ⟨hp, -, -, ⟨-, -, rfl⟩ | ⟨-, -, rfl⟩ | ⟨-, rfl⟩⟩ := execStep_next h
    · exact .pass (by decide) hp (phase_endStep ..) rfl (stepsEmitted_emit .stepFwd s)
    · exact .pass (by decide) hp (phase_endStep ..) rfl (stepsEmitted_emit .stepRev s)
    · exact .pass (by decide) hp (phase_endStep ..) rfl (Nat.le_succ _)

theorem Move.progress {s t : State} (h : Inv s) (hm : Move s t) : Progress s t := by
  cases hm with
  | op hi he =>
    obtain ⟨hh, -⟩ | hl := runsAlone_loopHeld hi he
    · exact hh.progress
    · exact loopEvent_progress hl he
  | handle hh hc he ht =>
    have hp := hh.phase h.loop
    obtain ⟨d, -, rfl⟩ | ⟨m, -, rfl | rfl⟩ := handled_move_cases h hc he ht
    · exact .hold (phase_issueNow ..) rfl rfl
    · exact .pass (by decide) hp (phase_endPoll _) rfl le_rfl
    · exact .hold rfl rfl rfl
  | unknown hh ht => exact ht ▸ .pass (by decide) (hh.phase h.loop) (phase_endPoll s) rfl le_rfl

theorem step_progress {s t : State} (h : Inv s) (hst : step s = .next t) : Progress s t := by
  obtain ⟨sch, dc, hd, hm⟩ := step_move h.loop hst
  cases hm.progress (h.atTurn hd) with
  | hold hp hn hs => exact .hold hp hn hs
  | start hstart hs =>
    obtain ⟨hc, hdue, hv, hn, hw, hp⟩ := hstart
    exact .start ⟨hc, hdue, hv, hn, hw, hp⟩ hs
  | pass hne hp hp' hn hs => exact .pass hne hp hp' hn hs

/-- Settles O42: a step that does not hold the loop starts an iteration or ends a phase. -/
theorem phasesFollowInOrder : Obligations.PhasesFollowInOrder := by
  unfold Obligations.PhasesFollowInOrder
  intro s t p h hst hp
  cases step_progress h hst with
  | hold hp' => exact .inl (hp'.trans hp)
  | start hstart =>
    obtain rfl := Option.some.inj (hp.symm.trans hstart.phase_wait)
    exact .inr hstart.phase_poll
  | pass _ hq hq' =>
    obtain rfl := Option.some.inj (hp.symm.trans hq)
    exact .inr hq'

/-! ## The step-rate cap (R140) -/

/-- The physical steps emitted, with the one that the running iteration may still emit. -/
def stepBudget (s : State) : Nat := stepsEmitted s + (if phase s = some .wait then 0 else 1)

/-- NEXT_RUN pays 100 µs for every iteration, and an iteration emits at most one step. -/
theorem stepBudget_paid {s t : State} (h : Inv s) (hst : step s = .next t) :
    100 * stepBudget t + s.nextRun.toNat ≤ 100 * stepBudget s + t.nextRun.toNat := by
  unfold stepBudget
  cases step_progress h hst with
  | hold hp hn hs => rw [hp, hn, hs]
  | start hstart hs =>
    have hle := hstart.nextRun_le_nowval
    have heq := hstart.nextRun_toNat h.clkInv
    rw [hs, hstart.phase_wait, hstart.phase_poll, if_pos rfl, if_neg (by decide)]
    omega
  | pass hne hp hp' hn hs =>
    rw [hn, hp, hp', if_neg fun hw => hne (Option.some.inj hw)]
    cases ‹Phase› with
    | wait => exact absurd rfl hne
    | step => simp only [if_pos, Phase.after] at hs ⊢; omega
    | _ => simp [Phase.after] at hs ⊢; omega

theorem stepBudget_paid_of_steps {s t : State} (h : Inv s) (hst : Steps s t) :
    100 * stepBudget t + s.nextRun.toNat ≤ 100 * stepBudget s + t.nextRun.toNat := by
  induction hst with
  | refl s => exact le_rfl
  | next s t u hst _ ih =>
    have h₁ := stepBudget_paid h hst
    have h₂ := ih (stepKeepsInvariant s t h hst)
    omega

/-- Settles O39: between two iterations the budget is what has been emitted, and NEXT_RUN is within a period of NOWVAL,
which is not later than the clock. -/
theorem stepRateIsCapped : Obligations.StepRateIsCapped := by
  unfold Obligations.StepRateIsCapped
  intro s t h hp hst
  have htime := (h.of_steps hst).time
  refine ⟨?_, htime.nextRun_le.trans (Nat.add_le_add_right htime.nowval_le 100)⟩
  have hpaid := stepBudget_paid_of_steps h hst
  have hs : stepBudget s = stepsEmitted s := by simp [stepBudget, hp]
  have ht : stepsEmitted t ≤ stepBudget t := Nat.le_add_right ..
  omega

/-! ## The drive stream (R65, R132 e) -/

/-- An operation appends at most one command to the drive stream. -/
def AppendsOne (s t : State) : Prop := ∃ l : List Drive, t.drives = s.drives ++ l ∧ l.length ≤ 1

theorem AppendsOne.of_eq {s t : State} (h : t.drives = s.drives) : AppendsOne s t := ⟨[], by simp [h], Nat.zero_le 1⟩

theorem AppendsOne.of_emit {s t : State} {d : Drive} (h : t.drives = (emit d s).drives) : AppendsOne s t :=
  ⟨[d], h, le_rfl⟩

theorem exec_appendsOne {i : Instr} {s t : State} (h : exec i s = .next t) : AppendsOne s t := by
  by_cases hd : t.drives = s.drives
  · exact .of_eq hd
  · obtain ⟨-, -, -, -, -, -, -, -, -, -, -, -, -, -, -, -, -, -, -, hw⟩ := eachRegisterHasItsWriters i s t h
    obtain rfl | rfl | rfl | rfl | rfl | rfl := hw hd
    · obtain ⟨-, -, -, ⟨d, -, rfl⟩ | ⟨-, rfl⟩⟩ := execEdge_next h
      · exact .of_emit (d := d) rfl
      · exact .of_eq rfl
    · obtain ⟨-, -, -, ⟨-, -, rfl⟩ | ⟨-, -, rfl⟩ | ⟨-, rfl⟩⟩ := execStep_next h
      · exact .of_emit (d := .stepFwd) rfl
      · exact .of_emit (d := .stepRev) rfl
      · exact .of_eq rfl
    · obtain ⟨-, -, -, -, -, rfl⟩ := execEnable_next h; exact .of_emit (d := .enable) rfl
    · obtain ⟨-, -, -, -, -, rfl⟩ := execDisable_next h; exact .of_emit (d := .disable) rfl
    · obtain ⟨-, -, -, -, -, rfl⟩ := execStepFwd_next h; exact .of_emit (d := .stepFwd) rfl
    · obtain ⟨-, -, -, -, -, rfl⟩ := execStepRev_next h; exact .of_emit (d := .stepRev) rfl

theorem mainStep_appendsOne {s t : State} (h : mainStep s = .next t) : AppendsOne s t := by
  obtain ⟨i, u, -, hu, rfl⟩ | ⟨-, rfl⟩ := mainStep_next h
  · have happ := exec_appendsOne hu
    split <;> exact happ
  · exact .of_eq rfl

theorem step_appendsOne {s t : State} (h : step s = .next t) : AppendsOne s t := by
  obtain ⟨sch, dc, h | ⟨i, h⟩⟩ := step_mainStep_or_exec h
  · exact mainStep_appendsOne (s := atTurn sch dc s) h
  · exact exec_appendsOne (s := atTurn sch dc s) h

/-- One more command keeps the alternation if the whole stream is balanced. -/
theorem PowerAlternates.append {ds l : List Drive} (h : PowerAlternates ds) (hl : l.length ≤ 1)
    (hall : (ds ++ l).count .disable ≤ (ds ++ l).count .enable ∧
      (ds ++ l).count .enable ≤ (ds ++ l).count .disable + 1) : PowerAlternates (ds ++ l) := by
  match l, hl with
  | [], _ => simpa using h
  | [d], _ =>
    intro p hp
    obtain rfl | hp := List.prefix_concat_iff.mp hp
    · exact hall
    · exact h p hp

/-- Settles O41: at most one command a step, and the whole stream is balanced by EN_PREV in the invariant. -/
theorem driveStreamGrowsAndPowerAlternates : Obligations.DriveStreamGrowsAndPowerAlternates := by
  unfold Obligations.DriveStreamGrowsAndPowerAlternates
  refine ⟨fun s t => step_appendsOne, fun c l hl => ?_, fun s t h halt hst => ?_⟩
  · obtain rfl : l = [] := List.prefix_nil.mp hl
    exact ⟨le_rfl, Nat.zero_le _⟩
  · obtain ⟨l, hl, hlen⟩ := step_appendsOne hst
    have hpower := (stepKeepsInvariant s t h hst).drive.power
    have hprev := Bool.toNat_le (enPrev t)
    rw [hl] at hpower ⊢
    exact halt.append hlen (by omega)

end Sys2Proof.Machine
end

