-- ==== Sys2Proof/Proofs/Encodings.lean ====
section
/-! The four encodings (R80 to R91): what is encoded decodes to itself, only the listed codes decode, where a line ends,
and the numeric literal. -/

namespace Sys2Proof.Machine

/-! ## Format WIRE -/

/-- A line ends at its first terminator; the number field keeps 31 characters (R81, R84, R91). -/
theorem decodeLine_append {l1 l2 t : Byte} {num : List Byte} (rest : List Byte) (h1 : isLetter l1 = true)
    (h2 : isLetter l2 = true) (hnum : num.all isNumChar = true) (ht : isTerm t = true) :
    decodeLine (l1 :: l2 :: chEq :: (num ++ t :: rest)) =
      .ok (⟨⟨l1, l2⟩, literal (num.take Config.numbufCap)⟩, rest) := by
  obtain ⟨htake, hdrop⟩ := numField rest hnum ht
  simp [decodeLine, decodeNumber, h1, h2, htake, hdrop, ht]

/-- Settles O5: the number field is what stands before the terminator. -/
theorem lineEndsAtItsTerminator : Obligations.LineEndsAtItsTerminator := by
  unfold Obligations.LineEndsAtItsTerminator
  exact fun l1 l2 t num rest h1 h2 hnum ht => decodeLine_append rest h1 h2 hnum ht

/-- The literal the encoder writes has at most 31 number characters and denotes the value. -/
theorem literalFor_spec {v : F64} {text : List Byte} (h : literalFor v = some text) :
    text.length ≤ Config.numbufCap ∧ text.all isNumChar = true ∧ literal text = v := by
  have hfound := List.find?_some h
  simp only [Bool.and_eq_true, decide_eq_true_eq, beq_iff_eq] at hfound
  obtain ⟨⟨hlen, hnum⟩, hval⟩ := hfound
  exact ⟨hlen, hnum, hval⟩

/-- A command whose value has a literal comes back from its line, with nothing left over. -/
theorem decodeLine_encodeCommand {c : Command} (h1 : isLetter c.code.l1 = true) (h2 : isLetter c.code.l2 = true)
    (hv : wireValue c.value = true) : decodeLine (encodeCommand c) = .ok (c, []) := by
  obtain ⟨text, htext⟩ := Option.isSome_iff_exists.mp hv
  obtain ⟨hlen, hnum, hval⟩ := literalFor_spec htext
  have hline := decodeLine_append [] h1 h2 hnum (t := chLF) (by decide)
  rw [List.take_of_length_le hlen, hval] at hline
  rw [encodeCommand, htext]
  exact hline

/-- The instruction of a command with the letters of `p` (R83). -/
theorem instrOfCommand_of_prefix {k : Code} {p : BitVec 24} (v : F64) (h : wirePrefix k.l1 k.l2 chEq = p) :
    instrOfCommand ⟨k, v⟩ = instrOfPrefix p v := by
  rw [instrOfCommand, h]

/-- A WIRE instruction is the one its command stands for. -/
theorem instrOfCommand_commandOf {i : Instr} {c : Command} (h : commandOf i = some c) : instrOfCommand c = some i := by
  cases i with
  | en v => cases h; exact instrOfCommand_of_prefix (p := 0x656E3D#24) v (by decide)
  | mv v => cases h; exact instrOfCommand_of_prefix (p := 0x6D763D#24) v (by decide)
  | ma v => cases h; exact instrOfCommand_of_prefix (p := 0x6D613D#24) v (by decide)
  | sr v => cases h; exact instrOfCommand_of_prefix (p := 0x73723D#24) v (by decide)
  | tp v => cases h; exact instrOfCommand_of_prefix (p := 0x74703D#24) v (by decide)
  | tv v => cases h; exact instrOfCommand_of_prefix (p := 0x74763D#24) v (by decide)
  | _ => cases h

/-- A WIRE instruction comes back from the line of its command. -/
theorem decode_encodeCommand {k : Code} {v : F64} {i : Instr} (h1 : isLetter k.l1 = true) (h2 : isLetter k.l2 = true)
    (hv : wireValue v = true) (hi : commandOf i = some ⟨k, v⟩) : decode (.wire (encodeCommand ⟨k, v⟩)) = .ok i := by
  simp [decode, decodeWire, decodeLine_encodeCommand (c := ⟨k, v⟩) h1 h2 hv, instrOfCommand_commandOf hi]

/-! ## The fixed-width formats -/

theorem hostWord_op (arg : Word) (op : BitVec 4) : (hostWord arg op).extractLsb' 0 4 = op := by
  apply BitVec.eq_of_toNat_eq
  rw [BitVec.extractLsb'_toNat, hostWord, append_toNat]
  have := op.isLt
  omega

theorem hostWord_arg (arg : Word) (op : BitVec 4) : (hostWord arg op).extractLsb' 4 64 = arg := by
  apply BitVec.eq_of_toNat_eq
  rw [BitVec.extractLsb'_toNat, hostWord, append_toNat, Nat.shiftRight_eq_div_pow]
  have := op.isLt
  have := arg.isLt
  omega

/-- A request word is its `arg` and its `op` (R86). -/
theorem hostWord_eta (w : BitVec 68) : w = hostWord (w.extractLsb' 4 64) (w.extractLsb' 0 4) := by
  apply BitVec.eq_of_toNat_eq
  rw [hostWord, append_toNat, BitVec.extractLsb'_toNat, BitVec.extractLsb'_toNat, Nat.shiftRight_eq_div_pow]
  have := w.isLt
  omega

/-- Settles O1: a wire line ends at its line feed with the literal's value, and a code of the other formats is the one its
row gives. -/
theorem encodedInstructionDecodesToItself : Obligations.EncodedInstructionDecodesToItself := by
  unfold Obligations.EncodedInstructionDecodesToItself
  intro i hi
  cases i with
  | en v => exact decode_encodeCommand (by decide) (by decide) hi rfl
  | mv v => exact decode_encodeCommand (by decide) (by decide) hi rfl
  | ma v => exact decode_encodeCommand (by decide) (by decide) hi rfl
  | sr v => exact decode_encodeCommand (by decide) (by decide) hi rfl
  | tp v => exact decode_encodeCommand (by decide) (by decide) hi rfl
  | tv v => exact decode_encodeCommand (by decide) (by decide) hi rfl
  | blockUntil d => simp [encode, decode, decodeHost, hostWord_op, hostWord_arg]
  | now => simp [encode, decode, decodeHost, hostWord_op]
  | rdt => simp [encode, decode, decodeHost, hostWord_op]
  | rds => simp [encode, decode, decodeHost, hostWord_op]
  | byte c => rfl
  | _ => rfl

/-- Settles O2: each word is decoded by its own row. -/
theorem writtenWordsDecodeToTheirInstruction : Obligations.WrittenWordsDecodeToTheirInstruction := by
  unfold Obligations.WrittenWordsDecodeToTheirInstruction
  refine ⟨rfl, rfl, rfl, rfl, rfl, rfl, rfl, rfl, rfl, rfl, rfl, rfl⟩

/-- Settles O4: the decoders read through their rows, and each row's code is the encoding's. -/
theorem onlyTheListedCodesDecode : Obligations.OnlyTheListedCodesDecode := by
  unfold Obligations.OnlyTheListedCodesDecode
  refine ⟨fun w i h => ⟨w.extractLsb' 4 64, hostWord_eta w, ?_⟩, fun d i h => ?_, fun ev c i h => ?_⟩
  · unfold decodeHost at h
    dsimp only at h
    repeat (split at h; · rename_i hop; cases h; rw [hop]; rfl)
    cases h
  · unfold decodeDrive at h
    repeat (split at h; · rename_i hd; cases h; rw [hd]; rfl)
    cases h
  · unfold decodeEvent at h
    repeat (split at h; · rename_i hev; cases h; rw [hev]; rfl)
    cases h

/-! ## The numeric literal (R84) -/

/-- The digits at the front of a text are the text's own front part, if it is all digits and no digit follows. -/
theorem digits_append {ip g : List Byte} (hip : ip.all isDigit = true) (hg : ∀ c r, g = c :: r → isDigit c = false) :
    (ip ++ g).takeWhile isDigit = ip ∧ (ip ++ g).dropWhile isDigit = g := by
  have hip' : ∀ c ∈ ip, isDigit c = true := List.all_eq_true.mp hip
  have htake : g.takeWhile isDigit = [] := by
    cases g with
    | nil => rfl
    | cons c r => exact List.takeWhile_cons_of_neg (by simp [hg c r rfl])
  have hdrop : g.dropWhile isDigit = g := by
    cases g with
    | nil => rfl
    | cons c r => exact List.dropWhile_cons_of_neg (by simp [hg c r rfl])
  rw [List.takeWhile_append_of_pos hip', List.dropWhile_append_of_pos hip', htake, hdrop, List.append_nil]
  exact ⟨rfl, rfl⟩

theorem decimalValue_of_ne {neg : Bool} {ip fp : List Byte} (h : ip ≠ [] ∨ fp ≠ []) :
    decimalValue neg ip fp = F64.roundQ neg (digitsValue (ip ++ fp)) (10 ^ fp.length) := by
  refine if_neg fun hempty => ?_
  simp only [Bool.and_eq_true, List.isEmpty_iff] at hempty
  exact h.elim (· hempty.1) (· hempty.2)

/-- Digits followed by neither a digit nor a point. -/
theorem unsignedLiteral_integer {neg : Bool} {ip g : List Byte} (hip : ip.all isDigit = true) (hne : ip ≠ [])
    (hg : ∀ c r, g = c :: r → isDigit c = false ∧ c ≠ chPoint) :
    unsignedLiteral neg (ip ++ g) = F64.roundQ neg (digitsValue ip) 1 := by
  obtain ⟨htake, hdrop⟩ := digits_append hip fun c r h => (hg c r h).1
  have hval := decimalValue_of_ne (neg := neg) (ip := ip) (fp := []) (.inl hne)
  rw [List.append_nil, List.length_nil, pow_zero] at hval
  unfold unsignedLiteral
  rw [htake, hdrop]
  cases g with
  | nil => exact hval
  | cons c r =>
    have hc : (c == chPoint) = false := beq_false_of_ne (hg c r rfl).2
    simpa [hc] using hval

/-- Digits with a point among them or beside them, followed by no digit. -/
theorem unsignedLiteral_decimal {neg : Bool} {ip fp g : List Byte} (hip : ip.all isDigit = true)
    (hfp : fp.all isDigit = true) (hne : ip ≠ [] ∨ fp ≠ []) (hg : ∀ c r, g = c :: r → isDigit c = false) :
    unsignedLiteral neg (ip ++ (chPoint :: fp) ++ g) =
      F64.roundQ neg (digitsValue (ip ++ fp)) (10 ^ fp.length) := by
  have hpoint : ∀ c r, chPoint :: fp ++ g = c :: r → isDigit c = false := by
    intro c r h
    obtain ⟨rfl, -⟩ := List.cons.inj h
    decide
  obtain ⟨htake, hdrop⟩ := digits_append hip hpoint
  obtain ⟨hfrac, -⟩ := digits_append hfp hg
  unfold unsignedLiteral
  rw [List.append_assoc, htake, hdrop]
  simp [hfrac, decimalValue_of_ne hne]

/-- A digit or a point is no sign. -/
theorem ne_minus_of_digits {ip g : List Byte} (hip : ip.all isDigit = true) (hg : ip = [] → ∀ r, g ≠ chMinus :: r) :
    ∀ r, ip ++ g ≠ chMinus :: r := by
  intro r h
  cases ip with
  | nil => exact hg rfl r h
  | cons c l =>
    obtain ⟨rfl, -⟩ := List.cons.inj h
    simp [isDigit, chMinus] at hip

/-- The sign of a text is its own `-`, or none. -/
theorem literal_sign {neg : Bool} {b : List Byte} (h : neg = false → ∀ r, b ≠ chMinus :: r) :
    literal ((if neg then [chMinus] else []) ++ b) = unsignedLiteral neg b := by
  cases neg with
  | true => exact literal_minus b
  | false => exact literal_unsigned (h rfl)

/-- Settles O6: the sign first, then the digits and the point as far as they go. -/
theorem literalTakesLongestPrefix : Obligations.LiteralTakesLongestPrefix := by
  unfold Obligations.LiteralTakesLongestPrefix
  intro neg ip fp hip hfp
  refine ⟨fun g hne hg => ?_, fun g hne hg => ?_, fun b hdigit hpoint hminus => ?_⟩
  · rw [List.append_assoc]
    exact (literal_sign fun _ => ne_minus_of_digits hip fun h => absurd h hne).trans (unsignedLiteral_integer hip hne hg)
  · rw [List.append_assoc, List.append_assoc, ← List.append_assoc ip]
    refine (literal_sign fun _ => ?_).trans (unsignedLiteral_decimal hip hfp hne hg)
    rw [List.append_assoc]
    exact ne_minus_of_digits hip fun _ r h => absurd (List.cons.inj h).1 (by decide)
  · exact (literal_sign hminus).trans (unsignedLiteral_eq_zero neg hdigit hpoint)

end Sys2Proof.Machine
end

