-- ==== Sys2Proof/Proofs/ParserLines.lean ====
section
/-! The Command Parser (R160 to R163): one lemma per row of the transition table, and the line a feed of
bytes publishes. -/

namespace Sys2Proof.Machine

variable {c : Byte} {p : Parser}

/-! ## The rows of the transition table -/

theorem parseFirst_letter (h : isLetter c = true) : parseFirst c p = { p with l1 := c, pstate := .expectLetter2 } :=
  if_pos h

theorem parseFirst_other (h : isLetter c = false) : parseFirst c p = { p with pstate := .expectLetter1 } :=
  if_neg (by simp [h])

theorem consumeByte_first (hp : p.pstate = .reset ∨ p.pstate = .expectLetter1) :
    consumeByte c p = (parseFirst c p, none) := by
  obtain hp | hp := hp <;> simp [consumeByte, hp]

theorem consumeByte_letter2 (hp : p.pstate = .expectLetter2) (h : isLetter c = true) :
    consumeByte c p = ({ p with l2 := c, pstate := .expectEquals }, none) := by
  simp [consumeByte, hp, h]

theorem consumeByte_equals (hp : p.pstate = .expectEquals) :
    consumeByte chEq p = ({ p with pstate := .expectValueOrEnd }, none) := by
  simp [consumeByte, hp]

theorem consumeByte_numChar (hp : p.pstate = .expectValueOrEnd) (h : isNumChar c = true) :
    consumeByte c p = (keepChar c p, none) := by
  simp [consumeByte, hp, h]

theorem consumeByte_term (hp : p.pstate = .expectValueOrEnd) (h : isTerm c = true) :
    consumeByte c p = ({ p with numbuf := [], pstate := .reset }, some ⟨⟨p.l1, p.l2⟩, literal p.numbuf⟩) := by
  simp [consumeByte, hp, isNumChar_of_isTerm h, h]

/-- A byte that no row of its state matches. -/
def Unexpected (c : Byte) (p : Parser) : Prop :=
  (p.pstate = .expectLetter2 ∧ isLetter c = false) ∨ (p.pstate = .expectEquals ∧ c ≠ chEq) ∨
    (p.pstate = .expectValueOrEnd ∧ isNumChar c = false ∧ c ≠ chCR ∧ c ≠ chLF)

theorem consumeByte_unexpected (h : Unexpected c p) : consumeByte c p = (parseReset c p, none) := by
  obtain ⟨hp, hc⟩ | ⟨hp, hc⟩ | ⟨hp, hc, hcr, hlf⟩ := h
  · simp [consumeByte, hp, hc]
  · simp [consumeByte, hp, hc]
  · have ht : isTerm c = false := by simp [isTerm, hcr, hlf]
    simp [consumeByte, hp, hc, ht]

/-- A byte that completes no line changes the parser only. -/
theorem exec_byte_of_none {s : State} {q : Parser} (h : consumeByte c s.parser = (q, none)) :
    exec (.byte c) s = .next { s with parser := q } := by
  simp [exec, execByte, h, publish]

/-- A byte that completes a line publishes its command as well. -/
theorem exec_byte_of_some {s : State} {q : Parser} {cmd : Command} (h : consumeByte c s.parser = (q, some cmd)) :
    exec (.byte c) s = .next { s with parser := q, slot := ⟨true, cmd⟩ } := by
  simp [exec, execByte, h, publish]

theorem keepChar_room (h : p.numlen < 31) : keepChar c p = { p with numbuf := p.numbuf ++ [c] } := if_pos h

theorem keepChar_full (h : 31 ≤ p.numlen) : keepChar c p = p := if_neg (Nat.not_lt.mpr h)

/-- Settles O44: the rows one by one, and the reset of a byte that no row matches. -/
theorem byteFollowsTheTransitionTable : Obligations.ByteFollowsTheTransitionTable := by
  unfold Obligations.ByteFollowsTheTransitionTable
  intro c s
  refine ⟨fun hp hc => ?_, fun hp hc => ?_, fun hp hc => exec_byte_of_none (consumeByte_letter2 hp hc), fun hp hc => ?_,
    fun hp hc hroom => ?_, fun hp hc hfull => ?_,
    fun hp hc => exec_byte_of_some (consumeByte_term hp (isTerm_iff.mpr hc)), fun h => ?_⟩
  · exact exec_byte_of_none ((consumeByte_first hp).trans (by rw [parseFirst_letter hc]))
  · exact exec_byte_of_none ((consumeByte_first hp).trans (by rw [parseFirst_other hc]))
  · exact hc ▸ exec_byte_of_none (consumeByte_equals hp)
  · exact exec_byte_of_none ((consumeByte_numChar hp hc).trans (by rw [keepChar_room hroom]))
  · exact exec_byte_of_none ((consumeByte_numChar hp hc).trans (by rw [keepChar_full hfull]))
  · refine (exec_byte_of_none (consumeByte_unexpected h)).trans ?_
    cases hc : isLetter c with
    | true => rw [parseReset, parseFirst_letter hc]; rfl
    | false => rw [parseReset, parseFirst_other hc]; rfl

/-! ## A whole line -/

/-- The number field and the terminator that the decoder reads (R81, R84). -/
theorem decodeNumber_ok {b rest : List Byte} {v : F64} (h : decodeNumber b = .ok (v, rest)) :
    ∃ num t, b = num ++ t :: rest ∧ num.all isNumChar = true ∧ isTerm t = true ∧
      v = literal (num.take Config.numbufCap) := by
  unfold decodeNumber at h
  split at h
  · cases h
  · rename_i t tail hdrop
    split at h
    · cases h
      exact ⟨b.takeWhile isNumChar, t, by rw [← hdrop, List.takeWhile_append_dropWhile], List.all_takeWhile, ‹_›, rfl⟩
    · cases h

/-- The bytes of a line that the decoder reads as a command (R81, R91). -/
theorem decodeLine_ok {line rest : List Byte} {cmd : Command} (h : decodeLine line = .ok (cmd, rest)) :
    ∃ l1 l2 num t, line = l1 :: l2 :: chEq :: (num ++ t :: rest) ∧ isLetter l1 = true ∧ isLetter l2 = true ∧
      num.all isNumChar = true ∧ isTerm t = true ∧ cmd = ⟨⟨l1, l2⟩, literal (num.take Config.numbufCap)⟩ := by
  unfold decodeLine at h
  split at h
  · rename_i l1 l2 eq bytes
    split at h
    · rename_i hletters
      obtain ⟨h1, h2⟩ := Bool.and_eq_true_iff.mp hletters
      split at h
      · rename_i heq
        obtain rfl := beq_iff_eq.mp heq
        split at h
        · rename_i v rest' hn
          cases h
          obtain ⟨num, t, rfl, hnum, ht, rfl⟩ := decodeNumber_ok hn
          exact ⟨l1, l2, num, t, rfl, h1, h2, hnum, ht, rfl⟩
        · cases h
      · cases h
    · cases h
  · cases h

/-- Number characters fed in `ExpectValueOrEnd` are kept as far as 31 go, and publish nothing (R161). -/
theorem feed_numChars {num : List Byte} (hnum : num.all isNumChar = true) (hp : p.pstate = .expectValueOrEnd)
    (hlen : p.numlen ≤ Config.numbufCap) :
    feed p num = ({ p with numbuf := (p.numbuf ++ num).take Config.numbufCap }, []) := by
  induction num generalizing p with
  | nil => simp [List.take_of_length_le (show p.numbuf.length ≤ Config.numbufCap from hlen)]
  | cons c num ih =>
    simp only [List.all_cons, Bool.and_eq_true] at hnum
    rw [feed_cons, consumeByte_numChar hp hnum.1]
    by_cases hroom : p.numlen < Config.numbufCap
    · have hroom' : ({ p with numbuf := p.numbuf ++ [c] } : Parser).numlen ≤ Config.numbufCap := by
        simpa [Parser.numlen] using Nat.succ_le_of_lt hroom
      simp [keepChar_room hroom, ih (p := { p with numbuf := p.numbuf ++ [c] }) hnum.2 hp hroom']
    · have hfull : p.numbuf.length = Config.numbufCap := le_antisymm hlen (Nat.not_lt.mp hroom)
      simp [keepChar_full (Nat.not_lt.mp hroom), ih hnum.2 hp hlen, hfull]

/-- The letters and the `=` of a line, fed to a parser that awaits it, publish nothing. -/
theorem feed_prefix {l1 l2 : Byte} (hp : awaitsLine p) (h1 : isLetter l1 = true) (h2 : isLetter l2 = true)
    (num : List Byte) : feed p (l1 :: l2 :: chEq :: num) = feed ⟨.expectValueOrEnd, l1, l2, []⟩ num := by
  obtain ⟨hstate, hbuf⟩ := hp
  rw [feed_cons, consumeByte_first hstate, parseFirst_letter h1, feed_cons, consumeByte_letter2 rfl h2, feed_cons,
    consumeByte_equals rfl, hbuf]
  rfl

/-- Settles O45: the line's bytes one part after another, and its command at the terminator. -/
theorem parserPublishesTheDecodedLine : Obligations.ParserPublishesTheDecodedLine := by
  unfold Obligations.ParserPublishesTheDecodedLine
  intro p line rest cmd hp hline
  obtain ⟨l1, l2, num, t, rfl, h1, h2, hnum, ht, rfl⟩ := decodeLine_ok hline
  have hbody : feed p (l1 :: l2 :: chEq :: num) =
      (⟨.expectValueOrEnd, l1, l2, num.take Config.numbufCap⟩, []) :=
    (feed_prefix hp h1 h2 num).trans (feed_numChars hnum rfl (Nat.zero_le _))
  refine ⟨l1 :: l2 :: chEq :: num, t, ⟨.reset, l1, l2, []⟩, rfl, by rw [hbody], ?_, .inl rfl, rfl⟩
  rw [feed_append, hbody, feed_cons, consumeByte_term rfl ht]
  rfl

end Sys2Proof.Machine
end

