-- ==== Sys2Proof/Proofs/Reader.lean ====
section
/-! The clock reader (R100 to R111): the steps of NOW and BLOCK_UNTIL written out, an attempt that meets no event, and
how often an attempt can fail. -/

namespace Sys2Proof.Machine

/-! ## The clock events and the primitive reads -/

theorem execCnt_notEnabled {s : State} (h : ¬ subPhase s.cfg s.sub + 1 < s.cfg.subMod) :
    execCnt s = .fault .notEnabled := if_neg h

theorem execTick_notEnabled {s : State} (h : ¬ subPhase s.cfg s.sub + 1 = s.cfg.subMod) :
    execTick s = .fault .notEnabled := if_neg h

/-- Settles O17: short of SUB's last count CNT is enabled, at it TICK, unless TICKS has reached its maximum. -/
theorem clockEventsExcludeEachOther : Obligations.ClockEventsExcludeEachOther := by
  unfold Obligations.ClockEventsExcludeEachOther
  intro s hs
  have hphase := subPhase_lt hs.sub_lt
  by_cases hlast : subPhase s.cfg s.sub + 1 = s.cfg.subMod
  · have hcnt : exec .cnt s = .fault .notEnabled := execCnt_notEnabled (by omega)
    obtain ht | ht := hs.ticks_le.lt_or_eq
    · exact .inr (.inl ⟨hcnt, _, execTick_enabled hlast ht⟩)
    · exact .inr (.inr ⟨hcnt, execTick_overflow hlast ht, ht, by omega⟩)
  · exact .inl ⟨execTick_notEnabled hlast, _, execCnt_enabled (by omega)⟩

/-- Settles O19: the port is open. -/
theorem primitiveReadsAnswerTheRegister : Obligations.PrimitiveReadsAnswerTheRegister := by
  unfold Obligations.PrimitiveReadsAnswerTheRegister
  intro s hr hc hp hd
  have hopen : hostPortOpen s = true := hostPortOpen_iff.mpr ⟨hr, hc, hp, hd⟩
  exact ⟨acceptHost_open (k := fun s => .next (respond (some (readReg s .ticks)) s)) hopen,
    acceptHost_open (k := fun s => .next (respond (some (readReg s .sub)) s)) hopen⟩

/-! ## The operation in progress -/

/-- The operation the reader has in progress: a BLOCK_UNTIL if RWAIT is set, else a NOW (R26, R105, R106). -/
def readerInstr (s : State) : Instr := if rwait s then .blockUntil s.deadline else .now

theorem readerInstr_now {s : State} (h : rwait s = false) : readerInstr s = .now := by simp [readerInstr, h]

theorem readerInstr_blockUntil {s : State} (h : rwait s = true) : readerInstr s = .blockUntil s.deadline := if_pos h

/-- It takes the step that RSTATE names. -/
theorem exec_readerInstr {s : State} {r : RState} (hr : rstate s = some r) (hne : r ≠ .idle) :
    exec (readerInstr s) s = .next (readerStep r s) := by
  cases hw : rwait s with
  | false =>
    rw [readerInstr_now hw]
    cases r <;> simp_all [exec, execNow]
  | true =>
    rw [readerInstr_blockUntil hw]
    cases r <;> simp_all [exec, execBlockUntil]

theorem exec_now_step {s : State} {r : RState} (hw : rwait s = false) (hr : rstate s = some r) (hne : r ≠ .idle) :
    exec .now s = .next (readerStep r s) := readerInstr_now hw ▸ exec_readerInstr hr hne

theorem exec_blockUntil_step {s : State} {r : RState} (hw : rwait s = true) (hr : rstate s = some r) (hne : r ≠ .idle) :
    exec (.blockUntil s.deadline) s = .next (readerStep r s) := readerInstr_blockUntil hw ▸ exec_readerInstr hr hne

/-! ## The end of an attempt -/

/-- A new RSTATE beside a known RWAIT, in the codes of R26. -/
theorem setRState_eq {r : RState} {w : Bool} {c : BitVec 4} {s : State} (hw : rwait s = w) (hc : ctl w r.code = c) :
    setRState r s = { s with rctl := c } := by
  rw [setRState, hw, hc]

theorem hostOwnsReader_iff {s : State} : hostOwnsReader s = true ↔ s.call = .idle ∧ s.driveCall = false := by
  simp [hostOwnsReader]

/-- A NOW completes: the reader is idle, and the host has its response if it asked. -/
theorem finishAttempt_now {s : State} (hw : rwait s = false) : finishAttempt s =
    { s with nowval := nowSample s, rctl := 0x0#4,
             responses := if s.call = .idle ∧ s.driveCall = false then s.responses ++ [some (nowSample s)]
               else s.responses } := by
  have hidle : setRState .idle { s with nowval := nowSample s } = { s with nowval := nowSample s, rctl := 0x0#4 } :=
    setRState_eq hw rfl
  unfold finishAttempt
  dsimp only
  rw [if_neg (by simp [hw]), hidle]
  simp only [hostOwnsReader_iff]
  split <;> rfl

/-- A BLOCK_UNTIL completes at the first sample that reaches its deadline. -/
theorem finishAttempt_due {s : State} (hw : rwait s = true) (hd : s.deadline ≤ nowSample s) : finishAttempt s =
    { s with nowval := nowSample s, rctl := 0x0#4,
             responses := if s.call = .idle ∧ s.driveCall = false then s.responses ++ [none] else s.responses } := by
  unfold finishAttempt
  dsimp only
  rw [if_pos hw, if_pos hd]
  simp only [hostOwnsReader_iff]
  split <;> rfl

/-- Short of its deadline a BLOCK_UNTIL starts over. -/
theorem finishAttempt_early {s : State} (hw : rwait s = true) (hd : ¬ s.deadline ≤ nowSample s) :
    finishAttempt s = { s with nowval := nowSample s, rctl := 0x9#4 } := by
  unfold finishAttempt
  dsimp only
  rw [if_pos hw, if_neg hd]
  exact setRState_eq hw rfl

/-! ## The steps of NOW and BLOCK_UNTIL -/

theorem exec_now_issue {s : State} (hr : rstate s = some .idle) (hc : s.call = .idle) (hp : phase s = some .wait)
    (hd : s.driveCall = false) : exec .now s = .next (setRState .t1 s) := by
  simp only [exec, execNow, hr]
  exact acceptHost_open (hostPortOpen_iff.mpr ⟨hr, hc, hp, hd⟩)

/-- The host at P_WAIT, or the stepping collaborator inside a drive call (R139, R188). -/
def MayBlock (s : State) : Prop := (phase s = some .wait ∧ s.driveCall = false) ∨ (phase s ≠ none ∧ s.driveCall = true)

theorem exec_blockUntil_issue {d : Word} {s : State} (hr : rstate s = some .idle) (hc : s.call = .idle)
    (hm : MayBlock s) : exec (.blockUntil d) s = .next (setRCtl true .t1 { s with deadline := d }) := by
  have hopen : (hostPortOpen s || driveCallOpen s) = true := by
    obtain ⟨hp, hd⟩ | ⟨-, hd⟩ := hm
    · simp [hostPortOpen_iff.mpr ⟨hr, hc, hp, hd⟩]
    · simp [driveCallOpen_iff.mpr ⟨hr, hc, hd⟩]
  have hp : phase s ≠ none := by
    obtain ⟨hp, -⟩ | ⟨hp, -⟩ := hm
    · simp [hp]
    · exact hp
  simp only [exec, execBlockUntil, hr]
  exact acceptWhen_eq hopen (by simp [hr]) hp

/-- The first three steps and the retry, with RWAIT as it is (R105). -/
theorem readerStep_t1_eq {s : State} {w : Bool} {c : BitVec 4} (hw : rwait s = w) (hc : ctl w RState.s.code = c) :
    readerStep .t1 s = { s with t1 := s.ticks, rctl := c } := setRState_eq (s := { s with t1 := s.ticks }) hw hc

theorem readerStep_s_eq {s : State} {w : Bool} {c : BitVec 4} (hw : rwait s = w) (hc : ctl w RState.t2.code = c) :
    readerStep .s s = { s with sLatch := s.sub, rctl := c } := setRState_eq (s := { s with sLatch := s.sub }) hw hc

theorem readerStep_t2_eq {s : State} {w : Bool} {c : BitVec 4} (hw : rwait s = w) (hc : ctl w RState.cmp.code = c) :
    readerStep .t2 s = { s with t2 := s.ticks, rctl := c } := setRState_eq (s := { s with t2 := s.ticks }) hw hc

theorem readerStep_retry_eq {s : State} {w : Bool} {c : BitVec 4} (hne : s.t1 ≠ s.t2) (hw : rwait s = w)
    (hc : ctl w RState.t1.code = c) : readerStep .cmp s = { s with rctl := c } :=
  (readerStep_cmp_of_ne hne).trans (setRState_eq hw hc)

/-- Settles O20: the issue at the open port, and the reader's steps with RWAIT clear. -/
theorem nowStepsReadInOrder : Obligations.NowStepsReadInOrder := by
  unfold Obligations.NowStepsReadInOrder
  intro s hw
  have stepTo {r : RState} {t : State} (hr : rstate s = some r) (hne : r ≠ .idle) (ht : readerStep r s = t) :
      exec .now s = .next t := ht ▸ exec_now_step hw hr hne
  refine ⟨fun hr hc hp hd => (exec_now_issue hr hc hp hd).trans (congrArg _ (setRState_eq hw rfl)),
    fun hr => stepTo hr (by decide) (readerStep_t1_eq hw rfl), fun hr => stepTo hr (by decide) (readerStep_s_eq hw rfl),
    fun hr => stepTo hr (by decide) (readerStep_t2_eq hw rfl), fun hr heq => ?_,
    fun hr hne => stepTo hr (by decide) (readerStep_retry_eq hne hw rfl)⟩
  exact ⟨_, stepTo hr (by decide) ((readerStep_cmp_of_eq heq).trans (finishAttempt_now hw)), rfl, rfl⟩

/-- Settles O26: the issue by either caller, and the reader's steps with RWAIT set. -/
theorem blockUntilStepsAndCompletion : Obligations.BlockUntilStepsAndCompletion := by
  unfold Obligations.BlockUntilStepsAndCompletion
  refine ⟨fun d s hr hc hm => exec_blockUntil_issue hr hc hm, fun s hw hc => ?_⟩
  have stepTo {r : RState} {t : State} (hr : rstate s = some r) (hne : r ≠ .idle) (ht : readerStep r s = t) :
      exec (.blockUntil s.deadline) s = .next t := ht ▸ exec_blockUntil_step hw hr hne
  refine ⟨fun hr => stepTo hr (by decide) (readerStep_t1_eq hw rfl),
    fun hr => stepTo hr (by decide) (readerStep_s_eq hw rfl), fun hr => stepTo hr (by decide) (readerStep_t2_eq hw rfl),
    fun hr hne => stepTo hr (by decide) (readerStep_retry_eq hne hw rfl), fun hr heq => ?_⟩
  refine ⟨_, stepTo hr (by decide) (readerStep_cmp_of_eq heq), finishAttempt_nowval s, fun hd => ?_, fun hd => ?_⟩
  · rw [finishAttempt_nowval] at hd ⊢
    rw [finishAttempt_due hw hd, hc]
    cases s.driveCall <;> rfl
  · rw [finishAttempt_nowval] at hd ⊢
    exact finishAttempt_early hw hd

/-! ## An attempt that meets no event -/

/-- What the reads of an attempt latch when no event falls between them. -/
def latched (s : State) : State :=
  { s with t1 := s.ticks, sLatch := s.sub, t2 := s.ticks, rctl := ctl (rwait s) RState.cmp.code }

@[simp] theorem rwait_latched (s : State) : rwait (latched s) = rwait s := ctlFlag_ctl ..

/-- The sample of such an attempt is the clock time. -/
theorem nowSample_latched {s : State} (h : ClockInv s) : (nowSample (latched s)).toNat = clockUs s :=
  nowSample_toNat (s := latched s) h.ticks_le h.sub_lt

theorem readerStep_latched {s : State} : readerStep .t2 (readerStep .s (readerStep .t1 s)) = latched s := by
  simp only [readerStep, setRState, latched, rwait, ctlFlag_ctl]

theorem execTimes_succ {i : Instr} {s t : State} (n : Nat) (h : exec i s = .next t) :
    execTimes i (n + 1) s = execTimes i n t := by
  simp only [execTimes, h]

/-- The operation in progress, from its first read to its comparison. -/
theorem execTimes_attempt {s : State} (hr : rstate s = some .t1) :
    execTimes (readerInstr s) 4 s = .next (finishAttempt (latched s)) := by
  have same (t : State) (hw : rwait t = rwait s) (hd : t.deadline = s.deadline) : readerInstr t = readerInstr s := by
    rw [readerInstr, readerInstr, hw, hd]
  have h₁ := exec_readerInstr hr (by decide)
  have h₂ := exec_readerInstr (s := readerStep .t1 s) (rstate_setRState ..) (by decide)
  have h₃ := exec_readerInstr (s := readerStep .s (readerStep .t1 s)) (rstate_setRState ..) (by decide)
  have h₄ := exec_readerInstr (s := latched s) (r := .cmp) (by simp [rstate, latched]) (by decide)
  rw [same (readerStep .t1 s) (by simp [readerStep, rwait]) rfl] at h₂
  rw [same (readerStep .s (readerStep .t1 s)) (by simp [readerStep, rwait]) rfl, readerStep_latched] at h₃
  rw [same (latched s) (rwait_latched s) rfl, readerStep_cmp_of_eq rfl] at h₄
  rw [execTimes_succ 3 h₁, execTimes_succ 2 h₂, execTimes_succ 1 h₃, execTimes_succ 0 h₄]
  rfl

/-- Settles O21: the issue, and an attempt that meets no event. -/
theorem uninterruptedNowAnswersTheTime : Obligations.UninterruptedNowAnswersTheTime := by
  unfold Obligations.UninterruptedNowAnswersTheTime
  intro s hs hr hw hc hp hd
  have hrun := execTimes_attempt (rstate_setRState .t1 s)
  rw [readerInstr_now ((rwait_setRState ..).trans hw),
    finishAttempt_now ((rwait_latched _).trans ((rwait_setRState ..).trans hw)), if_pos ⟨hc, hd⟩] at hrun
  exact ⟨nowSample (latched (setRState .t1 s)), nowSample_latched ⟨hs.ticks_le, hs.sub_lt⟩,
    (execTimes_succ 4 (exec_now_issue hr hc hp hd)).trans hrun⟩

/-- Settles O27: the issue, and an attempt that meets no event, due or not. -/
theorem uninterruptedBlockUntilTakesOneNow : Obligations.UninterruptedBlockUntilTakesOneNow := by
  unfold Obligations.UninterruptedBlockUntilTakesOneNow
  intro d s hs hr hc hm
  have hrun := execTimes_attempt (rstate_setRCtl true .t1 { s with deadline := d })
  have hwait := (rwait_latched _).trans (rwait_setRCtl true .t1 { s with deadline := d })
  rw [readerInstr_blockUntil (rwait_setRCtl ..)] at hrun
  have hrun' := (execTimes_succ 4 (exec_blockUntil_issue hr hc hm)).trans hrun
  have hnow : (nowSample (latched (setRCtl true .t1 { s with deadline := d }))).toNat = clockUs s :=
    nowSample_latched ⟨hs.ticks_le, hs.sub_lt⟩
  refine ⟨_, hnow, fun hd => ?_, fun hd => ?_⟩
  · refine hrun'.trans (congrArg _ ((finishAttempt_due hwait (BitVec.le_def.mpr (hnow ▸ hd))).trans ?_))
    simp only [latched, setRCtl, hc]
    cases s.driveCall <;> rfl
  · exact hrun'.trans (congrArg _ (finishAttempt_early hwait fun hle =>
      absurd (BitVec.le_def.mp hle) (hnow ▸ Nat.not_le.mpr hd)))

/-! ## How often an attempt can fail (R111) -/

/-- What the comparison of a NOW's attempt finds: T1 is the tick count of the attempt's first state, T2 one not later than
the clock, and RWAIT clear. -/
theorem Attempt.now_latches {a b d : State} (ha : ClockInv a) (hr : rstate a = some .t1) (hw : rwait a = false)
    (h : Attempt .now a b d) :
    ∃ e, ClockAdvances a e ∧ d = readerStep .cmp e ∧ e.t1 = a.ticks ∧ a.ticks ≤ e.t2 ∧ e.t2 ≤ e.ticks ∧
      rwait e = false := by
  obtain ⟨a', b', c, c', e, hexec₁, hrun₁, hexec₂, hrun₂, hexec₃, hrun₃, hexec₄⟩ := h
  -- the clock
  have hab := hrun₁.clockAdvances_after ha hexec₁
  have hbc := hrun₂.clockAdvances_after hab.inv hexec₂
  have hce := hrun₃.clockAdvances_after hbc.inv hexec₃
  -- the reader
  obtain rfl := exec_eq_readerStep (.inl rfl) hr (by decide) hexec₁
  obtain ⟨ht1b, -, -, -, -, hrb⟩ := hrun₁.sameReader
  obtain rfl := exec_eq_readerStep (.inl rfl) ((rstate_congr hrb).trans (rstate_setRState ..)) (by decide) hexec₂
  obtain ⟨ht1c, -, -, -, -, hrc⟩ := hrun₂.sameReader
  obtain rfl := exec_eq_readerStep (.inl rfl) ((rstate_congr hrc).trans (rstate_setRState ..)) (by decide) hexec₃
  obtain ⟨ht1e, -, ht2e, -, -, hre⟩ := hrun₃.sameReader
  have hwait : rwait e = false := by
    rw [rwait_congr hre, readerStep, rwait_setRState]
    show rwait c = false
    rw [rwait_congr hrc, readerStep, rwait_setRState]
    show rwait b = false
    rw [rwait_congr hrb, readerStep, rwait_setRState]
    exact hw
  have ht2 : e.t2 = c.ticks := ht2e
  exact ⟨e, (hab.trans hbc).trans hce,
    exec_eq_readerStep (.inl rfl) ((rstate_congr hre).trans (rstate_setRState ..)) (by decide) hexec₄,
    ht1e.trans (ht1c.trans ht1b), ht2 ▸ (hab.trans hbc).ticks_le, ht2 ▸ hce.ticks_le, hwait⟩

/-- A failed attempt saw a tick, and leaves RWAIT clear. -/
theorem Attempt.now_failed {a b d : State} (ha : ClockInv a) (hr : rstate a = some .t1) (hw : rwait a = false)
    (h : Attempt .now a b d) :
    rstate d = some .idle ∨
      (rstate d = some .t1 ∧ rwait d = false ∧ ClockAdvances a d ∧ a.ticks + 1 ≤ d.ticks) := by
  obtain ⟨e, hae, rfl, ht1, ht2, hle, hwait⟩ := h.now_latches ha hr hw
  by_cases heq : e.t1 = e.t2
  · rw [readerStep_cmp_of_eq heq, finishAttempt_now hwait]
    exact .inl (by simp [rstate, rstateOf, ctlField])
  · have had : ClockAdvances e (readerStep .cmp e) :=
      .of_sameClock hae.inv (readerStep_clock .cmp e).1 (readerStep_clock .cmp e).2
    have hticks : (readerStep .cmp e).ticks = e.ticks := (readerStep_clock .cmp e).2.1
    refine .inr ⟨?_, ?_, hae.trans had, by omega⟩
    · rw [readerStep_cmp_of_ne heq, rstate_setRState]
    · rw [readerStep_cmp_of_ne heq, rwait_setRState, hwait]

/-- Settles O24: the first failed attempt took the one tick, so the second reads one tick count twice. -/
theorem secondAttemptCompletes : Obligations.SecondAttemptCompletes := by
  unfold Obligations.SecondAttemptCompletes
  intro a b d e f g ha hr hw hfirst hrun hsecond hlive
  obtain hd | ⟨hrd, hwd, had, htick⟩ := hfirst.now_failed ha hr hw
  · exact .inl hd
  · have hde := hrun.clockAdvances had.inv
    obtain ⟨-, -, -, -, -, hrctl⟩ := hrun.sameReader
    obtain hg | ⟨-, -, -, htick'⟩ :=
      hsecond.now_failed hde.inv ((rstate_congr hrctl).trans hrd) ((rwait_congr hrctl).trans hwd)
    · exact .inr hg
    · have := hde.ticks_le
      omega

/-- With one count in a tick, SUB is always at its last count. -/
theorem subPhase_of_subMod_one {c : Config} {sub : Nat} (hc : c.subMod = 1) (hs : sub < c.subMod) :
    subPhase c sub + 1 = c.subMod := by
  have := subPhase_lt hs
  omega

/-- A tick between the first two reads fails the attempt, which is then where it began, one tick later (K6). -/
theorem exists_failed_attempt {s : State} (hs : ClockInv s) (hmod : s.cfg.subMod = 1) (hr : rstate s = some .t1)
    (hw : rwait s = false) (ht : s.ticks < ticksMax s.cfg) :
    ∃ b d, Attempt .now s b d ∧ rstate d = some .t1 ∧ rwait d = false ∧ d.cfg = s.cfg ∧ d.ticks = s.ticks + 1 ∧
      d.sub = subAt s.cfg 0 := by
  let b : State := { readerStep .t1 s with ticks := s.ticks + 1, sub := subAt s.cfg 0 }
  have htick : exec .tick (readerStep .t1 s) = .next b :=
    execTick_enabled (s := readerStep .t1 s) (subPhase_of_subMod_one hmod hs.sub_lt) ht
  have hrb : rstate b = some .s := rstate_setRState ..
  have hwb : rwait b = false := (rwait_setRState ..).trans hw
  have hwc : rwait (readerStep .s b) = false := (rwait_setRState ..).trans hwb
  have hwd : rwait (readerStep .t2 (readerStep .s b)) = false := (rwait_setRState ..).trans hwc
  have hne : (readerStep .t2 (readerStep .s b)).t1 ≠ (readerStep .t2 (readerStep .s b)).t2 :=
    (Nat.succ_ne_self s.ticks).symm
  have hcmp := exec_now_step hwd (rstate_setRState ..) (by decide)
  rw [readerStep_cmp_of_ne hne] at hcmp
  refine ⟨b, setRState .t1 (readerStep .t2 (readerStep .s b)), ⟨_, _, _, _, _, exec_now_step hw hr (by decide),
    .next _ _ _ .tick rfl htick (.refl b), exec_now_step hwb hrb (by decide), .refl _,
    exec_now_step hwc (rstate_setRState ..) (by decide), .refl _, hcmp⟩, rstate_setRState .., ?_, rfl, rfl, rfl⟩
  exact (rwait_setRState ..).trans hwd

/-- Settles O25: one tick for each attempt fails them all. -/
theorem retriesAreUnbounded : Obligations.RetriesAreUnbounded := by
  unfold Obligations.RetriesAreUnbounded
  intro n
  induction n with
  | zero => exact fun s _ _ _ _ _ => ⟨s, .zero s⟩
  | succ n ih =>
    intro s hs hmod hr hw hle
    obtain ⟨b, d, hattempt, hrd, hwd, hcfg, hticks, hsub⟩ := exists_failed_attempt hs hmod hr hw (by omega)
    have hd : ClockInv d := ⟨by rw [hcfg, hticks]; omega, by rw [hcfg, hsub]; exact subAt_lt (by omega)⟩
    obtain ⟨t, ht⟩ := ih d hd (hcfg ▸ hmod) hrd hwd (by rw [hcfg, hticks]; omega)
    exact ⟨t, .more n s b d t hattempt hrd ht⟩

end Sys2Proof.Machine
end

