-- ==== Sys2Proof/Proofs/LoopEvents.lean ====
section
/-! The events of unit SEQ written out (R130 to R138): what SCHED, POLL, EDGE, EVAL and STEP answer where they are taken,
and the drive commands. -/

namespace Sys2Proof.Machine

/-! ## SCHED -/

/-- The loop's NOW issued, in the codes of R26. -/
theorem issueNow_eq {s : State} (c : LoopCall) (hw : rwait s = false) :
    issueNow c s = { s with call := c, driveCall := false, rctl := 0x1#4 } :=
  setRState_eq (s := { s with call := c, driveCall := false }) hw rfl

theorem exec_sched_issue {s : State} (hp : phase s = some .wait) (hr : rstate s = some .idle) (hc : s.call = .idle) :
    exec .sched s = .next (issueNow .schedNow s) :=
  (atPhase_eq hp).trans (withNow_issue hr (by rw [hc]; rfl) rfl)

theorem exec_sched_complete {s : State} (hp : phase s = some .wait) (hr : rstate s = some .idle)
    (hc : s.call = .schedNow) :
    exec .sched s = .next (schedTest { s with call := .idle }) :=
  (atPhase_eq hp).trans (withNow_complete hr hc)

/-- Settles O29: the NOW is issued, and with it complete the due test is `schedTest`. -/
theorem schedTestsAndRearms : Obligations.SchedTestsAndRearms := by
  unfold Obligations.SchedTestsAndRearms
  intro s hp hr
  refine ⟨fun hc hw => ?_, fun hc hdue => ?_, fun hc hearly => ?_⟩
  · rw [exec_sched_issue hp hr hc, issueNow_eq _ hw]
  · rw [exec_sched_complete hp hr hc]
    exact congrArg _ (schedTest_due hdue)
  · rw [exec_sched_complete hp hr hc]
    exact congrArg _ (schedTest_early (s := { s with call := .idle }) (BitVec.not_le.mpr hearly))

/-! ## POLL -/

theorem afterPoll_of_ready {s : State} (h : s.slot.ready = true) : afterPoll s =
    { s with slot := { s.slot with ready := false }, dprev := s.dcur, dcur := some s.slot.cmd } := by
  rw [afterPoll_eq, if_pos h]

theorem afterPoll_of_not_ready {s : State} (h : s.slot.ready = false) : afterPoll s = s := by
  rw [afterPoll_eq, if_neg (by simp [h])]

/-- `poll()` returns the claimed command if it is the one of the claim before (R165). -/
theorem pollResult_eq_some {s : State} {c : Command} :
    pollResult s = some c ↔ s.slot.ready = true ∧ s.dcur = some c ∧ s.slot.cmd = c := by
  rw [pollResult_eq]
  cases s.slot.ready <;> simp [verified_eq_some]

theorem pollResult_eq_none {s : State} (h : s.slot.ready = true → s.dcur ≠ some s.slot.cmd) : pollResult s = none := by
  refine Option.eq_none_iff_forall_ne_some.mpr fun c hc => ?_
  obtain ⟨hready, hcur, rfl⟩ := pollResult_eq_some.mp hc
  exact h hready hcur

theorem exec_poll_of_none {s : State} (hp : phase s = some .poll) (hr : rstate s = some .idle) (hc : s.call = .idle)
    (h : pollResult s = none) : exec .poll s = .next (endPoll (endDriveCall (afterPoll s))) := by
  simp only [exec, execPoll, atPhase_eq hp, betweenCalls_eq hr hc, h]

theorem exec_poll_of_some {s : State} {c : Command} (hp : phase s = some .poll) (hr : rstate s = some .idle)
    (hc : s.call = .idle) (h : pollResult s = some c) :
    exec .poll s = .next { endDriveCall (afterPoll s) with call := .handle c } := by
  simp only [exec, execPoll, atPhase_eq hp, betweenCalls_eq hr hc, h]

/-- A verified command is claimed, shifted into the deduplicator and handled next. -/
theorem exec_poll_verified {s : State} (hp : phase s = some .poll) (hr : rstate s = some .idle) (hc : s.call = .idle)
    (hready : s.slot.ready = true) (hcur : s.dcur = some s.slot.cmd) : exec .poll s = .next
      { s with slot := { s.slot with ready := false }, dprev := s.dcur, dcur := some s.slot.cmd,
               call := .handle s.slot.cmd, driveCall := false } := by
  rw [exec_poll_of_some hp hr hc (pollResult_eq_some.mpr ⟨hready, hcur, rfl⟩), afterPoll_of_ready hready]
  rfl

/-- Settles O33: what the claim finds decides what is handled. -/
theorem pollClaimsShiftsAndVerifies : Obligations.PollClaimsShiftsAndVerifies := by
  unfold Obligations.PollClaimsShiftsAndVerifies
  intro s hp hr hc
  refine ⟨fun hready => ?_, fun hready hne => ?_, exec_poll_verified hp hr hc⟩
  · rw [exec_poll_of_none hp hr hc (pollResult_eq_none fun h => absurd (hready.symm.trans h) (by decide)),
      afterPoll_of_not_ready hready]
    simp only [endPoll, endDriveCall, setPhase, ← hc]
    rfl
  · rw [exec_poll_of_none hp hr hc (pollResult_eq_none fun _ => hne), afterPoll_of_ready hready]
    simp only [endPoll, endDriveCall, setPhase, ← hc]
    rfl

/-- Settles O34: a claim clears READY, and `poll()` compares the claimed command with DCUR. -/
theorem claimDeliversOnceAndVerifiesIdenticalCopies : Obligations.ClaimDeliversOnceAndVerifiesIdenticalCopies := by
  unfold Obligations.ClaimDeliversOnceAndVerifiesIdenticalCopies
  refine ⟨fun r => ⟨fun h => ?_, fun h => ?_⟩, fun s c => ?_, fun s u h hcur hslot => ?_⟩
  · simp [claim, h]
  · simp [claim, h]
  · rw [pollResult_eq_some]
    constructor
    · rintro ⟨hready, hcur, hcmd⟩
      exact ⟨hready, hcmd, c, hcur, rfl, rfl, rfl⟩
    · rintro ⟨hready, hcmd, ⟨⟨p1, p2⟩, pv⟩, hcur, rfl, rfl, rfl⟩
      exact ⟨hready, hcur, hcmd⟩
  · rw [afterPoll_of_ready h] at hcur
    exact pollResult_eq_some.mpr (hslot ▸ ⟨rfl, hcur, rfl⟩)

/-! ## EDGE -/

theorem endEdge_eq {s : State} {e : Bool} {c : BitVec 4} (he : s.motion.enabled = e) (hc : ctl e Phase.eval.code = c) :
    endEdge s = { s with sctl := c } := by
  rw [endEdge, getEnabled, he, setSCtl, hc]

theorem exec_edge_of_some {s : State} {d : Drive} (hp : phase s = some .edge) (hr : rstate s = some .idle)
    (hc : s.call = .idle) (h : edgeCommand s = some d) : exec .edge s = .next (endEdge (emit d s)) := by
  simp only [exec, execEdge, atPhase_eq hp, betweenCalls_eq hr hc, h]
  rfl

theorem exec_edge_of_none {s : State} (hp : phase s = some .edge) (hr : rstate s = some .idle)
    (hc : s.call = .idle) (h : edgeCommand s = none) : exec .edge s = .next (endEdge (endDriveCall s)) := by
  simp only [exec, execEdge, atPhase_eq hp, betweenCalls_eq hr hc, h]

/-- Nothing is emitted while EN_PREV is `enabled`. -/
theorem edgeCommand_eq_none {s : State} (h : s.motion.enabled = enPrev s) : edgeCommand s = none := by
  unfold edgeCommand getEnabled
  rw [h]
  cases enPrev s <;> rfl

/-- Settles O35: the two edges and the two levels of `enabled`. -/
theorem edgeSwitchesPowerOnAnEdge : Obligations.EdgeSwitchesPowerOnAnEdge := by
  unfold Obligations.EdgeSwitchesPowerOnAnEdge
  intro s hp hr hc
  refine ⟨fun he hprev => ?_, fun he hprev => ?_, fun he hprev => ?_, fun he hprev => ?_⟩
  · rw [exec_edge_of_some hp hr hc (edgeCommand_eq_some.mpr (.inl ⟨he, hprev, rfl⟩))]
    exact congrArg _ (endEdge_eq (s := emit .enable s) he rfl)
  · rw [exec_edge_of_some hp hr hc (edgeCommand_eq_some.mpr (.inr ⟨he, hprev, rfl⟩))]
    exact congrArg _ (endEdge_eq (s := emit .disable s) he rfl)
  · rw [exec_edge_of_none hp hr hc (edgeCommand_eq_none (he.trans hprev.symm))]
    exact congrArg _ (endEdge_eq (s := endDriveCall s) he rfl)
  · rw [exec_edge_of_none hp hr hc (edgeCommand_eq_none (he.trans hprev.symm))]
    exact congrArg _ (endEdge_eq (s := endDriveCall s) he rfl)

/-! ## EVAL -/

/-- The signed range of R133 with its upper end excluded. -/
theorem fitsSigned_iff {w : Nat} {n : Int} :
    fitsSigned w n = true ↔ -(2 ^ (w - 1) : Int) ≤ n ∧ n < 2 ^ (w - 1) := by
  simp only [fitsSigned, decide_eq_true_eq]
  omega

theorem targetSteps_of_fits {A : Arith} {c : Config} {m : Motion} {now : Word} {e : Evaluation} {n : Int}
    (he : evaluate A m now = .ok e) (hn : degreesToSteps A e.pos m.stepsPerRev = some n)
    (hfits : fitsSigned c.stepW n = true) : targetSteps A c m now = .ok (n, e.motion) := by
  simp only [targetSteps, he, hn, hfits, if_true]

theorem targetSteps_outOfRange {A : Arith} {c : Config} {m : Motion} {now : Word} {e : Evaluation}
    (he : evaluate A m now = .ok e)
    (hn : ∀ n, degreesToSteps A e.pos m.stepsPerRev = some n → fitsSigned c.stepW n = false) :
    targetSteps A c m now = .error .targetOutOfRange := by
  simp only [targetSteps, he]
  cases h : degreesToSteps A e.pos m.stepsPerRev with
  | none => rfl
  | some n => simp [hn n h]

/-- The evaluation is refused exactly where a limit that its branch divides by is bad (R171, R172, D28). -/
theorem evaluate_badLimit {m : Motion} (now : Word) (h : badLimitAt m) : evaluate binary64 m now = .error .badLimit := by
  obtain ha | ⟨hs, hm, hv⟩ := h
  · exact evaluate_of_bad_maxAcceleration now ha
  · exact evaluate_position_of_bad_maxVelocity now hs hm hv

/-- Settles O36: the NOW is issued, and with it complete the target of NOWVAL is latched or refused. -/
theorem evalLatchesSampleAndTarget : Obligations.EvalLatchesSampleAndTarget := by
  unfold Obligations.EvalLatchesSampleAndTarget
  intro s hp hr
  have heval : exec .eval s = withNow .evalNow evalTarget s := atPhase_eq hp
  refine ⟨fun hc hw => ?_, fun hc e he => ⟨fun n hn hlow hhigh => ?_, fun hn => ?_⟩, fun hc hbad => ?_⟩
  · rw [heval, withNow_issue hr (by rw [hc]; rfl) rfl, issueNow_eq _ hw]
  · rw [heval, withNow_complete hr hc, evalTarget, targetSteps_of_fits he hn (fitsSigned_iff.mpr ⟨hlow, hhigh⟩)]
    rfl
  · rw [heval, withNow_complete hr hc, evalTarget, targetSteps_outOfRange he fun n hn' =>
      Bool.eq_false_iff.mpr fun hfits => hn n hn' (fitsSigned_iff.mp hfits)]
  · rw [heval, withNow_complete hr hc, evalTarget, targetSteps, evaluate_badLimit _ hbad]

/-! ## STEP and the drive commands -/

theorem exec_step_eq {s : State} (hp : phase s = some .step) (hr : rstate s = some .idle) (hc : s.call = .idle) :
    exec .step s =
      if s.actualSteps < s.target then stepTo .stepFwd (s.actualSteps + 1) (endDriveCall s)
      else if s.target < s.actualSteps then stepTo .stepRev (s.actualSteps - 1) (endDriveCall s)
      else .next (endStep s.actualSteps (endDriveCall s)) := by
  simp only [exec, execStep, atPhase_eq hp, betweenCalls_eq hr hc]

theorem stepTo_admitted {d : Drive} {n : Int} {s : State} (h : stepsAdmitted s.cfg n = true) :
    stepTo d n (endDriveCall s) = .next (endStep n (emit d s)) := by
  simp only [stepTo, emitStep, endDriveCall_cfg, h, if_true, mapNext]
  rfl

theorem stepTo_overflow {d : Drive} {n : Int} {s : State} (h : stepsAdmitted s.cfg n = false) :
    stepTo d n (endDriveCall s) = .refused .stepOverflow := by
  simp only [stepTo, emitStep, endDriveCall_cfg, h, Bool.false_eq_true, if_false, mapNext]

theorem stepsAdmitted_iff {c : Config} {n : Int} :
    stepsAdmitted c n = true ↔ -(2 ^ (c.stepW - 1) : Int) + 1 ≤ n ∧ n ≤ 2 ^ (c.stepW - 1) - 2 := by
  simp only [stepsAdmitted, decide_eq_true_eq]

theorem stepsAdmitted_eq_false {c : Config} {n : Int}
    (h : ¬ (-(2 ^ (c.stepW - 1) : Int) + 1 ≤ n ∧ n ≤ 2 ^ (c.stepW - 1) - 2)) : stepsAdmitted c n = false :=
  Bool.eq_false_iff.mpr fun ha => h (stepsAdmitted_iff.mp ha)

/-- Settles O37: the three orders of ACTUAL_STEPS and TARGET, and the two ends of the admitted range. -/
theorem stepMovesOneTowardTarget : Obligations.StepMovesOneTowardTarget := by
  unfold Obligations.StepMovesOneTowardTarget
  intro s hp hr hc
  rw [exec_step_eq hp hr hc]
  refine ⟨fun hlt hhigh hlow => ?_, fun hlt hlow hhigh => ?_, fun heq => ?_, fun hlt hend => ?_, fun hlt hend => ?_⟩
  · rw [if_pos hlt, stepTo_admitted (stepsAdmitted_iff.mpr ⟨by omega, hhigh⟩)]
    rfl
  · rw [if_neg (by omega), if_pos hlt, stepTo_admitted (stepsAdmitted_iff.mpr ⟨hlow, by omega⟩)]
    rfl
  · rw [if_neg (by omega), if_neg (by omega)]
    rfl
  · rw [if_pos hlt, stepTo_overflow (stepsAdmitted_eq_false fun h => by omega)]
  · rw [if_neg (by omega), if_pos hlt, stepTo_overflow (stepsAdmitted_eq_false fun h => by omega)]

/-- Settles O40: each command runs where it is due, as `emit` of itself, and the inversion lemmas say where that is. -/
theorem driveCommandsAppendThemselves : Obligations.DriveCommandsAppendThemselves := by
  unfold Obligations.DriveCommandsAppendThemselves
  refine ⟨fun s hr hc => ⟨fun hp he hprev => ?_, fun hp he hprev => ?_, fun hp hlt ha => ?_, fun hp hlt ha => ?_⟩,
    fun s t => ⟨fun h => ?_, fun h => ?_, fun h => ?_, fun h => ?_⟩⟩
  · exact whenDue_eq hr hc (dueCommand_eq_some.mpr (.inl ⟨hp, edgeCommand_eq_some.mpr (.inl ⟨he, hprev, rfl⟩)⟩))
  · exact whenDue_eq hr hc (dueCommand_eq_some.mpr (.inl ⟨hp, edgeCommand_eq_some.mpr (.inr ⟨he, hprev, rfl⟩)⟩))
  · exact (whenDue_eq hr hc (dueCommand_eq_some.mpr (.inr ⟨hp, stepCommand_eq_some.mpr (.inl ⟨hlt, rfl⟩)⟩))).trans
      (if_pos ha)
  · exact (whenDue_eq hr hc (dueCommand_eq_some.mpr (.inr ⟨hp, stepCommand_eq_some.mpr (.inr ⟨hlt, rfl⟩)⟩))).trans
      (if_pos ha)
  · obtain ⟨-, -, hp, he, hprev, -⟩ := execEnable_next h
    exact ⟨hp, he, hprev⟩
  · obtain ⟨-, -, hp, he, hprev, -⟩ := execDisable_next h
    exact ⟨hp, he, hprev⟩
  · obtain ⟨-, -, hp, hlt, -, -⟩ := execStepFwd_next h
    exact ⟨hp, hlt⟩
  · obtain ⟨-, -, hp, hlt, -, -⟩ := execStepRev_next h
    exact ⟨hp, hlt⟩

end Sys2Proof.Machine
end

