-- ==== Sys2Proof/Proofs/Dispatch.lean ====
section
/-! What a step runs (R40, R70, R90, R131, R139): the turn first in the schedule or the main context's own choice,
what is refused before anything runs, and the main context alone from reset. -/

namespace Sys2Proof.Machine

/-! ## Codes outside the spec (R26, R31, R90) -/

theorem rstateOf_eq_none {b : BitVec 3} : rstateOf b = none ↔ 5#3 ≤ b := by revert b; decide

theorem phaseOf_eq_none {b : BitVec 3} : phaseOf b = none ↔ 5#3 ≤ b := by revert b; decide

theorem step_badRstate {s : State} (h : rstate s = none) : step s = .refused .badRstate := by
  simp only [step, takeTurn, h]

theorem step_badPhase {s : State} (hr : rstate s ≠ none) (h : phase s = none) : step s = .refused .badPhase := by
  obtain ⟨r, hr⟩ := Option.ne_none_iff_exists'.mp hr
  simp only [step, takeTurn, hr, h]

theorem step_eq_nextTurn {s : State} (hr : rstate s ≠ none) (hp : phase s ≠ none) : step s = nextTurn s := by
  obtain ⟨r, hr⟩ := Option.ne_none_iff_exists'.mp hr
  obtain ⟨p, hp⟩ := Option.ne_none_iff_exists'.mp hp
  simp only [step, takeTurn, hr, hp]

theorem decodeHost_now {w : BitVec 68} (h : w.extractLsb' 0 4 = 1#4) : decodeHost w = .ok .now := if_pos h

theorem decodeHost_blockUntil {w : BitVec 68} (h : w.extractLsb' 0 4 = 2#4) :
    decodeHost w = .ok (.blockUntil (w.extractLsb' 4 64)) := by
  simp [decodeHost, h]

theorem decodeHost_reserved {w : BitVec 68} (h : w.extractLsb' 0 4 = 0#4 ∨ 5#4 ≤ w.extractLsb' 0 4) :
    decodeHost w = .error .reservedCode := by
  have hop : ∀ op : BitVec 4, (op = 0#4 ∨ 5#4 ≤ op) → op ≠ 1#4 ∧ op ≠ 2#4 ∧ op ≠ 3#4 ∧ op ≠ 4#4 := by decide
  obtain ⟨h1, h2, h3, h4⟩ := hop _ h
  simp only [decodeHost, h1, h2, h3, h4, if_false]

theorem decodeDrive_reserved {d : BitVec 3} (h : d = 0b000#3 ∨ d = 0b011#3 ∨ d = 0b110#3 ∨ d = 0b111#3) :
    decodeDrive d = .error .reservedCode := by
  obtain rfl | rfl | rfl | rfl := h <;> rfl

theorem decodeEvent_reserved {ev : BitVec 4} (c : Byte) (h : 8#4 ≤ ev) : decodeEvent ev c = .error .reservedCode := by
  have hev : ∀ e : BitVec 4, 8#4 ≤ e →
      e ≠ 0#4 ∧ e ≠ 1#4 ∧ e ≠ 2#4 ∧ e ≠ 3#4 ∧ e ≠ 4#4 ∧ e ≠ 5#4 ∧ e ≠ 6#4 ∧ e ≠ 7#4 := by decide
  obtain ⟨h0, h1, h2, h3, h4, h5, h6, h7⟩ := hev ev h
  simp only [decodeEvent, h0, h1, h2, h3, h4, h5, h6, h7, if_false]

/-- Settles O3: the two control fields first, then the turn's own code. -/
theorem forbiddenTurnsAreRefused : Obligations.ForbiddenTurnsAreRefused := by
  unfold Obligations.ForbiddenTurnsAreRefused
  have rstate_ok {s : State} (h : s.rctl.extractLsb' 0 3 < 5#3) : rstate s ≠ none := fun hn =>
    BitVec.not_le.mpr h (rstateOf_eq_none.mp hn)
  refine ⟨fun s h => step_badRstate (rstateOf_eq_none.mpr h),
    fun s hr h => step_badPhase (rstate_ok hr) (phaseOf_eq_none.mpr h), fun s hr hp => ?_⟩
  rw [step_eq_nextTurn (rstate_ok hr) fun hn => BitVec.not_le.mpr hp (phaseOf_eq_none.mp hn)]
  refine ⟨fun hl w rest hs h => ?_, fun d rest hs h => ?_, fun ev c rest hs h => ?_, fun w rest hs h => ?_,
    fun c rest hs => ?_⟩
  · simp only [nextTurn, hs, hostTurn, decodeHost_reserved h]
  · simp only [nextTurn, hs, driveTurn, decodeDrive_reserved h]
  · simp only [nextTurn, hs, runDecoded, decodeEvent_reserved c h]
  · obtain h | h := h
    · simp only [nextTurn, hs, hostTurn, decodeHost_now h]
      rfl
    · simp only [nextTurn, hs, hostTurn, decodeHost_blockUntil h]
      rfl
  · simp only [nextTurn, hs]

/-! ## The turns of the schedule -/

theorem nextTurn_host {s : State} {h : Bool} {w : BitVec 68} {rest : List Turn} {i : Instr}
    (hs : s.schedule = .host h w :: rest) (hd : decodeHost w = .ok i)
    (hi : h = false ∨ i = .rdt ∨ i = .rds) : nextTurn s =
      if hostPortOpen (endDriveCall s) then exec i { endDriveCall s with schedule := rest } else mainStep s := by
  have hfree : (h && readsClock i) = false := by
    obtain rfl | rfl | rfl := hi
    · rfl
    · exact Bool.and_false h
    · exact Bool.and_false h
  simp only [nextTurn, hs, hostTurn, hd, hfree, Bool.false_eq_true, if_false]

/-- The port is open once a drive call has returned: the reader idle, the loop in no call and at P_WAIT. -/
theorem hostPortOpen_endDriveCall {s : State} :
    hostPortOpen (endDriveCall s) = true ↔ rstate s = some .idle ∧ s.call = .idle ∧ phase s = some .wait := by
  simp [hostPortOpen_iff]

/-! ## The main context -/

/-- With the reader busy, its operation. -/
theorem mainStep_busy {s : State} {r : RState} (hp : phase s ≠ none) (hr : rstate s = some r) (hne : r ≠ .idle) :
    mainStep s = closeHandle s.call (exec (readerInstr s) s) := by
  obtain ⟨p, hp⟩ := Option.ne_none_iff_exists'.mp hp
  have hchoice : mainChoice s = .run (readerInstr s) := by
    unfold mainChoice readerInstr
    rw [hr, hp]
    cases r with
    | idle => exact absurd rfl hne
    | _ => dsimp only; split <;> rfl
  simp only [mainStep, hchoice]

/-- With the reader idle, what the loop's call selects. -/
theorem mainChoice_idle {s : State} {p : Phase} (hr : rstate s = some .idle) (hp : phase s = some p) :
    mainChoice s = match s.call with
      | .idle => .run (phaseInstr p)
      | .schedNow => .run .sched
      | .handle c => handleChoice c
      | .handleNow c => handleChoice c
      | .evalNow => .run .eval := by
  cases hc : s.call <;> simp only [mainChoice, hr, hp, hc]

theorem closeHandle_of_not_handling {b : LoopCall} (h : b.handling = false) (r : Result) : closeHandle b r = r := by
  unfold closeHandle
  cases r with
  | next t => simp [h]
  | _ => rfl

theorem mainStep_phase {s : State} {p : Phase} (hr : rstate s = some .idle) (hp : phase s = some p)
    (hc : s.call = .idle) :
    mainStep s = exec (phaseInstr p) s := by
  have hchoice := mainChoice_idle hr hp
  rw [hc] at hchoice
  simp only [mainStep, hchoice, hc]
  exact closeHandle_of_not_handling rfl _

theorem mainStep_schedNow {s : State} (hr : rstate s = some .idle) (hp : phase s ≠ none) (hc : s.call = .schedNow) :
    mainStep s = exec .sched s := by
  obtain ⟨p, hp⟩ := Option.ne_none_iff_exists'.mp hp
  have hchoice := mainChoice_idle hr hp
  rw [hc] at hchoice
  simp only [mainStep, hchoice, hc]
  exact closeHandle_of_not_handling rfl _

theorem mainStep_evalNow {s : State} (hr : rstate s = some .idle) (hp : phase s ≠ none) (hc : s.call = .evalNow) :
    mainStep s = exec .eval s := by
  obtain ⟨p, hp⟩ := Option.ne_none_iff_exists'.mp hp
  have hchoice := mainChoice_idle hr hp
  rw [hc] at hchoice
  simp only [mainStep, hchoice, hc]
  exact closeHandle_of_not_handling rfl _

/-- Inside `handle`, the command's instruction. -/
theorem mainStep_handling {s : State} {c : Command} {i : Instr} (hh : Handling c s) (hp : phase s ≠ none)
    (hi : instrOfCommand c = some i) : mainStep s = closeHandle s.call (exec i s) := by
  obtain ⟨p, hp⟩ := Option.ne_none_iff_exists'.mp hp
  have hchoice := mainChoice_idle hh.idle hp
  obtain hc | hc := hh.call <;> rw [hc] at hchoice <;> simp only [mainStep, hchoice, handleChoice, hi]

/-- Inside `handle` of an unknown code, POLL ends (R176). -/
theorem mainStep_unknown {s : State} {c : Command} (hh : Handling c s) (hp : phase s ≠ none)
    (hi : instrOfCommand c = none) : mainStep s = .next (endPoll s) := by
  obtain ⟨p, hp⟩ := Option.ne_none_iff_exists'.mp hp
  have hchoice := mainChoice_idle hh.idle hp
  obtain hc | hc := hh.call <;> rw [hc] at hchoice <;> simp only [mainStep, hchoice, handleChoice, hi]

/-- Settles O14: each kind of turn, and each choice of the main context. -/
theorem stepRunsTheDecodedInstruction : Obligations.StepRunsTheDecodedInstruction := by
  unfold Obligations.StepRunsTheDecodedInstruction
  refine ⟨fun s hr hp => ?_, fun s r => mainStep_busy, fun s p => mainStep_phase, fun s => mainStep_schedNow,
    fun s => mainStep_evalNow,
    fun s line i c hr hp _ hi hc => mainStep_handling ⟨hc, hr⟩ hp (instrOfCommand_commandOf hi)⟩
  rw [step_eq_nextTurn hr hp]
  refine ⟨fun ev c rest i hs hd => ?_, fun d rest i hs hd => ?_, fun h w rest i hs hd hi => ?_, fun d rest hs => ?_,
    fun rest hs => ?_, fun hs => ?_⟩
  · simp only [nextTurn, hs, runDecoded, hd]
  · have hturn : nextTurn s = driveTurn d { s with schedule := rest } := by simp only [nextTurn, hs]
    rw [hturn]
    exact ⟨by simp only [driveTurn, hd], fun t ht => driveTurn_next ht⟩
  · rw [nextTurn_host hs hd hi]
    exact ⟨fun hopen => if_pos (hostPortOpen_endDriveCall.mpr hopen),
      fun hclosed => if_neg fun hopen => hclosed (hostPortOpen_endDriveCall.mp hopen)⟩
  · have hturn : nextTurn s = collaboratorTurn d rest s := by simp only [nextTurn, hs]
    rw [hturn]
    exact ⟨fun hopen => if_pos (driveCallOpen_iff.mpr hopen),
      fun hclosed => if_neg fun hopen => hclosed (driveCallOpen_iff.mp hopen)⟩
  · simp only [nextTurn, hs]
  · simp only [nextTurn, hs]

/-! ## The main context alone -/

/-- With no turn left the main context moves. -/
theorem step_eq_mainStep {s : State} (hs : s.schedule = []) (hr : rstate s ≠ none) (hp : phase s ≠ none) :
    step s = mainStep s := by
  rw [step_eq_nextTurn hr hp]
  simp only [nextTurn, hs]

theorem step_phase {s : State} {p : Phase} (hs : s.schedule = []) (hr : rstate s = some .idle) (hp : phase s = some p)
    (hc : s.call = .idle) : step s = exec (phaseInstr p) s :=
  (step_eq_mainStep hs (by simp [hr]) (by simp [hp])).trans (mainStep_phase hr hp hc)

theorem step_handling {s : State} {c : Command} {i : Instr} (hs : s.schedule = []) (hh : Handling c s)
    (hp : phase s ≠ none)
    (hi : instrOfCommand c = some i) : step s = closeHandle s.call (exec i s) :=
  (step_eq_mainStep hs (by simp [hh.idle]) hp).trans (mainStep_handling hh hp hi)

theorem stepTimes_succ {s t : State} (n : Nat) (h : step s = .next t) : stepTimes (n + 1) s = stepTimes n t := by
  simp only [stepTimes, h]

theorem stepTimes_refused {s : State} {r : Refusal} (n : Nat) (h : step s = .refused r) :
    stepTimes (n + 1) s = .refused r := by
  simp only [stepTimes, h]

/-- A call that waits for its NOW is not ended by the reader's steps. -/
theorem closeHandle_next_of_awaitsNow {b : LoopCall} {t : State} (h : t.call.awaitsNow = true) :
    closeHandle b (.next t) = .next t := by
  simp [closeHandle, h]

theorem step_reader {s : State} {r : RState} (hs : s.schedule = []) (hp : phase s ≠ none) (hr : rstate s = some r)
    (hne : r ≠ .idle) (hc : s.call.awaitsNow = true) : step s = .next (readerStep r s) := by
  rw [step_eq_mainStep hs (by simp [hr]) hp, mainStep_busy hp hr hne, exec_readerInstr hr hne]
  exact closeHandle_next_of_awaitsNow ((readerStep_call r s).symm ▸ hc)

/-- The state behind a NOW that the loop issued as `c` and no event met: the sample is the clock time. -/
def sampled (c : LoopCall) (s : State) : State :=
  { s with t1 := s.ticks, sLatch := s.sub, t2 := s.ticks, nowval := nowSample (latched s), rctl := 0x0#4, call := c,
           driveCall := false }

/-- The loop's NOW, issue and four reads, when only the main context moves. -/
theorem stepTimes_now {c : LoopCall} {s : State} (n : Nat) (hs : s.schedule = []) (hp : phase s ≠ none)
    (hw : rwait s = false) (hc : c.awaitsNow = true) (hissue : step s = .next (issueNow c s)) :
    stepTimes (n + 5) s = stepTimes n (sampled c s) := by
  have h₁ := step_reader (s := issueNow c s) hs (phase_issueNow c s ▸ hp) (rstate_issueNow c s) (by decide) hc
  have h₂ := step_reader (s := readerStep .t1 (issueNow c s)) hs (phase_issueNow c s ▸ hp)
    (rstate_setRState ..) (by decide) hc
  have h₃ := step_reader (s := readerStep .s (readerStep .t1 (issueNow c s))) hs (phase_issueNow c s ▸ hp)
    (rstate_setRState ..) (by decide) hc
  have h₄ := step_reader (s := latched (issueNow c s)) (r := .cmp) hs (phase_issueNow c s ▸ hp)
    (by simp [rstate, latched]) (by decide) hc
  rw [readerStep_latched] at h₃
  have hend : readerStep .cmp (latched (issueNow c s)) = sampled c s := by
    have hne : c ≠ .idle := fun h => by simp [h, LoopCall.awaitsNow] at hc
    rw [readerStep_cmp_of_eq rfl, finishAttempt_now (by simp [hw]), if_neg fun h => hne h.1]
    rfl
  rw [hend] at h₄
  rw [stepTimes_succ (n + 4) hissue, stepTimes_succ (n + 3) h₁, stepTimes_succ (n + 2) h₂, stepTimes_succ (n + 1) h₃,
    stepTimes_succ n h₄]

/-! ## From reset (R231) -/

/-- The clock reads 0 at reset, whatever the parameters. -/
theorem clockUs_resetOf (c : Config) : clockUs (State.resetOf c) = 0 := by
  have hsub : subUs c (State.resetOf c).sub = 0 := by
    unfold subUs
    obtain h | h := Nat.eq_zero_or_pos c.subMod
    · rw [h, Nat.div_zero]
    · rw [subPhase_resetOf h, Nat.zero_mul, Nat.zero_div]
  show 0 * Config.usPerTick + subUs c (State.resetOf c).sub = 0
  rw [hsub, Nat.zero_mul]

/-- The state behind the due test of the first SCHED. -/
def firstIteration (c : Config) : State :=
  schedTest { sampled .schedNow (State.resetOf c) with call := .idle }

theorem nowval_sampled_resetOf (c : Config) : (sampled .schedNow (State.resetOf c)).nowval = 0#64 := by
  show BitVec.ofNat 64 (clockUs (State.resetOf c)) = 0#64
  rw [clockUs_resetOf]

/-- NEXT_RUN at 0 is due: the first iteration starts, and the next is due one period after 0. -/
theorem firstIteration_eq (c : Config) : firstIteration c =
    setPhase .poll { sampled .schedNow (State.resetOf c) with call := .idle, nextRun := Config.loopPeriod } := by
  have hn : (sampled .schedNow (State.resetOf c)).nowval + Config.loopPeriod = Config.loopPeriod := by
    rw [nowval_sampled_resetOf]
    rfl
  have hdue := schedTest_due (s := { sampled .schedNow (State.resetOf c) with call := .idle }) (Nat.zero_le _)
  dsimp only at hdue
  rwa [hn] at hdue

/-- The first SCHED, its NOW and its due test. -/
theorem stepTimes_firstIteration (c : Config) (n : Nat) :
    stepTimes (n + 6) (State.resetOf c) = stepTimes n (firstIteration c) := by
  have hissue : step (State.resetOf c) = .next (issueNow .schedNow (State.resetOf c)) := by
    rw [step_phase rfl (rstate_resetOf c) (phase_resetOf c) rfl]
    exact exec_sched_issue (phase_resetOf c) (rstate_resetOf c) rfl
  have hr : rstate (sampled .schedNow (State.resetOf c)) = some .idle := rfl
  have hp : phase (sampled .schedNow (State.resetOf c)) = some .wait := rfl
  have hdue : step (sampled .schedNow (State.resetOf c)) = .next (firstIteration c) := by
    rw [step_eq_mainStep rfl (by simp [hr]) (by simp [hp]), mainStep_schedNow hr (by simp [hp]) rfl]
    exact exec_sched_complete hp hr rfl
  rw [stepTimes_now (n + 1) rfl (by simp) (rwait_resetOf c) rfl hissue, stepTimes_succ n hdue]

/-- POLL with nothing in the slot, then EDGE from EN_PREV clear, when only the main context moves. -/
theorem stepTimes_poll_edge {s : State} (hs : s.schedule = []) (hp : phase s = some .poll) (hr : rstate s = some .idle)
    (hc : s.call = .idle) (hready : s.slot.ready = false) (hprev : enPrev s = false) :
    ∃ t, stepTimes 2 s = .next t ∧ phase t = some .eval ∧ enPrev t = s.motion.enabled ∧
      t.drives = s.drives ++ (if s.motion.enabled then [.enable] else []) := by
  have hpoll : step s = .next (endPoll (endDriveCall s)) := by
    rw [step_phase hs hr hp hc]
    refine (exec_poll_of_none hp hr hc (pollResult_eq_none fun h => absurd (hready.symm.trans h) (by decide))).trans ?_
    rw [afterPoll_of_not_ready hready]
  generalize hu : endPoll (endDriveCall s) = u at hpoll
  have hpu : phase u = some .edge := by rw [← hu, phase_endPoll]
  have hru : rstate u = some .idle := by rw [← hu]; exact hr
  have hcu : u.call = .idle := by rw [← hu]; rfl
  have hprevu : enPrev u = false := by rw [← hu, enPrev_endPoll]; exact hprev
  have hmu : u.motion = s.motion := by rw [← hu]; rfl
  have hdu : u.drives = s.drives := by rw [← hu]; rfl
  have hedge : step u = exec .edge u := step_phase (by rw [← hu]; exact hs) hru hpu hcu
  rw [stepTimes_succ 1 hpoll, ← hmu, ← hdu]
  cases hen : u.motion.enabled with
  | true =>
    rw [exec_edge_of_some hpu hru hcu (edgeCommand_eq_some.mpr (.inl ⟨hen, hprevu, rfl⟩))] at hedge
    exact ⟨_, stepTimes_succ 0 hedge, phase_endEdge _, (enPrev_endEdge _).trans hen, rfl⟩
  | false =>
    rw [exec_edge_of_none hpu hru hcu (edgeCommand_eq_none (hen.trans hprevu.symm))] at hedge
    exact ⟨_, stepTimes_succ 0 hedge, phase_endEdge _, (enPrev_endEdge _).trans hen, (List.append_nil _).symm⟩

/-- Settles O30: SCHED, POLL with nothing in the slot, and EDGE from EN_PREV clear. -/
theorem firstIterationStartsAtOnce : Obligations.FirstIterationStartsAtOnce := by
  unfold Obligations.FirstIterationStartsAtOnce
  intro c
  have hfirst := stepTimes_firstIteration c
  rw [firstIteration_eq] at hfirst
  have hp := phase_setPhase .poll
    { sampled .schedNow (State.resetOf c) with call := .idle, nextRun := Config.loopPeriod }
  refine ⟨⟨_, hfirst 0, nowval_sampled_resetOf c, rfl, hp⟩, ?_⟩
  obtain ⟨t, hrun, hpt, hprev, hdrives⟩ :=
    stepTimes_poll_edge rfl hp rfl rfl rfl ((enPrev_setPhase ..).trans (enPrev_resetOf c))
  exact ⟨t, (hfirst 2).trans hrun, hpt, hprev, hdrives⟩

end Sys2Proof.Machine
end

