-- ==== Sys2Proof/Proofs/VerifiedCommands.lean ====
section
/-! The planner's commands where they complete (R173 to R178), and a verified command from its claim to the end of POLL
(R131, R169 to R176). -/

namespace Sys2Proof.Machine

/-! ## `sr` (R173) -/

theorem trunc_of_fin {x : F64} {neg : Bool} {m : Nat} (h : F64.value x = .fin neg m) :
    F64.trunc x = some (if neg then -((m >>> 1074 : Nat) : Int) else ((m >>> 1074 : Nat) : Int)) := by
  simp only [F64.trunc, h]

theorem trunc_of_not_fin {x : F64} (h : ∀ neg m, F64.value x ≠ .fin neg m) : F64.trunc x = none := by
  unfold F64.trunc
  split
  · rfl
  · rfl
  · exact absurd ‹_› (h _ _)

/-- The whole part of `m / 2^k`. -/
theorem shiftRight_bounds (m k : Nat) : (m >>> k) * 2 ^ k ≤ m ∧ m < (m >>> k + 1) * 2 ^ k := by
  rw [Nat.shiftRight_eq_div_pow]
  exact ⟨Nat.div_mul_le_self m _, Nat.lt_mul_of_div_lt (Nat.lt_succ_self _) (Nat.two_pow_pos k)⟩

theorem sprOperand_of_fits {c : Config} {v : F64} {n : Int} (hn : F64.trunc v = some n) (h : fitsSigned c.sprW n = true) :
    sprOperand c v = .ok n := by
  simp only [sprOperand, hn, h, if_true]

theorem sprOperand_outOfRange {c : Config} {v : F64} (h : ∀ n, F64.trunc v = some n → fitsSigned c.sprW n = false) :
    sprOperand c v = .error .srOutOfRange := by
  unfold sprOperand
  cases hn : F64.trunc v with
  | none => rfl
  | some n => simp [h n hn]

theorem exec_sr_of_fits {v : F64} {s : State} {n : Int} (hn : F64.trunc v = some n)
    (hlow : -(2 ^ (s.cfg.sprW - 1) : Int) ≤ n) (hhigh : n < 2 ^ (s.cfg.sprW - 1)) :
    exec (.sr v) s = .next { s with motion := { s.motion with stepsPerRev := n } } := by
  simp only [exec, execSr, sprOperand_of_fits hn (fitsSigned_iff.mpr ⟨hlow, hhigh⟩)]

theorem exec_sr_outOfRange {v : F64} {s : State}
    (h : ∀ n, F64.trunc v = some n → ¬ (-(2 ^ (s.cfg.sprW - 1) : Int) ≤ n ∧ n < 2 ^ (s.cfg.sprW - 1))) :
    exec (.sr v) s = .refused .srOutOfRange := by
  simp only [exec, execSr, sprOperand_outOfRange fun n hn =>
    Bool.eq_false_iff.mpr fun hfits => h n hn (fitsSigned_iff.mp hfits)]

/-- Settles O49: the truncation is the quotient by the scale, and `sr` stores it where it fits. -/
theorem srStoresTheTruncation : Obligations.SrStoresTheTruncation := by
  unfold Obligations.SrStoresTheTruncation
  refine ⟨fun x neg m h => ⟨_, trunc_of_fin h, ?_⟩, fun x => trunc_of_not_fin,
    fun v s => ⟨fun n => exec_sr_of_fits, exec_sr_outOfRange⟩⟩
  have habs : (if neg then -((m >>> 1074 : Nat) : Int) else ((m >>> 1074 : Nat) : Int)).natAbs = m >>> 1074 := by
    cases neg
    · exact Int.natAbs_natCast _
    · exact (Int.natAbs_neg _).trans (Int.natAbs_natCast _)
  obtain ⟨hle, hlt⟩ := shiftRight_bounds m 1074
  rw [habs]
  exact ⟨hle, hlt, fun h => by rw [if_pos h]; omega, fun h => by rw [if_neg (by simp [h])]; omega⟩

/-! ## `tp` and `tv` (R174, R175, R178) -/

/-- With its limits good, the evaluation answers. -/
theorem evaluate_ok {m : Motion} (now : Word) (h : ¬ badLimitAt m) : ∃ e, evaluate binary64 m now = .ok e := by
  simp only [badLimitAt, not_or, not_and, Bool.not_eq_false] at h
  obtain ⟨ha, hv⟩ : limitOk binary64 m.maxAcceleration = true ∧
    (m.stopNeeded = false → m.mode = .position → limitOk binary64 m.maxVelocity = true) := h
  unfold evaluate
  by_cases hbranch : (m.stopNeeded || decide (m.mode = .velocity)) = true
  · rw [if_pos hbranch, if_pos ha]
    exact ⟨_, rfl⟩
  · rw [if_neg hbranch]
    simp only [Bool.or_eq_true, decide_eq_true_eq, not_or, Bool.not_eq_true] at hbranch
    obtain ⟨hstop, hmode⟩ := hbranch
    have hpos : m.mode = .position := by
      cases hm : m.mode with
      | position => rfl
      | velocity => exact absurd hm hmode
    rw [if_pos (Bool.and_eq_true_iff.mpr ⟨ha, hv hstop hpos⟩)]
    exact ⟨_, rfl⟩

/-- MotionState behind a `tp` with sample `n`. -/
def tpMotion (v : F64) (n : Word) (e : Evaluation) (m : Motion) : Motion :=
  { m with targetPosition := v, mode := .position, t0 := n, p0 := e.pos, v0 := e.vel, stopNeeded := true }

/-- MotionState behind a `tv` with sample `n`. -/
def tvMotion (v : F64) (n : Word) (e : Evaluation) (m : Motion) : Motion :=
  { m with targetVelocity := v, mode := .velocity, t0 := n, p0 := e.pos, v0 := e.vel, stopNeeded := false }

theorem exec_tp_complete {v : F64} {s : State} {e : Evaluation} (hr : rstate s = some .idle)
    (hc : s.call = .handleNow ⟨codeTp, v⟩) (he : evaluate binary64 s.motion s.nowval = .ok e) :
    exec (.tp v) s = .next { s with call := .idle, motion := tpMotion v s.nowval e s.motion } := by
  refine (withNow_complete hr hc).trans ?_
  simp only [targetPositionSet, capture, he]
  rfl

theorem exec_tv_complete {v : F64} {s : State} {e : Evaluation} (hr : rstate s = some .idle)
    (hc : s.call = .handleNow ⟨codeTv, v⟩) (he : evaluate binary64 s.motion s.nowval = .ok e) :
    exec (.tv v) s = .next { s with call := .idle, motion := tvMotion v s.nowval e s.motion } := by
  refine (withNow_complete hr hc).trans ?_
  simp only [targetVelocitySet, capture, he]
  rfl

/-- Settles O50: the NOW is issued, and with it complete the old trajectory is captured or refused. -/
theorem tpCapturesAndForcesAStop : Obligations.TpCapturesAndForcesAStop := by
  unfold Obligations.TpCapturesAndForcesAStop
  intro v s hr
  refine ⟨fun hc hw => ?_, fun hc hgood => ?_, fun hc hbad => ?_⟩
  · rw [← issueNow_eq _ hw]
    exact withNow_issue hr (by rw [hc]; rfl) rfl
  · obtain ⟨e, he⟩ := evaluate_ok s.nowval hgood
    exact ⟨e, he, exec_tp_complete hr hc he⟩
  · refine (withNow_complete hr hc).trans ?_
    simp only [targetPositionSet, capture, evaluate_badLimit _ hbad]

/-- Settles O51: as O50. -/
theorem tvCapturesAndClearsTheStop : Obligations.TvCapturesAndClearsTheStop := by
  unfold Obligations.TvCapturesAndClearsTheStop
  intro v s hr
  refine ⟨fun hc hw => ?_, fun hc hgood => ?_, fun hc hbad => ?_⟩
  · rw [← issueNow_eq _ hw]
    exact withNow_issue hr (by rw [hc]; rfl) rfl
  · obtain ⟨e, he⟩ := evaluate_ok s.nowval hgood
    exact ⟨e, he, exec_tv_complete hr hc he⟩
  · refine (withNow_complete hr hc).trans ?_
    simp only [targetVelocitySet, capture, evaluate_badLimit _ hbad]

/-! ## From the claim to the end of POLL -/

/-- The state in which POLL's `poll()` has returned `c` (R131, R165). -/
def claimed (c : Command) (s : State) : State :=
  { s with slot := ⟨false, c⟩, dprev := some c, dcur := some c, call := .handle c, driveCall := false }

/-- The main context alone at P_POLL, with a second copy of `c` ready. -/
structure PollsVerified (c : Command) (s : State) : Prop where
  schedule : s.schedule = []
  phase : phase s = some .poll
  idle : rstate s = some .idle
  call : s.call = .idle
  slot : s.slot = ⟨true, c⟩
  dcur : s.dcur = some c

theorem PollsVerified.step {c : Command} {s : State} (h : PollsVerified c s) : step s = .next (claimed c s) := by
  rw [step_phase h.schedule h.idle h.phase h.call]
  have hpoll := exec_poll_verified h.phase h.idle h.call (by rw [h.slot]) (by rw [h.slot, h.dcur])
  simp only [h.slot, h.dcur] at hpoll
  exact hpoll

/-- The handling of a claimed command is its instruction's step, or the end of POLL on an unknown code. -/
theorem PollsVerified.step_claimed {c : Command} {i : Instr} {s : State} (h : PollsVerified c s)
    (hi : instrOfCommand c = some i) :
    Machine.step (claimed c s) = closeHandle (.handle c) (exec i (claimed c s)) := by
  have hp : Machine.phase (claimed c s) = some .poll := h.phase
  exact step_handling h.schedule ⟨.inl rfl, h.idle⟩ (by simp [hp]) hi

/-- POLL ended, with MotionState `m`. -/
def polled (c : Command) (m : Motion) (s : State) : State := endPoll { claimed c s with motion := m }

/-- A command that writes MotionState at once takes effect in the second step. -/
theorem PollsVerified.stepTimes_two {c : Command} {i : Instr} {m : Motion} {s : State} (h : PollsVerified c s)
    (hi : instrOfCommand c = some i) (he : exec i (claimed c s) = .next { claimed c s with motion := m }) :
    stepTimes 2 s = .next (polled c m s) := by
  have hstep := h.step_claimed hi
  rw [he] at hstep
  rw [stepTimes_succ 1 h.step, stepTimes_succ 0 hstep]
  rfl

/-- The instruction of a command with one of the six codes. -/
theorem instrOfCommand_of_code {c : Command} {i : Instr} {k : Code} (hk : c.code = k)
    (hi : commandOf i = some ⟨k, c.value⟩) : instrOfCommand c = some i := by
  subst hk
  exact instrOfCommand_commandOf hi

/-- Settles O53: the claim, and the command's own step, which ends POLL. -/
theorem verifiedCommandTakesEffect : Obligations.VerifiedCommandTakesEffect := by
  unfold Obligations.VerifiedCommandTakesEffect
  intro c s hs hp hr hc hslot hcur
  have h : PollsVerified c s := ⟨hs, hp, hr, hc, hslot, hcur⟩
  have hend (m : Motion) : polled c m s =
      { s with slot := ⟨false, c⟩, dprev := some c, dcur := some c, motion := m, sctl := ctl (enPrev s) 2#3,
               driveCall := false } := by
    simp only [polled, endPoll, setPhase, claimed, ← hc]
    rfl
  refine ⟨fun m hm => ?_, fun hk hrange => ?_⟩
  · rw [← hend]
    obtain ⟨hk, rfl⟩ | ⟨hk, rfl⟩ | ⟨hk, rfl⟩ | ⟨hk, n, hn, hlow, hhigh, rfl⟩ := hm
    · exact h.stepTimes_two (instrOfCommand_of_code (i := .en c.value) hk rfl) rfl
    · exact h.stepTimes_two (instrOfCommand_of_code (i := .mv c.value) hk rfl) rfl
    · exact h.stepTimes_two (instrOfCommand_of_code (i := .ma c.value) hk rfl) rfl
    · exact h.stepTimes_two (instrOfCommand_of_code (i := .sr c.value) hk rfl)
        (exec_sr_of_fits (s := claimed c s) hn hlow hhigh)
  · have hstep := h.step_claimed (instrOfCommand_of_code (i := .sr c.value) hk rfl)
    rw [exec_sr_outOfRange (s := claimed c s) hrange] at hstep
    rw [stepTimes_succ 1 h.step]
    exact stepTimes_refused 0 hstep

/-- The first three bytes of a line determine its two letters. -/
theorem wirePrefix_inj {k k' : Code} (h : wirePrefix k.l1 k.l2 chEq = wirePrefix k'.l1 k'.l2 chEq) : k = k' := by
  have hnat := congrArg BitVec.toNat h
  simp only [wirePrefix, append_toNat] at hnat
  have h2 := k.l2.isLt
  have h2' := k'.l2.isLt
  obtain ⟨l1, l2⟩ := k
  obtain ⟨l1', l2'⟩ := k'
  simp only [Code.mk.injEq, ← BitVec.toNat_inj]
  dsimp only at hnat h2 h2'
  omega

/-- A command with none of the six codes has no instruction (R176). -/
theorem instrOfCommand_unknown {c : Command} (h : c.code ≠ codeEn ∧ c.code ≠ codeMv ∧ c.code ≠ codeMa ∧
    c.code ≠ codeSr ∧ c.code ≠ codeTp ∧ c.code ≠ codeTv) : instrOfCommand c = none := by
  obtain ⟨hen, hmv, hma, hsr, htp, htv⟩ := h
  unfold instrOfCommand instrOfPrefix
  have other {k : Code} {p : BitVec 24} (hk : c.code ≠ k) (hp : wirePrefix k.l1 k.l2 chEq = p) :
      ¬ wirePrefix c.code.l1 c.code.l2 chEq = p := fun h => hk (wirePrefix_inj (h.trans hp.symm))
  rw [if_neg (other hen (by decide)), if_neg (other hmv (by decide)), if_neg (other hma (by decide)),
    if_neg (other hsr (by decide)), if_neg (other htp (by decide)), if_neg (other htv (by decide))]

/-- Settles O54: the claim, and the end of POLL. -/
theorem unknownCodeChangesNothing : Obligations.UnknownCodeChangesNothing := by
  unfold Obligations.UnknownCodeChangesNothing
  intro c s hs hp hr hc hslot hcur hk
  have h : PollsVerified c s := ⟨hs, hp, hr, hc, hslot, hcur⟩
  have hr' : rstate (claimed c s) = some .idle := hr
  have hp' : phase (claimed c s) = some .poll := hp
  have hstep : step (claimed c s) = .next (endPoll (claimed c s)) :=
    (step_eq_mainStep (s := claimed c s) hs (by simp [hr']) (by simp [hp'])).trans
      (mainStep_unknown ⟨.inl rfl, hr'⟩ (by simp [hp']) (instrOfCommand_unknown hk))
  rw [stepTimes_succ 1 h.step, stepTimes_succ 0 hstep]
  simp only [stepTimes, endPoll, setPhase, claimed, ← hc]
  rfl

/-! ## A verified target -/

/-- A verified `tp` or `tv` issues its NOW and completes with the sample, and the completion ends POLL. -/
theorem PollsVerified.stepTimes_target {c : Command} {i : Instr} {m : Motion} {s : State} (h : PollsVerified c s)
    (hw : rwait s = false) (hi : instrOfCommand c = some i)
    (hissue : exec i (claimed c s) = .next (issueNow (.handleNow c) (claimed c s)))
    (hend : exec i (sampled (.handleNow c) (claimed c s)) =
      .next { sampled (.handleNow c) (claimed c s) with call := .idle, motion := m }) :
    stepTimes 7 s = .next (endPoll { sampled (.handleNow c) (claimed c s) with motion := m }) := by
  have hp : Machine.phase (claimed c s) = some .poll := h.phase
  have hstep := h.step_claimed hi
  rw [hissue, closeHandle_next_of_awaitsNow rfl] at hstep
  have hlast : Machine.step (sampled (.handleNow c) (claimed c s)) =
      .next (endPoll { sampled (.handleNow c) (claimed c s) with motion := m }) := by
    refine (step_handling (c := c) (s := sampled (.handleNow c) (claimed c s)) h.schedule ⟨.inr rfl, rfl⟩
      (by rw [show Machine.phase (sampled (.handleNow c) (claimed c s)) = some .poll from hp]; simp) hi).trans ?_
    rw [hend]
    rfl
  rw [stepTimes_succ 6 h.step, stepTimes_now (s := claimed c s) 1 h.schedule (by simp [hp]) hw rfl hstep,
    stepTimes_succ 0 hlast]
  rfl

theorem codeTp_ne_codeTv : codeTp ≠ codeTv := by decide

/-- Settles O52: claim, NOW and capture, for either target. -/
theorem verifiedTargetRunsThroughItsOwnNow : Obligations.VerifiedTargetRunsThroughItsOwnNow := by
  unfold Obligations.VerifiedTargetRunsThroughItsOwnNow
  intro c s hclk hs hp hr hw hc hslot hcur hgood hk
  have h : PollsVerified c s := ⟨hs, hp, hr, hc, hslot, hcur⟩
  obtain ⟨e, he⟩ := evaluate_ok (nowSample (latched (claimed c s))) hgood
  have hn : (nowSample (latched (claimed c s))).toNat = clockUs s :=
    nowSample_latched (s := claimed c s) ⟨hclk.ticks_le, hclk.sub_lt⟩
  have hend (m : Motion) : endPoll { sampled (.handleNow c) (claimed c s) with motion := m } =
      { s with t1 := s.ticks, sLatch := s.sub, t2 := s.ticks, nowval := nowSample (latched (claimed c s)),
               rctl := 0x0#4, slot := ⟨false, c⟩, dprev := some c, dcur := some c, sctl := ctl (enPrev s) 2#3,
               driveCall := false, motion := m } := by
    simp only [endPoll, setPhase, sampled, claimed, ← hc]
    rfl
  obtain ⟨k, v⟩ := c
  dsimp only at hk
  obtain rfl | rfl := hk
  · refine ⟨_, e, tpMotion v _ e s.motion, hn, he, fun _ => rfl, fun hk => absurd hk codeTp_ne_codeTv, ?_⟩
    rw [← hend]
    exact h.stepTimes_target (i := .tp v) hw (instrOfCommand_commandOf rfl) (withNow_issue hr rfl rfl)
      (exec_tp_complete rfl rfl he)
  · refine ⟨_, e, tvMotion v _ e s.motion, hn, he, fun hk => absurd hk codeTp_ne_codeTv.symm, fun _ => rfl, ?_⟩
    rw [← hend]
    exact h.stepTimes_target (i := .tv v) hw (instrOfCommand_commandOf rfl) (withNow_issue hr rfl rfl)
      (exec_tv_complete rfl rfl he)

end Sys2Proof.Machine
end

