-- ==== Sys2Proof/Proofs/Evaluation.lean ====
section
/-! The Motion Planner's evaluation (R177 to R184) over any arithmetic: its branches, the forced stop and the step
target. -/

namespace Sys2Proof.Machine

/-! ## The branches -/

/-- The target of the velocity branch: 0 while a stop is needed (R177, R180). -/
def branchTarget (m : Motion) : F64 := if m.stopNeeded then F64.zero else m.targetVelocity

/-- What the velocity branch yields at `now`. -/
def velocitySample (A : Arith) (m : Motion) (now : Word) : Sample :=
  velocityBranch A m (branchTarget m) (elapsed A m.t0 now)

/-- The velocity branch, its acceleration limit good. -/
theorem evaluate_velocity {A : Arith} {m : Motion} (now : Word) (hbranch : m.stopNeeded = true ∨ m.mode = .velocity)
    (ha : A.lt F64.zero m.maxAcceleration = true) : evaluate A m now = .ok
      { pos := (velocitySample A m now).pos, vel := (velocitySample A m now).vel,
        motion := if m.stopNeeded && (velocitySample A m now).cruise
          then completeStop m now (velocitySample A m now).pos else m } := by
  have hb : (m.stopNeeded || decide (m.mode = .velocity)) = true := by simpa using hbranch
  unfold evaluate
  rw [if_pos hb, if_pos (show limitOk A m.maxAcceleration = true from ha)]
  rfl

/-- The Position branch, its limits good. -/
theorem evaluate_position {A : Arith} {m : Motion} (now : Word) (hstop : m.stopNeeded = false)
    (hmode : m.mode = .position) (ha : A.lt F64.zero m.maxAcceleration = true)
    (hv : A.lt F64.zero m.maxVelocity = true) : evaluate A m now = .ok
      { pos := (positionBranch A m (elapsed A m.t0 now)).pos, vel := (positionBranch A m (elapsed A m.t0 now)).vel,
        motion := m } := by
  have hb : ¬ (m.stopNeeded || decide (m.mode = .velocity)) = true := by simp [hstop, hmode]
  have hlimits : (limitOk A m.maxAcceleration && limitOk A m.maxVelocity) = true := Bool.and_eq_true_iff.mpr ⟨ha, hv⟩
  unfold evaluate
  rw [if_neg hb, if_pos hlimits]

/-- An evaluation that answers took one of the two branches. -/
theorem evaluate_ok_cases {A : Arith} {m : Motion} {now : Word} {e : Evaluation} (h : evaluate A m now = .ok e) :
    A.lt F64.zero m.maxAcceleration = true ∧
      ((m.stopNeeded = true ∨ m.mode = .velocity) ∨
        (m.stopNeeded = false ∧ m.mode = .position ∧ A.lt F64.zero m.maxVelocity = true)) := by
  have ha : A.lt F64.zero m.maxAcceleration = true := by
    by_contra ha
    rw [evaluate_of_bad_maxAcceleration now (Bool.eq_false_iff.mpr ha)] at h
    cases h
  refine ⟨ha, ?_⟩
  by_cases hbranch : m.stopNeeded = true ∨ m.mode = .velocity
  · exact .inl hbranch
  · obtain ⟨hstop, hmode⟩ := not_or.mp hbranch
    have hstop : m.stopNeeded = false := Bool.eq_false_iff.mpr hstop
    have hmode : m.mode = .position := by
      cases hm : m.mode with
      | position => rfl
      | velocity => exact absurd hm hmode
    refine .inr ⟨hstop, hmode, ?_⟩
    by_contra hv
    rw [evaluate_position_of_bad_maxVelocity now hstop hmode (Bool.eq_false_iff.mpr hv)] at h
    cases h

/-! ## The velocity branch (R180) -/

theorem velocityBranch_accelerating {A : Arith} {m : Motion} {vt t : F64}
    (h : A.lt t (A.div (F64.abs (A.sub vt m.v0)) m.maxAcceleration) = true) : velocityBranch A m vt t =
      { pos := A.add (A.add m.p0 (A.mul m.v0 t))
          (halfAtt A (A.mul m.maxAcceleration (signOf A (A.sub vt m.v0))) t)
        vel := A.add m.v0 (A.mul (A.mul m.maxAcceleration (signOf A (A.sub vt m.v0))) t)
        cruise := false } := if_pos h

theorem velocityBranch_cruising {A : Arith} {m : Motion} {vt t : F64}
    (h : A.lt t (A.div (F64.abs (A.sub vt m.v0)) m.maxAcceleration) = false) : velocityBranch A m vt t =
      { pos := A.add (A.add (A.add m.p0 (A.mul m.v0 (A.div (F64.abs (A.sub vt m.v0)) m.maxAcceleration)))
          (halfAtt A (A.mul m.maxAcceleration (signOf A (A.sub vt m.v0)))
            (A.div (F64.abs (A.sub vt m.v0)) m.maxAcceleration)))
          (A.mul vt (A.sub t (A.div (F64.abs (A.sub vt m.v0)) m.maxAcceleration)))
        vel := vt
        cruise := true } := if_neg (by simp [h])

/-- In its cruise phase the velocity branch is at its target. -/
theorem velocityBranch_vel_of_cruise {A : Arith} {m : Motion} {vt t : F64} (h : (velocityBranch A m vt t).cruise = true) :
    (velocityBranch A m vt t).vel = vt := by
  cases hlt : A.lt t (A.div (F64.abs (A.sub vt m.v0)) m.maxAcceleration) with
  | true =>
    rw [velocityBranch_accelerating hlt] at h
    cases h
  | false => rw [velocityBranch_cruising hlt]

/-- Settles O58: the two phases of the velocity branch. -/
theorem velocityBranchFormulas : Obligations.VelocityBranchFormulas := by
  unfold Obligations.VelocityBranchFormulas
  rintro A m now vt t tc a hbranch ha rfl rfl rfl rfl
  have heval := evaluate_velocity now hbranch ha
  refine ⟨fun hlt => ?_, fun hge => ⟨_, heval, ?_⟩⟩
  · have hsample : velocitySample A m now = _ := velocityBranch_accelerating hlt
    rw [heval, hsample, Bool.and_false]
    rfl
  · have hsample : velocitySample A m now = _ := velocityBranch_cruising hge
    rw [hsample, Bool.and_true]
    exact ⟨rfl, rfl, rfl⟩

/-! ## The Position branch (R181, R182) -/

theorem positionProfile_a (A : Arith) (m : Motion) :
    (positionProfile A m).a = A.mul (signOf A (A.sub m.targetPosition m.p0)) m.maxAcceleration := by
  unfold positionProfile
  dsimp only
  split <;> rfl

/-- The accelerating distance of the trapezoidal profile (R181). -/
def acceleratingDistance (A : Arith) (m : Motion) : F64 :=
  halfAtt A (positionProfile A m).a (A.div m.maxVelocity m.maxAcceleration)

theorem positionProfile_triangular {A : Arith} {m : Motion}
    (h : A.lt (A.mul F64.half (F64.abs (A.sub m.targetPosition m.p0))) (F64.abs (acceleratingDistance A m)) = true) :
    (positionProfile A m).p01 = A.mul F64.half (A.sub m.targetPosition m.p0) ∧ (positionProfile A m).p12 = F64.zero ∧
      (positionProfile A m).t12 = F64.zero ∧
      (positionProfile A m).t01 =
        A.sqrt (A.div (A.mul F64.two (F64.abs (positionProfile A m).p01)) m.maxAcceleration) := by
  rw [acceleratingDistance, positionProfile_a] at h
  unfold positionProfile
  dsimp only
  rw [if_pos h]
  exact ⟨rfl, rfl, rfl, rfl⟩

theorem positionProfile_trapezoidal {A : Arith} {m : Motion}
    (h : A.lt (A.mul F64.half (F64.abs (A.sub m.targetPosition m.p0))) (F64.abs (acceleratingDistance A m)) = false) :
    (positionProfile A m).t01 = A.div m.maxVelocity m.maxAcceleration ∧
      (positionProfile A m).p01 = halfAtt A (positionProfile A m).a (positionProfile A m).t01 ∧
      (positionProfile A m).p12 = A.sub (A.sub m.targetPosition m.p0) (A.mul F64.two (positionProfile A m).p01) ∧
      (positionProfile A m).t12 = A.div (F64.abs (positionProfile A m).p12) m.maxVelocity := by
  rw [acceleratingDistance, positionProfile_a] at h
  have h' := Bool.eq_false_iff.mp h
  unfold positionProfile
  dsimp only
  rw [if_neg h']
  exact ⟨rfl, rfl, rfl, rfl⟩

section
variable {A : Arith} {m : Motion} {t : F64}

theorem positionBranch_accelerating (h1 : A.lt t (positionProfile A m).t01 = true) : positionBranch A m t =
    { pos := A.add m.p0 (halfAtt A (positionProfile A m).a t)
      vel := A.mul (positionProfile A m).a t, cruise := false } :=
  if_pos h1

theorem positionBranch_cruising (h1 : A.lt t (positionProfile A m).t01 = false)
    (h2 : A.lt t (A.add (positionProfile A m).t01 (positionProfile A m).t12) = true) : positionBranch A m t =
      { pos := A.add (A.add m.p0 (positionProfile A m).p01)
          (A.mul (A.mul (positionProfile A m).a (positionProfile A m).t01) (A.sub t (positionProfile A m).t01))
        vel := A.mul (positionProfile A m).a (positionProfile A m).t01, cruise := false } :=
  (if_neg (Bool.eq_false_iff.mp h1)).trans (if_pos h2)

theorem positionBranch_decelerating {td : F64} (h1 : A.lt t (positionProfile A m).t01 = false)
    (h2 : A.lt t (A.add (positionProfile A m).t01 (positionProfile A m).t12) = false)
    (h3 : A.lt t (A.add (A.mul F64.two (positionProfile A m).t01) (positionProfile A m).t12) = true)
    (htd : td = A.sub (A.sub t (positionProfile A m).t01) (positionProfile A m).t12) : positionBranch A m t =
      { pos := A.sub (A.add (A.add (A.add m.p0 (positionProfile A m).p01) (positionProfile A m).p12)
          (A.mul (A.mul (positionProfile A m).a (positionProfile A m).t01) td)) (halfAtt A (positionProfile A m).a td)
        vel := A.sub (A.mul (positionProfile A m).a (positionProfile A m).t01) (A.mul (positionProfile A m).a td)
        cruise := false } := by
  subst htd
  exact (if_neg (Bool.eq_false_iff.mp h1)).trans ((if_neg (Bool.eq_false_iff.mp h2)).trans (if_pos h3))

theorem positionBranch_settled (h1 : A.lt t (positionProfile A m).t01 = false)
    (h2 : A.lt t (A.add (positionProfile A m).t01 (positionProfile A m).t12) = false)
    (h3 : A.lt t (A.add (A.mul F64.two (positionProfile A m).t01) (positionProfile A m).t12) = false) :
    positionBranch A m t = { pos := m.targetPosition, vel := F64.zero, cruise := false } :=
  (if_neg (Bool.eq_false_iff.mp h1)).trans ((if_neg (Bool.eq_false_iff.mp h2)).trans (if_neg (Bool.eq_false_iff.mp h3)))

end

/-- Settles O59: the two profiles, and the four phases in their order. -/
theorem positionBranchPhases : Obligations.PositionBranchPhases := by
  unfold Obligations.PositionBranchPhases
  rintro A m now t v1 f hstop hmode ha hv ht rfl rfl
  have heval := evaluate_position now hstop hmode ha hv
  rw [elapsed, ← ht] at heval
  rw [heval]
  refine ⟨positionProfile_a A m, positionProfile_triangular, positionProfile_trapezoidal, fun h1 => ?_, fun h1 h2 => ?_,
    fun h1 h2 h3 td htd => ?_, fun h1 h2 h3 => ?_⟩
  · rw [positionBranch_accelerating h1]
    rfl
  · rw [positionBranch_cruising h1 h2]
  · rw [positionBranch_decelerating h1 h2 h3 htd]
    rfl
  · rw [positionBranch_settled h1 h2 h3]

/-! ## The forced stop (R177) and the step target (R184) -/

/-- While a stop is needed the velocity branch runs toward 0. -/
theorem velocitySample_of_stop {A : Arith} {m : Motion} {now : Word} (h : m.stopNeeded = true) :
    velocitySample A m now = velocityBranch A m F64.zero (elapsed A m.t0 now) := by
  rw [velocitySample, branchTarget, if_pos h]

/-- A completed stop is one in its cruise phase: at velocity 0. -/
theorem evaluate_stop_completed {A : Arith} {m : Motion} {now : Word} {e : Evaluation} (hstop : m.stopNeeded = true)
    (h : evaluate A m now = .ok e) (hne : e.motion ≠ m) : e.vel = F64.zero := by
  rw [evaluate_velocity now (.inl hstop) (evaluate_ok_cases h).1, velocitySample_of_stop hstop] at h
  cases h
  cases hc : (velocityBranch A m F64.zero (elapsed A m.t0 now)).cruise with
  | true => exact velocityBranch_vel_of_cruise hc
  | false => exact absurd (by simp [hc]) hne

/-- Settles O56: the evaluation writes only the completed stop; and while a stop is needed it reads neither the mode nor
the targets. -/
theorem evaluationWritesOnlyTheForcedStop : Obligations.EvaluationWritesOnlyTheForcedStop := by
  unfold Obligations.EvaluationWritesOnlyTheForcedStop
  refine ⟨fun A m now e h => ?_, fun A m now k x y e hstop h => ?_⟩
  · obtain hm | ⟨hstop, hm⟩ := evaluate_motion h
    · exact .inl hm
    · by_cases hsame : e.motion = m
      · exact .inl hsame
      · exact .inr ⟨hstop, evaluate_stop_completed hstop h hsame, hm⟩
  · have ha := (evaluate_ok_cases h).1
    rw [evaluate_velocity now (.inl hstop) ha, velocitySample_of_stop hstop] at h
    cases h
    refine ⟨_, evaluate_velocity (m := { m with mode := k, targetPosition := x, targetVelocity := y }) now (.inl hstop)
      ha, ?_⟩
    rw [velocitySample_of_stop (m := { m with mode := k, targetPosition := x, targetVelocity := y }) hstop]
    exact ⟨rfl, rfl⟩

/-- Settles O60: the step target is what `degreesToSteps` gives where it fits. -/
theorem targetStepsTruncatesTheScaledPosition : Obligations.TargetStepsTruncatesTheScaledPosition := by
  unfold Obligations.TargetStepsTruncatesTheScaledPosition
  intro A c m now e he
  exact ⟨fun n hn hlow hhigh => targetSteps_of_fits he hn (fitsSigned_iff.mpr ⟨hlow, hhigh⟩),
    fun hn => targetSteps_outOfRange he fun n hn' =>
      Bool.eq_false_iff.mpr fun hfits => hn n hn' (fitsSigned_iff.mp hfits)⟩

end Sys2Proof.Machine
end

