-- ==== Sys2Proof/Proofs/Rounding.lean ====
section
/-! Rounding (R183, D24): the quotient of integers to nearest even, the unit in the last place, and the pattern `roundQ`
writes. A finite pattern is a significand below `2^53` times a power of two, and the quotient rounded to the grid of its
last place is nearest among all of them. -/

namespace Sys2Proof.Machine

/-! ## The integer rounding -/

theorem roundDiv_eq (n d : Nat) : F64.roundDiv n d =
    if 2 * (n % d) > d ∨ (2 * (n % d) = d ∧ n / d % 2 = 1) then n / d + 1 else n / d := rfl

/-- Settles O7: up or down by the remainder, twice which is compared with the divisor. -/
theorem quotientRoundsToNearestEven : Obligations.QuotientRoundsToNearestEven := by
  unfold Obligations.QuotientRoundsToNearestEven
  intro n d hd
  have hr := Nat.mod_lt n hd
  have hn := Nat.div_add_mod' n d
  rw [roundDiv_eq]
  split
  · rw [Nat.add_mul, Nat.one_mul]
    omega
  · omega

/-- The rounding depends on the quotient alone. -/
theorem roundDiv_mul_right (n d : Nat) {c : Nat} (hc : 0 < c) : F64.roundDiv (n * c) (d * c) = F64.roundDiv n d := by
  have hgt : 2 * (n % d * c) > d * c ↔ 2 * (n % d) > d := by
    rw [← Nat.mul_assoc]
    exact Nat.mul_lt_mul_right hc
  have heq : 2 * (n % d * c) = d * c ↔ 2 * (n % d) = d := by
    rw [← Nat.mul_assoc]
    exact Nat.mul_left_inj hc.ne'
  simp only [roundDiv_eq, Nat.mul_div_mul_right _ _ hc, Nat.mul_mod_mul_right, hgt, heq]

/-- No multiple of the divisor is nearer than the rounded one. -/
theorem roundDiv_nearest (n d c : Nat) (hd : 0 < d) :
    ((F64.roundDiv n d * d : Nat) - n : Int).natAbs ≤ ((c * d : Nat) - n : Int).natAbs := by
  obtain ⟨hhigh, hlow, -⟩ := quotientRoundsToNearestEven n d hd
  rcases Nat.lt_trichotomy c (F64.roundDiv n d) with hlt | rfl | hgt
  · have := Nat.mul_le_mul_right d hlt
    rw [Nat.succ_mul] at this
    omega
  · exact le_rfl
  · have := Nat.mul_le_mul_right d hgt
    rw [Nat.succ_mul] at this
    omega

/-- A quotient at most an integer is rounded to at most that integer. -/
theorem roundDiv_le {n d c : Nat} (hd : 0 < d) (h : n ≤ c * d) : F64.roundDiv n d ≤ c := by
  by_contra hgt
  obtain ⟨hhigh, -, heven⟩ := quotientRoundsToNearestEven n d hd
  have := Nat.mul_le_mul_right d (Nat.lt_of_not_le hgt)
  rw [Nat.succ_mul] at this
  omega

theorem le_roundDiv {n d c : Nat} (hd : 0 < d) (h : c * d ≤ n) : c ≤ F64.roundDiv n d := by
  by_contra hlt
  obtain ⟨-, hlow, -⟩ := quotientRoundsToNearestEven n d hd
  have := Nat.mul_le_mul_right d (Nat.lt_of_not_le hlt)
  rw [Nat.succ_mul] at this
  omega

theorem roundDiv_mul_self (c : Nat) {d : Nat} (hd : 0 < d) : F64.roundDiv (c * d) d = c :=
  Nat.le_antisymm (roundDiv_le hd le_rfl) (le_roundDiv hd le_rfl)

/-! ## The unit in the last place -/

/-- The comparison with a power of two, on any scale that makes the exponent a natural number. -/
theorem pow2Le_iff {e : Int} {n d : Nat} (k : Nat) (h : 0 ≤ e + k) :
    F64.pow2Le e n d = true ↔ d * 2 ^ (e + k).toNat ≤ n * 2 ^ k := by
  unfold F64.pow2Le
  split
  · rw [show (e + k).toNat = e.toNat + k by omega, pow_add, ← Nat.mul_assoc, decide_eq_true_iff, Nat.shiftLeft_eq]
    exact (Nat.mul_le_mul_right_iff (Nat.two_pow_pos k)).symm
  · have hk : 2 ^ k = 2 ^ (-e).toNat * 2 ^ (e + k).toNat := by
      rw [← pow_add]
      congr 1
      omega
    rw [hk, ← Nat.mul_assoc, decide_eq_true_iff, Nat.shiftLeft_eq]
    exact (Nat.mul_le_mul_right_iff (Nat.two_pow_pos _)).symm

theorem pow2Le_of_le {e e' : Int} {n d : Nat} (hle : e ≤ e') (h : F64.pow2Le e' n d = true) :
    F64.pow2Le e n d = true := by
  rw [pow2Le_iff e.natAbs (by omega)] at h ⊢
  exact (Nat.mul_le_mul_left d (Nat.pow_le_pow_right Nat.two_pos (by omega))).trans h

/-- The quotient lies between two powers of two that the difference of the logarithms brackets. -/
theorem pow2Le_log2 {n d : Nat} (hn : n ≠ 0) (hd : d ≠ 0) :
    F64.pow2Le ((n.log2 : Int) - d.log2 - 1) n d = true ∧ F64.pow2Le ((n.log2 : Int) - d.log2 + 1) n d = false := by
  have hn1 := Nat.log2_self_le hn
  have hn2 := @Nat.lt_log2_self n
  have hd1 := Nat.log2_self_le hd
  have hd2 := @Nat.lt_log2_self d
  have hscale : ∀ a b c, a + b = c → (2 ^ a * 2 ^ b : Nat) = 2 ^ c := fun a b c h => by rw [← pow_add, h]
  constructor
  · rw [pow2Le_iff (d.log2 + 1) (by omega)]
    calc d * 2 ^ ((n.log2 : Int) - d.log2 - 1 + (d.log2 + 1 : Nat)).toNat
        ≤ 2 ^ (d.log2 + 1) * 2 ^ n.log2 := Nat.mul_le_mul hd2.le (Nat.pow_le_pow_right Nat.two_pos (by omega))
      _ ≤ n * 2 ^ (d.log2 + 1) := by rw [Nat.mul_comm]; exact Nat.mul_le_mul_right _ hn1
  · rw [Bool.eq_false_iff, ne_eq, pow2Le_iff d.log2 (by omega), Nat.not_le]
    calc n * 2 ^ d.log2
        < 2 ^ (n.log2 + 1) * 2 ^ d.log2 := Nat.mul_lt_mul_of_pos_right hn2 (Nat.two_pow_pos _)
      _ = 2 ^ d.log2 * 2 ^ ((n.log2 : Int) - d.log2 + 1 + d.log2).toNat := by
        rw [Nat.mul_comm, show ((n.log2 : Int) - d.log2 + 1 + d.log2).toNat = n.log2 + 1 by omega]
      _ ≤ d * 2 ^ ((n.log2 : Int) - d.log2 + 1 + d.log2).toNat := Nat.mul_le_mul_right _ hd1

/-- The exponent of the unit counted from the least one. -/
def ulpShift (n d : Nat) : Nat := (F64.ulpExp n d + 1074).toNat

theorem ulpExp_ge (n d : Nat) : -1074 ≤ F64.ulpExp n d := le_max_right _ _

theorem ulpExp_eq (n d : Nat) : F64.ulpExp n d = (ulpShift n d : Int) - 1074 := by
  have := ulpExp_ge n d
  unfold ulpShift
  omega

/-- The quotient in units of the last place is below `2^53`, and it is at least `2^52` unless the unit is the least
one. -/
theorem ulpExp_bounds {n d : Nat} (hn : n ≠ 0) (hd : d ≠ 0) : F64.pow2Le (F64.ulpExp n d + 53) n d = false ∧
    (-1074 < F64.ulpExp n d → F64.pow2Le (F64.ulpExp n d + 52) n d = true) := by
  obtain ⟨hbelow, habove⟩ := pow2Le_log2 hn hd
  have hmono {e e' : Int} (hle : e ≤ e') (h : F64.pow2Le e n d = false) : F64.pow2Le e' n d = false :=
    Bool.eq_false_iff.mpr fun h' => Bool.eq_false_iff.mp h (pow2Le_of_le hle h')
  unfold F64.ulpExp
  dsimp only
  cases h : F64.pow2Le ((n.log2 : Int) - d.log2) n d with
  | true =>
    rw [if_pos rfl]
    exact ⟨hmono (by omega) habove, fun hgt => pow2Le_of_le (by omega) h⟩
  | false =>
    rw [if_neg Bool.false_ne_true]
    exact ⟨hmono (by omega) h, fun hgt => pow2Le_of_le (by omega) hbelow⟩

theorem lt_ulpShift {n d : Nat} (hn : n ≠ 0) (hd : d ≠ 0) : n * 2 ^ 1074 < 2 ^ 53 * (d * 2 ^ ulpShift n d) := by
  have h := (ulpExp_bounds hn hd).1
  rw [Bool.eq_false_iff, ne_eq, ulpExp_eq, pow2Le_iff 1074 (by omega), Nat.not_le,
    show ((ulpShift n d : Int) - 1074 + 53 + (1074 : Nat)).toNat = 53 + ulpShift n d by omega, pow_add] at h
  rwa [Nat.mul_left_comm]

theorem ulpShift_le {n d : Nat} (hn : n ≠ 0) (hd : d ≠ 0) (hpos : 0 < ulpShift n d) :
    2 ^ 52 * (d * 2 ^ ulpShift n d) ≤ n * 2 ^ 1074 := by
  have h := (ulpExp_bounds hn hd).2
  rw [ulpExp_eq] at h
  have h := h (by omega)
  rw [pow2Le_iff 1074 (by omega),
    show ((ulpShift n d : Int) - 1074 + 52 + (1074 : Nat)).toNat = 52 + ulpShift n d by omega, pow_add] at h
  rwa [Nat.mul_left_comm]

/-! ## The pattern -/

/-- The quotient in units of the last place, rounded. -/
def roundedUnits (n d : Nat) : Nat := F64.roundDiv (n * 2 ^ 1074) (d * 2 ^ ulpShift n d)

/-- The magnitude a pattern without its sign stands for, in units of `2^-1074`. -/
def magnitude (b : Nat) : Nat := if b / 2 ^ 52 = 0 then b % 2 ^ 52 else (2 ^ 52 + b % 2 ^ 52) * 2 ^ (b / 2 ^ 52 - 1)

theorem roundedUnits_le {n d : Nat} (hn : n ≠ 0) (hd : 0 < d) : roundedUnits n d ≤ 2 ^ 53 :=
  roundDiv_le (Nat.mul_pos hd (Nat.two_pow_pos _)) (lt_ulpShift hn hd.ne').le

theorem le_roundedUnits {n d : Nat} (hn : n ≠ 0) (hd : 0 < d) (hpos : 0 < ulpShift n d) : 2 ^ 52 ≤ roundedUnits n d :=
  le_roundDiv (Nat.mul_pos hd (Nat.two_pow_pos _)) (ulpShift_le hn hd.ne' hpos)

theorem roundQ_zero (neg : Bool) (d : Nat) : F64.roundQ neg 0 d = F64.signedZero neg := if_pos rfl

theorem roundQ_eq (neg : Bool) {n d : Nat} (hn : n ≠ 0) : F64.roundQ neg n d =
    if 0x7FF0000000000000 ≤ ulpShift n d * 2 ^ 52 + roundedUnits n d then F64.infinity neg
    else F64.withSign neg (ulpShift n d * 2 ^ 52 + roundedUnits n d) := by
  have hunits : F64.roundDiv (if 0 ≤ F64.ulpExp n d then n else n <<< (-F64.ulpExp n d).toNat)
      (if 0 ≤ F64.ulpExp n d then d <<< (F64.ulpExp n d).toNat else d) = roundedUnits n d := by
    have he := ulpExp_eq n d
    unfold roundedUnits
    by_cases hsign : 0 ≤ F64.ulpExp n d
    · rw [if_pos hsign, if_pos hsign, Nat.shiftLeft_eq,
        show ulpShift n d = (F64.ulpExp n d).toNat + 1074 by omega, pow_add, ← Nat.mul_assoc,
        roundDiv_mul_right _ _ (Nat.two_pow_pos _)]
    · have hk : 2 ^ 1074 = 2 ^ (-F64.ulpExp n d).toNat * 2 ^ ulpShift n d := by
        rw [← pow_add]
        congr 1
        omega
      rw [if_neg hsign, if_neg hsign, Nat.shiftLeft_eq, hk, ← Nat.mul_assoc, roundDiv_mul_right _ _ (Nat.two_pow_pos _)]
  unfold F64.roundQ
  rw [if_neg hn]
  dsimp only
  rw [hunits, Nat.shiftLeft_eq]
  rfl

theorem magnitude_units {k q : Nat} (hle : q ≤ 2 ^ 53) (hge : 0 < k → 2 ^ 52 ≤ q) :
    magnitude (k * 2 ^ 52 + q) = q * 2 ^ k := by
  unfold magnitude
  rcases Nat.lt_or_ge q (2 ^ 52) with hsub | hnormal
  · obtain rfl : k = 0 := by
      by_contra hk
      exact absurd (hge (Nat.pos_of_ne_zero hk)) (by omega)
    rw [if_pos (by omega), pow_zero]
    omega
  · rcases hle.lt_or_eq with hlt | rfl
    · rw [show (k * 2 ^ 52 + q) / 2 ^ 52 = k + 1 by omega, show (k * 2 ^ 52 + q) % 2 ^ 52 = q - 2 ^ 52 by omega,
        if_neg (by omega), Nat.add_sub_cancel, Nat.add_sub_cancel' hnormal]
    · rw [show (k * 2 ^ 52 + 2 ^ 53) / 2 ^ 52 = k + 2 by omega, show (k * 2 ^ 52 + 2 ^ 53) % 2 ^ 52 = 0 by omega,
        if_neg (by omega), show k + 2 - 1 = k + 1 by omega, pow_succ]
      ring

theorem value_withSign (neg : Bool) {b : Nat} (hb : b < 0x7FF0000000000000) :
    F64.value (F64.withSign neg b) = .fin neg (magnitude b) := by
  have hnat : (F64.withSign neg b).toNat = b + if neg then 2 ^ 63 else 0 := by
    unfold F64.withSign
    cases neg <;> simp <;> omega
  have hmsb : (F64.withSign neg b).msb = neg := by
    rw [BitVec.msb_eq_decide, hnat]
    cases neg
    · simp
      omega
    · simp
  have hexp : ((F64.withSign neg b).extractLsb' 52 11).toNat = b / 2 ^ 52 := by
    rw [BitVec.extractLsb'_toNat, hnat, Nat.shiftRight_eq_div_pow]
    cases neg <;> simp <;> omega
  have hfrac : ((F64.withSign neg b).extractLsb' 0 52).toNat = b % 2 ^ 52 := by
    rw [BitVec.extractLsb'_toNat, hnat, Nat.shiftRight_zero]
    cases neg
    · simp
    · simp
      omega
  unfold F64.value magnitude
  rw [hexp, hfrac, hmsb, if_neg (by omega), Nat.shiftLeft_eq]
  split <;> rfl

theorem value_infinity (neg : Bool) : F64.value (F64.infinity neg) = .inf neg := by cases neg <;> decide

theorem value_signedZero (neg : Bool) : F64.value (F64.signedZero neg) = .fin neg 0 := by cases neg <;> decide

/-- What `roundQ` writes: the rounded units at their exponent, or an infinity. -/
theorem value_roundQ (neg : Bool) {n d : Nat} (hn : n ≠ 0) (hd : 0 < d) : F64.value (F64.roundQ neg n d) =
    if 0x7FF0000000000000 ≤ ulpShift n d * 2 ^ 52 + roundedUnits n d then .inf neg
    else .fin neg (roundedUnits n d * 2 ^ ulpShift n d) := by
  rw [roundQ_eq neg hn]
  split
  · exact value_infinity neg
  · rw [value_withSign neg (by omega), magnitude_units (roundedUnits_le hn hd) (le_roundedUnits hn hd)]

/-- A finite value is a significand of 53 bits at an exponent, normalized unless the exponent is the least one. -/
theorem value_fin_form {x : F64} {neg : Bool} {m : Nat} (h : F64.value x = .fin neg m) :
    ∃ q k, m = q * 2 ^ k ∧ q < 2 ^ 53 ∧ (0 < k → 2 ^ 52 ≤ q) ∧ k * 2 ^ 52 + q < 0x7FF0000000000000 := by
  have hexp := (x.extractLsb' 52 11).isLt
  have hfrac := (x.extractLsb' 0 52).isLt
  unfold F64.value at h
  dsimp only at h
  split at h
  · split at h <;> cases h
  · split at h
    · cases h
      exact ⟨_, 0, (Nat.mul_one _).symm, by omega, by omega, by omega⟩
    · cases h
      exact ⟨_, _, Nat.shiftLeft_eq _ _, by omega, by omega, by omega⟩

/-- No binary64 magnitude is nearer to the quotient than the rounded one: one on the grid of the last place by the integer
rounding, a finer one because it lies below the grid's point `2^52`, which the quotient has passed. -/
theorem rounded_nearest {n d m : Nat} {x : F64} {s : Bool} (hn : n ≠ 0) (hd : 0 < d) (hx : F64.value x = .fin s m) :
    ((roundedUnits n d * (d * 2 ^ ulpShift n d) : Nat) - (n * 2 ^ 1074 : Nat) : Int).natAbs ≤
      ((m * d : Nat) - (n * 2 ^ 1074 : Nat) : Int).natAbs := by
  obtain ⟨q, k, rfl, hq, -, -⟩ := value_fin_form hx
  have hpos : 0 < d * 2 ^ ulpShift n d := Nat.mul_pos hd (Nat.two_pow_pos _)
  have hnear := roundDiv_nearest (n * 2 ^ 1074) (d * 2 ^ ulpShift n d)
  rcases Nat.le_total (ulpShift n d) k with hge | hle
  · have hgrid : q * 2 ^ k * d = q * 2 ^ (k - ulpShift n d) * (d * 2 ^ ulpShift n d) := by
      rw [← Nat.sub_add_cancel hge, pow_add, Nat.add_sub_cancel]
      ring
    rw [hgrid]
    exact hnear _ hpos
  · rcases hle.eq_or_lt with rfl | hlt
    · rw [Nat.mul_right_comm, Nat.mul_assoc]
      exact hnear _ hpos
    · have hfine : q * 2 ^ k * d ≤ 2 ^ 52 * (d * 2 ^ ulpShift n d) := by
        have : 2 ^ (k + 1) ≤ 2 ^ ulpShift n d := Nat.pow_le_pow_right Nat.two_pos hlt
        calc q * 2 ^ k * d ≤ 2 ^ 53 * 2 ^ k * d := Nat.mul_le_mul_right d (Nat.mul_le_mul_right _ hq.le)
          _ = 2 ^ 52 * (d * 2 ^ (k + 1)) := by ring
          _ ≤ _ := Nat.mul_le_mul_left _ (Nat.mul_le_mul_left d this)
      have hpassed := ulpShift_le hn hd.ne' (Nat.zero_lt_of_lt hlt)
      refine (hnear (2 ^ 52) hpos).trans ?_
      omega

/-- Settles O8: zero is exact, and any other finite result is the rounded units. -/
theorem roundedValueIsNearest : Obligations.RoundedValueIsNearest := by
  unfold Obligations.RoundedValueIsNearest
  intro neg s s' n d m m' x hd hround hx
  by_cases hn : n = 0
  · subst hn
    rw [roundQ_zero, value_signedZero] at hround
    cases hround
    exact ⟨rfl, by simp only [Nat.cast_zero, zero_mul, sub_zero, Int.natAbs_zero, Nat.zero_le]⟩
  · rw [value_roundQ neg hn hd] at hround
    split at hround
    · cases hround
    · cases hround
      have hnear := rounded_nearest hn hd hx
      rw [show roundedUnits n d * (d * 2 ^ ulpShift n d) = roundedUnits n d * 2 ^ ulpShift n d * d by ring] at hnear
      refine ⟨rfl, ?_⟩
      exact_mod_cast hnear

end Sys2Proof.Machine
end

