-- ==== Sys2Proof/Proofs/Arithmetic.lean ====
section
/-! Binary64 arithmetic on exact values (R183, D24): a sum that is a binary64 value is exact, and zeros, ones and halves
neither overflow nor give a NaN. -/

namespace Sys2Proof.Machine

/-! ## The number of a pattern -/

/-- The integer a sign and a magnitude stand for. -/
def signed (neg : Bool) (m : Nat) : Int := if neg then -(m : Int) else m

/-- The pattern is finite, and its number is `z / 2^1074`. -/
def HasValue (x : F64) (z : Int) : Prop := ∃ neg m, F64.value x = .fin neg m ∧ signed neg m = z

theorem natAbs_signed (neg : Bool) (m : Nat) : (signed neg m).natAbs = m := by
  unfold signed
  split <;> omega

theorem signed_natAbs (z : Int) : signed (decide (z < 0)) z.natAbs = z := by
  unfold signed
  split
  · have : z < 0 := of_decide_eq_true ‹_›
    omega
  · have : ¬ z < 0 := fun h => ‹¬ _› (decide_eq_true h)
    omega

theorem signed_zero (neg : Bool) : signed neg 0 = 0 := by cases neg <;> rfl

theorem HasValue.finite {x : F64} {z : Int} (h : HasValue x z) : F64.finite x := by
  obtain ⟨neg, m, hx, -⟩ := h
  exact ⟨neg, m, hx⟩

theorem exists_hasValue {x : F64} (h : F64.finite x) : ∃ z, HasValue x z := by
  obtain ⟨neg, m, hx⟩ := h
  exact ⟨_, neg, m, hx, rfl⟩

theorem HasValue.unique {x : F64} {i j : Int} (hi : HasValue x i) (hj : HasValue x j) : i = j := by
  obtain ⟨a, m, hx, rfl⟩ := hi
  obtain ⟨b, n, hy, rfl⟩ := hj
  rw [hx] at hy
  cases hy
  rfl

theorem HasValue.magnitude_zero {x : F64} (h : HasValue x 0) : ∃ neg, F64.value x = .fin neg 0 := by
  obtain ⟨neg, m, hx, hm⟩ := h
  obtain rfl : m = 0 := by rw [← natAbs_signed neg m, hm]; rfl
  exact ⟨neg, hx⟩

theorem HasValue.ne_nan {x : F64} {z : Int} (h : HasValue x z) : F64.value x ≠ .nan := by
  obtain ⟨neg, m, hx, -⟩ := h
  rw [hx]
  nofun

/-- Two finite numbers are compared as integers. -/
theorem lt_of_hasValue {x y : F64} {i j : Int} (hx : HasValue x i) (hy : HasValue y j) :
    F64.lt x y = decide (i < j) := by
  obtain ⟨a, m, hx, rfl⟩ := hx
  obtain ⟨b, n, hy, rfl⟩ := hy
  simp only [F64.lt, hx, hy]
  rfl

theorem sameNumber_iff {x y : F64} : F64.sameNumber x y ↔ ∃ z, HasValue x z ∧ HasValue y z := by
  constructor
  · rintro ⟨hx, hy, hxy, hyx⟩
    obtain ⟨i, hx⟩ := exists_hasValue hx
    obtain ⟨j, hy⟩ := exists_hasValue hy
    rw [lt_of_hasValue hx hy, decide_eq_false_iff_not] at hxy
    rw [lt_of_hasValue hy hx, decide_eq_false_iff_not] at hyx
    obtain rfl : i = j := by omega
    exact ⟨i, hx, hy⟩
  · rintro ⟨z, hx, hy⟩
    exact ⟨hx.finite, hy.finite, by rw [lt_of_hasValue hx hy]; simp, by rw [lt_of_hasValue hy hx]; simp⟩

theorem hasValue_signedZero (neg : Bool) : HasValue (F64.signedZero neg) 0 :=
  ⟨neg, 0, value_signedZero neg, signed_zero neg⟩

theorem hasValue_zero : HasValue F64.zero 0 := hasValue_signedZero false

/-- What is greater than zero: the positive infinity, or a positive number. -/
theorem zero_lt_iff {x : F64} : F64.lt F64.zero x = true ↔
    F64.value x = .inf false ∨ ∃ m, F64.value x = .fin false m ∧ m ≠ 0 := by
  have hzero : F64.value F64.zero = .fin false 0 := value_signedZero false
  unfold F64.lt
  rw [hzero]
  cases F64.value x with
  | nan => simp
  | inf neg => simp
  | fin neg m =>
    cases neg
    · simp
      omega
    · simp

/-! ## The sign operations -/

/-- Patterns that differ in nothing but the sign have one magnitude. -/
theorem value_of_same_magnitude {x y : F64} (hexp : y.extractLsb' 52 11 = x.extractLsb' 52 11)
    (hfrac : y.extractLsb' 0 52 = x.extractLsb' 0 52) : F64.value y = match F64.value x with
      | .nan => .nan
      | .inf _ => .inf y.msb
      | .fin _ m => .fin y.msb m := by
  unfold F64.value
  rw [hexp, hfrac]
  dsimp only
  split
  · split <;> rfl
  · split <;> rfl

theorem msb_of_fin {x : F64} {neg : Bool} {m : Nat} (h : F64.value x = .fin neg m) : x.msb = neg := by
  unfold F64.value at h
  dsimp only at h
  split at h
  · split at h <;> cases h
  · split at h <;> cases h <;> rfl

theorem value_neg_of_fin {x : F64} {neg : Bool} {m : Nat} (h : F64.value x = .fin neg m) :
    F64.value (F64.neg x) = .fin (!neg) m := by
  have hmsb : (F64.neg x).msb = !x.msb := BitVec.msb_xor.trans (Bool.xor_true _)
  have hsame := value_of_same_magnitude (x := x) (y := F64.neg x) ((BitVec.extractLsb'_xor ..).trans BitVec.xor_zero)
    ((BitVec.extractLsb'_xor ..).trans BitVec.xor_zero)
  rw [hsame, h, hmsb, msb_of_fin h]

/-- `|x|` has the magnitude of `x`. -/
theorem value_abs (x : F64) : F64.value (F64.abs x) = match F64.value x with
    | .nan => .nan
    | .inf _ => .inf (F64.abs x).msb
    | .fin _ m => .fin (F64.abs x).msb m :=
  value_of_same_magnitude ((BitVec.extractLsb'_and ..).trans BitVec.and_allOnes)
    ((BitVec.extractLsb'_and ..).trans BitVec.and_allOnes)

theorem value_abs_of_fin {x : F64} {neg : Bool} {m : Nat} (h : F64.value x = .fin neg m) :
    F64.value (F64.abs x) = .fin false m := by
  have hmsb : (F64.abs x).msb = false := BitVec.msb_and.trans (Bool.and_false _)
  rw [value_abs, h, hmsb]

theorem value_abs_of_nan {x : F64} (h : F64.value x = .nan) : F64.value (F64.abs x) = .nan := by
  rw [value_abs, h]

theorem HasValue.neg {x : F64} {z : Int} (h : HasValue x z) : HasValue (F64.neg x) (-z) := by
  obtain ⟨neg, m, hx, rfl⟩ := h
  exact ⟨!neg, m, value_neg_of_fin hx, by cases neg <;> simp [signed]⟩

theorem HasValue.abs_zero {x : F64} (h : HasValue x 0) : HasValue (F64.abs x) 0 := by
  obtain ⟨neg, hx⟩ := h.magnitude_zero
  exact ⟨false, 0, value_abs_of_fin hx, rfl⟩

/-! ## `roundQ` where the quotient is a binary64 value, or no more than one -/

/-- A quotient that is no more than a finite value does not overflow. -/
theorem finite_roundQ {x : F64} {s : Bool} {m : Nat} (neg : Bool) {n d : Nat} (hd : 0 < d) (hx : F64.value x = .fin s m)
    (hle : n * 2 ^ 1074 ≤ m * d) : F64.finite (F64.roundQ neg n d) := by
  by_cases hn : n = 0
  · rw [hn, roundQ_zero]
    exact (hasValue_signedZero neg).finite
  · rw [F64.finite, value_roundQ neg hn hd]
    split
    case isFalse => exact ⟨_, _, rfl⟩
    case isTrue hover =>
      exfalso
      obtain ⟨q, k, rfl, hq, hnormal, hbound⟩ := value_fin_form hx
      have hunits := roundedUnits_le hn hd
      have hgrid := ulpShift_le hn hd.ne' (by omega)
      have hk : k ≤ 2045 := by omega
      have hpos : 0 < d * 2 ^ ulpShift n d := Nat.mul_pos hd (Nat.two_pow_pos _)
      -- the quotient is below the point `2^53 - 1` of a grid no finer than that of the greatest value
      have hbelow : n * 2 ^ 1074 ≤ (2 ^ 53 - 1) * (d * 2 ^ ulpShift n d) := by
        have hpow : 2 ^ k ≤ 2 ^ ulpShift n d := Nat.pow_le_pow_right Nat.two_pos (by omega)
        calc n * 2 ^ 1074 ≤ q * 2 ^ k * d := hle
          _ ≤ (2 ^ 53 - 1) * 2 ^ ulpShift n d * d := Nat.mul_le_mul_right d (Nat.mul_le_mul (by omega) hpow)
          _ = _ := by ring
      have hlast := roundDiv_le hpos hbelow
      have hshift : ulpShift n d ≤ 2045 := by
        by_contra hgt
        have hpow : 2 ^ (k + 1) ≤ 2 ^ ulpShift n d := Nat.pow_le_pow_right Nat.two_pos (by omega)
        have := calc 2 ^ 52 * (d * 2 ^ ulpShift n d) ≤ q * 2 ^ k * d := hgrid.trans hle
          _ < 2 ^ 53 * 2 ^ k * d := Nat.mul_lt_mul_of_pos_right (Nat.mul_lt_mul_of_pos_right hq (Nat.two_pow_pos k)) hd
          _ = 2 ^ 52 * (d * 2 ^ (k + 1)) := by ring
          _ ≤ 2 ^ 52 * (d * 2 ^ ulpShift n d) := Nat.mul_le_mul_left _ (Nat.mul_le_mul_left d hpow)
        exact lt_irrefl _ this
      change roundedUnits n d ≤ _ at hlast
      omega

/-- At distance 0 nothing else is as near. -/
theorem eq_of_nearest_exact {m m' n d k : Nat} (hd : 0 < d) (heq : n * 2 ^ k = m * d)
    (h : ((m' : Int) * d - n * 2 ^ k).natAbs ≤ ((m : Int) * d - n * 2 ^ k).natAbs) : m' = m := by
  have hz : (n * 2 ^ k : Int) = m * d := by exact_mod_cast heq
  rw [hz, Int.sub_self, Int.natAbs_zero, Nat.le_zero, Int.natAbs_eq_zero, Int.sub_eq_zero] at h
  exact Nat.eq_of_mul_eq_mul_right hd (by exact_mod_cast h)

/-- A quotient that is a finite value is rounded to it. -/
theorem value_roundQ_exact {x : F64} {s : Bool} {m : Nat} (neg : Bool) {n d : Nat} (hd : 0 < d)
    (hx : F64.value x = .fin s m) (heq : n * 2 ^ 1074 = m * d) : F64.value (F64.roundQ neg n d) = .fin neg m := by
  obtain ⟨s', m', hround⟩ := finite_roundQ neg hd hx heq.le
  obtain ⟨rfl, hnear⟩ := roundedValueIsNearest neg s' s n d m' m x hd hround hx
  rw [hround, eq_of_nearest_exact hd heq hnear]

theorem roundQ_ne_nan (neg : Bool) (n : Nat) {d : Nat} (hd : 0 < d) : F64.value (F64.roundQ neg n d) ≠ .nan := by
  by_cases hn : n = 0
  · rw [hn, roundQ_zero]
    exact (hasValue_signedZero neg).ne_nan
  · rw [value_roundQ neg hn hd]
    split <;> nofun

/-! ## Sums -/

theorem one_shiftLeft_eq (k : Nat) : 1 <<< k = 2 ^ k := Nat.one_shiftLeft k

theorem unit_eq : F64.unit = 2 ^ 1074 := one_shiftLeft_eq 1074

/-- The sum of two finite values is rounded from the sum of their numbers. -/
theorem add_of_hasValue {x y : F64} {i j : Int} (hx : HasValue x i) (hy : HasValue y j) :
    (i + j = 0 ∧ HasValue (F64.add x y) 0) ∨
      (i + j ≠ 0 ∧ F64.add x y = F64.roundQ (decide (i + j < 0)) (i + j).natAbs F64.unit) := by
  obtain ⟨a, m, hx, rfl⟩ := hx
  obtain ⟨b, n, hy, rfl⟩ := hy
  unfold F64.add
  rw [hx, hy]
  change _ ∧ HasValue (if signed a m + signed b n = 0 then _ else _) 0 ∨
    _ ∧ (if signed a m + signed b n = 0 then _ else _) = _
  by_cases h : signed a m + signed b n = 0
  · rw [if_pos h]
    exact .inl ⟨h, hasValue_signedZero _⟩
  · rw [if_neg h]
    exact .inr ⟨h, rfl⟩

theorem unit_pos : 0 < F64.unit := by
  rw [unit_eq]
  exact pow_pos Nat.two_pos _

/-- A sum that is a binary64 value is exact. -/
theorem HasValue.add {x y w : F64} {i j : Int} (hx : HasValue x i) (hy : HasValue y j) (hw : HasValue w (i + j)) :
    HasValue (F64.add x y) (i + j) := by
  rcases add_of_hasValue hx hy with ⟨h, hsum⟩ | ⟨-, hsum⟩
  · rwa [h]
  · obtain ⟨s, m, hw, hm⟩ := hw
    obtain rfl : m = (i + j).natAbs := by rw [← hm, natAbs_signed]
    rw [hsum]
    exact ⟨_, _, value_roundQ_exact _ unit_pos hw (by rw [unit_eq]), signed_natAbs _⟩

theorem HasValue.add_zero {x y : F64} {i : Int} (hx : HasValue x i) (hy : HasValue y 0) : HasValue (F64.add x y) i := by
  have hsum := hx.add hy (w := x) (by rwa [Int.add_zero])
  rwa [Int.add_zero] at hsum

/-- Equal numbers have the difference zero. -/
theorem HasValue.sub_self {x y : F64} {i : Int} (hx : HasValue x i) (hy : HasValue y i) : HasValue (F64.sub x y) 0 := by
  have hsum := hx.add hy.neg (w := F64.zero) (by rw [Int.add_right_neg]; exact hasValue_zero)
  rwa [Int.add_right_neg] at hsum

/-- A difference of finite values is no NaN. -/
theorem sub_ne_nan {x y : F64} (hx : F64.finite x) (hy : F64.finite y) : F64.value (F64.sub x y) ≠ .nan := by
  obtain ⟨i, hx⟩ := exists_hasValue hx
  obtain ⟨j, hy⟩ := exists_hasValue hy
  rcases add_of_hasValue hx hy.neg with ⟨-, hsum⟩ | ⟨-, hsum⟩
  · exact hsum.ne_nan
  · rw [F64.sub, hsum]
    exact roundQ_ne_nan _ _ unit_pos

/-! ## Products and quotients -/

/-- The divisor that scales a product. -/
def productScale : Nat := 1 <<< 2148

theorem productScale_eq : productScale = 2 ^ 1074 * 2 ^ 1074 :=
  (one_shiftLeft_eq (1074 + 1074)).trans (pow_add 2 1074 1074)

theorem productScale_pos : 0 < productScale := by
  rw [productScale_eq]
  exact Nat.mul_pos (pow_pos Nat.two_pos _) (pow_pos Nat.two_pos _)

theorem mul_of_fin {x y : F64} {a b : Bool} {m n : Nat} (hx : F64.value x = .fin a m) (hy : F64.value y = .fin b n) :
    F64.mul x y = F64.roundQ (a ^^ b) (m * n) productScale := by
  unfold F64.mul
  rw [hx, hy]
  rfl

theorem mul_zero_right {x y : F64} (hx : F64.finite x) (hy : HasValue y 0) : HasValue (F64.mul x y) 0 := by
  obtain ⟨a, m, hx⟩ := hx
  obtain ⟨b, hy⟩ := hy.magnitude_zero
  rw [mul_of_fin hx hy, Nat.mul_zero, roundQ_zero]
  exact hasValue_signedZero _

theorem mul_zero_left {x y : F64} (hx : HasValue x 0) (hy : F64.finite y) : HasValue (F64.mul x y) 0 := by
  obtain ⟨a, hx⟩ := hx.magnitude_zero
  obtain ⟨b, n, hy⟩ := hy
  rw [mul_of_fin hx hy, Nat.zero_mul, roundQ_zero]
  exact hasValue_signedZero _

theorem mul_of_nan {x : F64} (hx : F64.value x = .nan) (y : F64) : F64.value (F64.mul x y) = .nan := by
  unfold F64.mul
  rw [hx]
  exact value_nanOf ..

/-- Zero times what is not finite is no number. -/
theorem mul_zero_of_not_finite {x y : F64} (hx : HasValue x 0) (hy : ¬ F64.finite y) :
    F64.value (F64.mul x y) = .nan := by
  obtain ⟨a, hx⟩ := hx.magnitude_zero
  unfold F64.mul
  rw [hx]
  cases h : F64.value y with
  | nan => exact value_nanOf ..
  | inf b => exact value_nanOf ..
  | fin b n => exact absurd ⟨b, n, h⟩ hy

/-- A factor of at most 1 does not make a finite value overflow. -/
theorem finite_mul_of_le_one {x y : F64} {b : Bool} {n : Nat} (hx : F64.finite x) (hy : F64.value y = .fin b n)
    (hle : n ≤ 2 ^ 1074) : F64.finite (F64.mul x y) ∧ F64.finite (F64.mul y x) := by
  obtain ⟨a, m, hx⟩ := hx
  have hbound : m * n * 2 ^ 1074 ≤ m * productScale := by
    rw [productScale_eq, ← Nat.mul_assoc]
    exact Nat.mul_le_mul_right _ (Nat.mul_le_mul_left m hle)
  rw [mul_of_fin hx hy, mul_of_fin hy hx, Nat.mul_comm n m]
  exact ⟨finite_roundQ _ productScale_pos hx hbound, finite_roundQ _ productScale_pos hx hbound⟩

/-- Zero divided by what is greater than zero. -/
theorem HasValue.zero_div {x y : F64} (hx : HasValue x 0) (hy : F64.lt F64.zero y = true) : HasValue (F64.div x y) 0 := by
  obtain ⟨a, hx⟩ := hx.magnitude_zero
  unfold F64.div
  rw [hx]
  rcases zero_lt_iff.mp hy with hy | ⟨n, hy, hn⟩
  · rw [hy]
    exact hasValue_signedZero _
  · rw [hy]
    simp only [if_neg hn, roundQ_zero]
    exact hasValue_signedZero _

/-- A positive value divided by a positive finite value is greater than zero, or rounds to zero. -/
theorem pos_div {x y : F64} (hx : F64.lt F64.zero x = true) (hy : F64.lt F64.zero y = true) (hfin : F64.finite y) :
    F64.lt F64.zero (F64.div x y) = true ∨ HasValue (F64.div x y) 0 := by
  obtain ⟨n, hy, hn⟩ : ∃ n, F64.value y = .fin false n ∧ n ≠ 0 := by
    rcases zero_lt_iff.mp hy with hinf | hfin'
    · obtain ⟨b, n, hy⟩ := hfin
      rw [hinf] at hy
      cases hy
    · exact hfin'
  rcases zero_lt_iff.mp hx with hx | ⟨m, hx, hm⟩
  · refine .inl (zero_lt_iff.mpr (.inl ?_))
    unfold F64.div
    rw [hx, hy]
    exact value_infinity _
  · have hdiv : F64.div x y = F64.roundQ false m n := by
      unfold F64.div
      rw [hx, hy]
      exact if_neg hn
    have hvalue := value_roundQ false hm (Nat.pos_of_ne_zero hn)
    rw [← hdiv] at hvalue
    split at hvalue
    · exact .inl (zero_lt_iff.mpr (.inl hvalue))
    · by_cases hz : roundedUnits m n * 2 ^ ulpShift m n = 0
      · exact .inr ⟨false, 0, by rw [hvalue, hz], rfl⟩
      · exact .inl (zero_lt_iff.mpr (.inr ⟨_, hvalue, hz⟩))

end Sys2Proof.Machine
end

