-- ==== Sys2Proof/Proofs/Continuity.lean ====
section
/-! No target switch makes the trajectory jump (R178, R185, R187): at the start of a segment, elapsed time `+0.0`, either
branch of the planner gives back the position and velocity the segment started from. -/

namespace Sys2Proof.Machine

/-! ## The start of a segment -/

theorem elapsed_self (now : Word) : elapsed binary64 now now = F64.zero := by
  rw [elapsed, BitVec.sub_self]
  decide

/-- The sign of a number is at most 1 in size. -/
theorem value_signOf {r : F64} (h : F64.value r ≠ .nan) :
    ∃ neg m, F64.value (signOf binary64 r) = .fin neg m ∧ m ≤ 2 ^ 1074 := by
  have hone : F64.value F64.one = .fin false (2 ^ 1074) := by decide +kernel
  have hnegOne : F64.value F64.negOne = .fin true (2 ^ 1074) := by decide +kernel
  unfold signOf
  split
  · exact ⟨_, _, hone, le_rfl⟩
  · split
    · exact ⟨_, _, hnegOne, le_rfl⟩
    · rw [if_neg (by simpa [F64.isNaN] using h)]
      exact ⟨_, _, value_signedZero false, Nat.zero_le _⟩

theorem signOf_zero {r : F64} (h : HasValue r 0) : signOf binary64 r = F64.zero := by
  have hpos : F64.lt F64.zero r = false := lt_of_hasValue hasValue_zero h
  have hneg : F64.lt r F64.zero = false := lt_of_hasValue h hasValue_zero
  have hnan : F64.isNaN r = false := decide_eq_false h.ne_nan
  simp only [signOf, binary64, hpos, hneg, hnan, Bool.false_eq_true, if_false]

theorem value_half : F64.value F64.half = .fin false (2 ^ 1073) := by decide +kernel

theorem finite_half : F64.finite F64.half := ⟨_, _, value_half⟩

theorem finite_two : F64.finite F64.two := ⟨_, _, rfl⟩

/-- Half of a finite acceleration is finite. -/
theorem finite_half_mul {a : F64} (h : F64.finite a) : F64.finite (F64.mul F64.half a) :=
  (finite_mul_of_le_one h value_half (pow_le_pow_right₀ one_le_two (Nat.le_succ 1073))).2

/-- No distance is covered in no time. -/
theorem halfAtt_of_time_zero {a t : F64} (ha : F64.finite a) (ht : HasValue t 0) : HasValue (halfAtt binary64 a t) 0 :=
  mul_zero_right (mul_zero_right (finite_half_mul ha) ht).finite ht

/-- No distance is covered without an acceleration. -/
theorem halfAtt_of_acceleration_zero {a t : F64} (ha : HasValue a 0) (ht : F64.finite t) :
    HasValue (halfAtt binary64 a t) 0 :=
  mul_zero_left (mul_zero_left (mul_zero_right finite_half ha) ht) ht

/-! ## The velocity branch -/

/-- At the start of its segment the velocity branch is where the segment starts: still accelerating, with every
increment 0, or, there being no change of velocity to make, at its target. -/
theorem velocityBranch_start {m : Motion} {vt : F64} {p v : Int} (hp : HasValue m.p0 p) (hv : HasValue m.v0 v)
    (hvt : F64.finite vt) (ha : F64.finite m.maxAcceleration) (hapos : F64.lt F64.zero m.maxAcceleration = true)
    (htime : velocityChangeTakesTime m.maxAcceleration vt m.v0) :
    HasValue (velocityBranch binary64 m vt F64.zero).pos p ∧ HasValue (velocityBranch binary64 m vt F64.zero).vel v := by
  have hlt : binary64.lt F64.zero (binary64.div (F64.abs (binary64.sub vt m.v0)) m.maxAcceleration) =
      F64.lt F64.zero (F64.div (F64.abs (F64.sub vt m.v0)) m.maxAcceleration) := rfl
  cases h : F64.lt F64.zero (F64.div (F64.abs (F64.sub vt m.v0)) m.maxAcceleration) with
  | true =>
    obtain ⟨_, _, hsign, hle⟩ := value_signOf (sub_ne_nan hvt hv.finite)
    have hacc : F64.finite (F64.mul m.maxAcceleration (signOf binary64 (F64.sub vt m.v0))) :=
      (finite_mul_of_le_one ha hsign hle).1
    rw [velocityBranch_accelerating (hlt.trans h)]
    exact ⟨(hp.add_zero (mul_zero_right hv.finite hasValue_zero)).add_zero (halfAtt_of_time_zero hacc hasValue_zero),
      hv.add_zero (mul_zero_right hacc hasValue_zero)⟩
  | false =>
    rw [velocityChangeTakesTime, h] at htime
    obtain ⟨w, hvt', hv'⟩ := sameNumber_iff.mp (htime.resolve_left Bool.false_ne_true)
    obtain rfl : w = v := hv'.unique hv
    have hdiff : HasValue (F64.sub vt m.v0) 0 := hvt'.sub_self hv
    have htc : HasValue (F64.div (F64.abs (F64.sub vt m.v0)) m.maxAcceleration) 0 := hdiff.abs_zero.zero_div hapos
    have hacc : F64.finite (F64.mul m.maxAcceleration (signOf binary64 (F64.sub vt m.v0))) := by
      rw [signOf_zero hdiff]
      exact (mul_zero_right ha hasValue_zero).finite
    rw [velocityBranch_cruising (hlt.trans h)]
    exact ⟨((hp.add_zero (mul_zero_right hv.finite htc)).add_zero (halfAtt_of_time_zero hacc htc)).add_zero
      (mul_zero_right hvt (hasValue_zero.sub_self htc)), hvt'⟩

/-- The evaluation at the start of a segment that the velocity branch runs. -/
theorem evaluate_velocity_start {m : Motion} {now : Word} {p v : F64} (ht0 : m.t0 = now) (hp0 : m.p0 = p) (hv0 : m.v0 = v)
    (hbranch : m.stopNeeded = true ∨ m.mode = .velocity) (hp : F64.finite p) (hv : F64.finite v)
    (hvt : F64.finite (branchTarget m)) (ha : F64.finite m.maxAcceleration)
    (hapos : F64.lt F64.zero m.maxAcceleration = true)
    (htime : velocityChangeTakesTime m.maxAcceleration (branchTarget m) v) :
    ∃ e, evaluate binary64 m now = .ok e ∧ F64.sameNumber e.pos p ∧ F64.sameNumber e.vel v := by
  subst ht0 hp0 hv0
  obtain ⟨i, hp⟩ := exists_hasValue hp
  obtain ⟨j, hv⟩ := exists_hasValue hv
  obtain ⟨hpos, hvel⟩ := velocityBranch_start hp hv hvt ha hapos htime
  rw [← elapsed_self m.t0] at hpos hvel
  exact ⟨_, evaluate_velocity m.t0 hbranch hapos, sameNumber_iff.mpr ⟨i, hpos, hp⟩, sameNumber_iff.mpr ⟨j, hvel, hv⟩⟩

/-! ## The Position branch -/

/-- Still accelerating at its start, the Position branch is where the segment starts, at rest. -/
theorem positionBranch_start_accelerating {m : Motion} {p : Int} (hp : HasValue m.p0 p)
    (htarget : F64.finite m.targetPosition) (ha : F64.finite m.maxAcceleration) (h : F64.lt F64.zero (positionProfile binary64 m).t01 = true) :
    HasValue (positionBranch binary64 m F64.zero).pos p ∧ HasValue (positionBranch binary64 m F64.zero).vel 0 := by
  have hacc : F64.finite (positionProfile binary64 m).a := by
    obtain ⟨_, _, hsign, hle⟩ := value_signOf (sub_ne_nan htarget hp.finite)
    rw [positionProfile_a]
    exact (finite_mul_of_le_one ha hsign hle).2
  rw [positionBranch_accelerating h]
  exact ⟨hp.add_zero (halfAtt_of_time_zero hacc hasValue_zero), mul_zero_right hacc hasValue_zero⟩

/-- Without an acceleration no distance, however long the time, exceeds 0. -/
theorem not_zero_lt_halfAtt {a t z : F64} (ha : HasValue a 0) (hz : HasValue z 0) :
    F64.lt z (F64.abs (halfAtt binary64 a t)) = false := by
  by_cases ht : F64.finite t
  · exact lt_of_hasValue hz (halfAtt_of_acceleration_zero ha ht).abs_zero
  · have hnan : F64.value (F64.abs (halfAtt binary64 a t)) = .nan :=
      value_abs_of_nan (mul_of_nan (mul_zero_of_not_finite (mul_zero_right finite_half ha) ht) t)
    obtain ⟨neg, hz⟩ := hz.magnitude_zero
    unfold F64.lt
    rw [hz, hnan]

/-- A move of no length is settled at its start, unless its profile takes time. -/
theorem positionBranch_start_settled {m : Motion} {p : Int} (hp : HasValue m.p0 p) (htarget : HasValue m.targetPosition p)
    (ha : F64.finite m.maxAcceleration) (hapos : F64.lt F64.zero m.maxAcceleration = true)
    (hvpos : F64.lt F64.zero m.maxVelocity = true) (h : F64.lt F64.zero (positionProfile binary64 m).t01 = false) :
    positionBranch binary64 m F64.zero = { pos := m.targetPosition, vel := F64.zero, cruise := false } := by
  have hmove : HasValue (F64.sub m.targetPosition m.p0) 0 := htarget.sub_self hp
  have hacc : HasValue (positionProfile binary64 m).a 0 := by
    rw [positionProfile_a, show signOf binary64 (binary64.sub m.targetPosition m.p0) = F64.zero from signOf_zero hmove]
    exact mul_zero_left hasValue_zero ha
  obtain ⟨ht01, hp01, hp12, ht12⟩ := positionProfile_trapezoidal (A := binary64) (m := m)
    (not_zero_lt_halfAtt hacc (mul_zero_right finite_half hmove.abs_zero))
  have ht01 : HasValue (positionProfile binary64 m).t01 0 := by
    rw [ht01] at h ⊢
    exact (pos_div hvpos hapos ha).resolve_left (Bool.eq_false_iff.mp h)
  have hp01 : HasValue (positionProfile binary64 m).p01 0 := by
    rw [hp01]
    exact halfAtt_of_time_zero hacc.finite ht01
  have hp12 : HasValue (positionProfile binary64 m).p12 0 := by
    rw [hp12]
    exact hmove.sub_self (mul_zero_right finite_two hp01)
  have ht12 : HasValue (positionProfile binary64 m).t12 0 := by
    rw [ht12]
    exact hp12.abs_zero.zero_div hvpos
  exact positionBranch_settled h (lt_of_hasValue hasValue_zero (ht01.add_zero ht12))
    (lt_of_hasValue hasValue_zero ((mul_zero_right finite_two ht01).add_zero ht12))

/-- The evaluation at the start of a segment that the Position branch runs from rest. -/
theorem evaluate_position_start {m : Motion} {now : Word} (ht0 : m.t0 = now) (hstop : m.stopNeeded = false)
    (hmode : m.mode = .position) (hp : F64.finite m.p0) (htarget : F64.finite m.targetPosition)
    (ha : F64.finite m.maxAcceleration) (hapos : F64.lt F64.zero m.maxAcceleration = true)
    (hvpos : F64.lt F64.zero m.maxVelocity = true)
    (htime : F64.lt F64.zero (positionProfile binary64 m).t01 = true ∨ F64.sameNumber m.targetPosition m.p0) :
    ∃ e, evaluate binary64 m now = .ok e ∧ F64.sameNumber e.pos m.p0 ∧ F64.sameNumber e.vel F64.zero := by
  subst ht0
  obtain ⟨p, hp⟩ := exists_hasValue hp
  refine ⟨_, evaluate_position m.t0 hstop hmode hapos hvpos, ?_⟩
  rw [elapsed_self]
  cases h : F64.lt F64.zero (positionProfile binary64 m).t01 with
  | true =>
    obtain ⟨hpos, hvel⟩ := positionBranch_start_accelerating hp htarget ha h
    exact ⟨sameNumber_iff.mpr ⟨p, hpos, hp⟩, sameNumber_iff.mpr ⟨0, hvel, hasValue_zero⟩⟩
  | false =>
    rw [h] at htime
    have hsame := htime.resolve_left Bool.false_ne_true
    obtain ⟨w, htarget', hp'⟩ := sameNumber_iff.mp hsame
    obtain rfl : w = p := hp'.unique hp
    rw [positionBranch_start_settled hp htarget' ha hapos hvpos h]
    exact ⟨hsame, sameNumber_iff.mpr ⟨0, hasValue_zero, hasValue_zero⟩⟩

/-! ## The switches -/

theorem sameNumber_refl {x : F64} (h : F64.finite x) : F64.sameNumber x x := by
  obtain ⟨z, h⟩ := exists_hasValue h
  exact sameNumber_iff.mpr ⟨z, h, h⟩

/-- Settles O57: every switch starts a segment at the position and velocity just evaluated, and each branch starts where
its segment does. -/
theorem targetSwitchesDoNotJump : Obligations.TargetSwitchesDoNotJump := by
  unfold Obligations.TargetSwitchesDoNotJump
  intro m now e he hp hv ha
  have hapos : F64.lt F64.zero m.maxAcceleration = true := (evaluate_ok_cases he).1
  refine ⟨fun v htime => ?_, fun v hfin htime => ?_, fun hafter => ?_⟩
  · exact evaluate_velocity_start rfl rfl rfl (.inl rfl) hp hv hasValue_zero.finite ha hapos htime
  · exact evaluate_velocity_start rfl rfl rfl (.inr rfl) hp hv hfin ha hapos htime
  · by_cases hsame : e.motion = m
    · rw [hsame]
      exact ⟨e, he, sameNumber_refl hp, sameNumber_refl hv⟩
    · obtain ⟨hstop, hm⟩ := (evaluate_motion he).resolve_left hsame
      have hvel := evaluate_stop_completed hstop he hsame
      rcases hafter.resolve_left hsame with ⟨hmode, hfin, htime⟩ | ⟨hmode, hfin, hvpos, htime⟩
      · rw [hm]
        exact evaluate_velocity_start rfl rfl hvel.symm (.inr hmode) hp hv hfin ha hapos htime
      · rw [hm] at htime ⊢
        rw [hvel]
        exact evaluate_position_start (m := completeStop m now e.pos) rfl rfl hmode hp hfin ha hapos hvpos htime

end Sys2Proof.Machine
end
